-- ==== Sys2Proof/Word.lean ====
section
/-! DEFINITION. The word types of the engine (00_scope.md R5): scalar values, vector values, command words, bytes.
Each is a bit string whose bit 0 is the least significant (00_scope.md R6); nothing is signed. -/

namespace Sys2Proof

/-- A scalar register's value, 64 bits (10_state.md R20). -/
abbrev Scalar := BitVec 64

/-- A vector value, 256 bits (10_state.md R21). -/
abbrev Vec := BitVec 256

/-- A command word, 32 bits (30_encoding.md R80). -/
abbrev CmdWord := BitVec 32

/-- One byte of the store (20_memory.md R52). -/
abbrev Byte := BitVec 8

end Sys2Proof
end

