-- ==== Sys2Proof/Syntax.lean ====
section
/-! DEFINITION. The 26 commands of the BMTE command set, version 1 (30_encoding.md R86), one constructor per row of the
opcode table, with the operand names the command rules use. Every operand has exactly the width of its field, so a
term of `Instr` is a legal command by its type: all 16 registers are legal (R83), `q` is 0 to 3 (R82), `k` is 0 to 7
(R84), `imm16` is unsigned (R85). -/

namespace Sys2Proof

/-- The name of a scalar register, `s0` to `s15` (30_encoding.md R83). -/
structure SReg where
  num : BitVec 4
  deriving DecidableEq, Repr

/-- The name of a vector register, `v0` to `v15` (30_encoding.md R83). -/
structure VReg where
  num : BitVec 4
  deriving DecidableEq, Repr

/-- A command with its operands, in the operand order of 30_encoding.md R90. -/
inductive Instr where
  | halt
  | li (rd : SReg) (q : BitVec 2) (imm16 : BitVec 16)
  | lik (rd : SReg) (q : BitVec 2) (imm16 : BitVec 16)
  | ceil256 (rd ra : SReg)
  | sinit (rd ra : SReg)
  | srand (rd ra : SReg)
  | getb (rd ra : SReg)
  | setb (ra rb : SReg)
  | getw (rd ra : SReg)
  | setw (ra rb : SReg)
  | vld (vd : VReg) (ra : SReg)
  | vst (ra : SReg) (vb : VReg)
  | seq (rd ra rb rc : SReg)
  | pack (vd : VReg) (ra rb : SReg)
  | unpack (ra : SReg) (vb : VReg)
  | popc16 (vd va : VReg)
  | popsum (rd : SReg) (va : VReg)
  | mod4 (vd va vb vc : VReg)
  | xorm (ra rb rc : SReg)
  | anynz (rd ra rb : SReg)
  | swapk (ra : SReg) (k : BitVec 3)
  | swaps (ra rb : SReg) (k : BitVec 3)
  | tblk (ra : SReg)
  | tblks (ra rb : SReg)
  | rblk (ra rb : SReg)
  | tmat (ra rb : SReg)
  deriving DecidableEq, Repr

end Sys2Proof
end

