-- ==== Sys2Proof/WellFormed.lean ====
section
/-! DEFINITION. Which command words are legal (30_encoding.md R88, its five clauses) and which command memories are fit
to run (R241 of 70_reset_and_hazards.md, R5 of 00_scope.md). It is written from the field table of R86 and shares nothing
with the decoder of Decode.lean, which is written from the masks and matches of the same rule. A term of `Instr` needs no
check: its type admits legal operands only. -/

namespace Sys2Proof.WellFormed

/-- The two command formats (30_encoding.md R81, R82). -/
inductive Format where
  | R
  | I
  deriving DecidableEq, Repr

/-- How a command uses its operand fields: its format, which of the fields A, B, C, D of format R it uses, and whether
`D` holds the level `k` (30_encoding.md R86). -/
structure Shape where
  format : Format
  usesA : Bool := false
  usesB : Bool := false
  usesC : Bool := false
  usesD : Bool := false
  level : Bool := false
  deriving DecidableEq, Repr

/-- The shapes of the control, scalar and bit-store commands, by opcode byte (30_encoding.md R86). -/
def storeShapes : List (Nat × Shape) :=
  [ (0x01, ⟨.R, false, false, false, false, false⟩),
    (0x02, ⟨.I, true, false, false, false, false⟩),
    (0x03, ⟨.I, true, false, false, false, false⟩),
    (0x04, ⟨.R, true, true, false, false, false⟩),
    (0x10, ⟨.R, true, true, false, false, false⟩),
    (0x11, ⟨.R, true, true, false, false, false⟩),
    (0x12, ⟨.R, true, true, false, false, false⟩),
    (0x13, ⟨.R, true, true, false, false, false⟩),
    (0x14, ⟨.R, true, true, false, false, false⟩),
    (0x15, ⟨.R, true, true, false, false, false⟩),
    (0x16, ⟨.R, true, true, false, false, false⟩),
    (0x17, ⟨.R, true, true, false, false, false⟩),
    (0x18, ⟨.R, true, true, true, true, false⟩) ]

/-- The shapes of the packing, lane, permutation and transpose commands, by opcode byte (30_encoding.md R86). -/
def laneShapes : List (Nat × Shape) :=
  [ (0x20, ⟨.R, true, true, true, false, false⟩),
    (0x21, ⟨.R, true, true, false, false, false⟩),
    (0x28, ⟨.R, true, true, false, false, false⟩),
    (0x29, ⟨.R, true, true, false, false, false⟩),
    (0x2A, ⟨.R, true, true, true, true, false⟩),
    (0x30, ⟨.R, true, true, true, false, false⟩),
    (0x31, ⟨.R, true, true, true, false, false⟩),
    (0x40, ⟨.R, true, false, false, true, true⟩),
    (0x41, ⟨.R, true, true, false, true, true⟩),
    (0x48, ⟨.R, true, false, false, false, false⟩),
    (0x49, ⟨.R, true, true, false, false, false⟩),
    (0x4A, ⟨.R, true, true, false, false, false⟩),
    (0x4B, ⟨.R, true, true, false, false, false⟩) ]

/-- The shape of the command whose opcode byte the word has, if R86 assigns that byte. -/
def shapeOf (w : CmdWord) : Option Shape :=
  (storeShapes ++ laneShapes).lookup (w.extractLsb' 24 8).toNat

/-- Clause 1 of R88 does not hold: the opcode byte is one of the 26 of R86. -/
def opAssigned (w : CmdWord) : Bool := (shapeOf w).isSome

/-- Clause 2 does not hold: in format R the `Z` byte is zero. -/
def zByteZero (sh : Shape) (w : CmdWord) : Bool := sh.format == .I || w.extractLsb' 0 8 == 0#8

/-- Clause 3 does not hold: in format R every operand field the command does not use is zero. -/
def unusedFieldsZero (sh : Shape) (w : CmdWord) : Bool :=
  sh.format == .I ||
    ((sh.usesA || w.extractLsb' 20 4 == 0#4) && (sh.usesB || w.extractLsb' 16 4 == 0#4) &&
      (sh.usesC || w.extractLsb' 12 4 == 0#4) && (sh.usesD || w.extractLsb' 8 4 == 0#4))

/-- Clause 4 does not hold: in format I the `Y` bits are zero. -/
def yBitsZero (sh : Shape) (w : CmdWord) : Bool := sh.format == .R || w.extractLsb' 18 2 == 0#2

/-- Clause 5 does not hold: in SWAPK and SWAPS bit 11, the high bit of the level field, is zero (R84). -/
def levelInRange (sh : Shape) (w : CmdWord) : Bool := !sh.level || !w.getLsbD 11

/-- The word is legal: none of the five clauses of R88 holds. -/
def word (w : CmdWord) : Bool :=
  match shapeOf w with
  | none => false
  | some sh => zByteZero sh w && unusedFieldsZero sh w && yBitsZero sh w && levelInRange sh w

/-- The word HALT (40_control_scalar.md R110). -/
abbrev haltWord : CmdWord := 0x01000000#32

/-- A command memory fit to run: at most `2^32 - 1` words (00_scope.md R5), every one legal, and a HALT among them
(70_reset_and_hazards.md R241: "The last command a run executes must be HALT"). -/
def program (p : List CmdWord) : Bool :=
  decide (p.length < 2 ^ 32) && p.all word && p.contains haltWord

end Sys2Proof.WellFormed
end

