-- ==== Sys2Proof/Decode.lean ====
section
/-! DEFINITION. From a command word to a command and back (30_encoding.md). The decoder follows R87: look up the opcode
byte; if no row has it, illegal; else if `w & mask != match`, illegal; else the command of that row with its fields. It
is total on all `2^32` words and rejects by name. The encoder follows the formats R and I of R81 and R82. -/

namespace Sys2Proof

/-- Why a word is illegal, one name per clause of 30_encoding.md R88. The names are the model's own (log 16); the machine
records the word itself (60_exceptions.md R213). -/
inductive Reject where
  /-- Clause 1: the opcode byte is not assigned. -/
  | unassignedOp
  /-- Clause 2: format R with a non-zero `Z` byte. -/
  | nonzeroZ
  /-- Clause 3: format R with a non-zero operand field that the command does not use. -/
  | nonzeroUnusedField
  /-- Clause 4: format I with non-zero `Y` bits. -/
  | nonzeroY
  /-- Clause 5: SWAPK or SWAPS with bit 11 set. -/
  | levelAbove7
  deriving DecidableEq, Repr

/-- Bits 31:24 (30_encoding.md R81). -/
def opField (w : CmdWord) : BitVec 8 := w.extractLsb' 24 8
/-- Bits 23:20 (R81, R82). -/
def fieldA (w : CmdWord) : BitVec 4 := w.extractLsb' 20 4
/-- Bits 19:16 (R81). -/
def fieldB (w : CmdWord) : BitVec 4 := w.extractLsb' 16 4
/-- Bits 15:12 (R81). -/
def fieldC (w : CmdWord) : BitVec 4 := w.extractLsb' 12 4
/-- Bits 11:8 (R81). -/
def fieldD (w : CmdWord) : BitVec 4 := w.extractLsb' 8 4
/-- Bits 10:8, the level of SWAPK and SWAPS; bit 11 is zero in a legal word (R84). -/
def fieldK (w : CmdWord) : BitVec 3 := w.extractLsb' 8 3
/-- Bits 17:16 of format I (R82). -/
def fieldQ (w : CmdWord) : BitVec 2 := w.extractLsb' 16 2
/-- Bits 15:0 of format I (R82, R85). -/
def fieldImm (w : CmdWord) : BitVec 16 := w.extractLsb' 0 16

/-- A row of the opcode map (30_encoding.md R86): its mask, its match, and the command a matching word is. -/
structure OpRow where
  mask : CmdWord
  val : CmdWord
  build : CmdWord → Instr

/-- Rows 0x01 to 0x18 of R86. -/
def storeRows : List OpRow :=
  [ ⟨0xFFFFFFFF#32, 0x01000000#32, fun _ => .halt⟩,
    ⟨0xFF0C0000#32, 0x02000000#32, fun w => .li ⟨fieldA w⟩ (fieldQ w) (fieldImm w)⟩,
    ⟨0xFF0C0000#32, 0x03000000#32, fun w => .lik ⟨fieldA w⟩ (fieldQ w) (fieldImm w)⟩,
    ⟨0xFF00FFFF#32, 0x04000000#32, fun w => .ceil256 ⟨fieldA w⟩ ⟨fieldB w⟩⟩,
    ⟨0xFF00FFFF#32, 0x10000000#32, fun w => .sinit ⟨fieldA w⟩ ⟨fieldB w⟩⟩,
    ⟨0xFF00FFFF#32, 0x11000000#32, fun w => .srand ⟨fieldA w⟩ ⟨fieldB w⟩⟩,
    ⟨0xFF00FFFF#32, 0x12000000#32, fun w => .getb ⟨fieldA w⟩ ⟨fieldB w⟩⟩,
    ⟨0xFF00FFFF#32, 0x13000000#32, fun w => .setb ⟨fieldA w⟩ ⟨fieldB w⟩⟩,
    ⟨0xFF00FFFF#32, 0x14000000#32, fun w => .getw ⟨fieldA w⟩ ⟨fieldB w⟩⟩,
    ⟨0xFF00FFFF#32, 0x15000000#32, fun w => .setw ⟨fieldA w⟩ ⟨fieldB w⟩⟩,
    ⟨0xFF00FFFF#32, 0x16000000#32, fun w => .vld ⟨fieldA w⟩ ⟨fieldB w⟩⟩,
    ⟨0xFF00FFFF#32, 0x17000000#32, fun w => .vst ⟨fieldA w⟩ ⟨fieldB w⟩⟩,
    ⟨0xFF0000FF#32, 0x18000000#32, fun w => .seq ⟨fieldA w⟩ ⟨fieldB w⟩ ⟨fieldC w⟩ ⟨fieldD w⟩⟩ ]

/-- Rows 0x20 to 0x4B of R86. -/
def laneRows : List OpRow :=
  [ ⟨0xFF000FFF#32, 0x20000000#32, fun w => .pack ⟨fieldA w⟩ ⟨fieldB w⟩ ⟨fieldC w⟩⟩,
    ⟨0xFF00FFFF#32, 0x21000000#32, fun w => .unpack ⟨fieldA w⟩ ⟨fieldB w⟩⟩,
    ⟨0xFF00FFFF#32, 0x28000000#32, fun w => .popc16 ⟨fieldA w⟩ ⟨fieldB w⟩⟩,
    ⟨0xFF00FFFF#32, 0x29000000#32, fun w => .popsum ⟨fieldA w⟩ ⟨fieldB w⟩⟩,
    ⟨0xFF0000FF#32, 0x2A000000#32, fun w => .mod4 ⟨fieldA w⟩ ⟨fieldB w⟩ ⟨fieldC w⟩ ⟨fieldD w⟩⟩,
    ⟨0xFF000FFF#32, 0x30000000#32, fun w => .xorm ⟨fieldA w⟩ ⟨fieldB w⟩ ⟨fieldC w⟩⟩,
    ⟨0xFF000FFF#32, 0x31000000#32, fun w => .anynz ⟨fieldA w⟩ ⟨fieldB w⟩ ⟨fieldC w⟩⟩,
    ⟨0xFF0FF8FF#32, 0x40000000#32, fun w => .swapk ⟨fieldA w⟩ (fieldK w)⟩,
    ⟨0xFF00F8FF#32, 0x41000000#32, fun w => .swaps ⟨fieldA w⟩ ⟨fieldB w⟩ (fieldK w)⟩,
    ⟨0xFF0FFFFF#32, 0x48000000#32, fun w => .tblk ⟨fieldA w⟩⟩,
    ⟨0xFF00FFFF#32, 0x49000000#32, fun w => .tblks ⟨fieldA w⟩ ⟨fieldB w⟩⟩,
    ⟨0xFF00FFFF#32, 0x4A000000#32, fun w => .rblk ⟨fieldA w⟩ ⟨fieldB w⟩⟩,
    ⟨0xFF00FFFF#32, 0x4B000000#32, fun w => .tmat ⟨fieldA w⟩ ⟨fieldB w⟩⟩ ]

/-- The opcode map (30_encoding.md R86): 26 rows. -/
def opRows : List OpRow := storeRows ++ laneRows

/-- The name of the clause of R88 that a word of this row's opcode breaks, given that it does not match the row. The `Y`
bits of format I are the bits 19:18, which only the masks of format R also cover together with the `Z` byte. -/
def OpRow.reject (r : OpRow) (w : CmdWord) : Reject :=
  if r.mask.extractLsb' 0 8 = 0#8 then .nonzeroY
  else if w.extractLsb' 0 8 ≠ 0#8 then .nonzeroZ
  else if r.mask.extractLsb' 8 4 = 8#4 ∧ w.getLsbD 11 then .levelAbove7
  else .nonzeroUnusedField

/-- Decoding (30_encoding.md R87). -/
def decode (w : CmdWord) : Except Reject Instr :=
  match opRows.find? (fun r => opField r.val == opField w) with
  | none => .error .unassignedOp
  | some r => if w &&& r.mask = r.val then .ok (r.build w) else .error (r.reject w)

/-- A word of format R: `op<<24 | A<<20 | B<<16 | C<<12 | D<<8` (30_encoding.md R81, R86). -/
def encodeR (op : BitVec 8) (a b c d : BitVec 4) : CmdWord := op ++ a ++ b ++ c ++ d ++ 0#8

/-- A word of format I: `op<<24 | A<<20 | q<<16 | imm16` (30_encoding.md R82, R86). -/
def encodeI (op : BitVec 8) (a : BitVec 4) (q : BitVec 2) (imm : BitVec 16) : CmdWord := op ++ a ++ 0#2 ++ q ++ imm

/-- The `D` field that holds a level: bit 11 zero (30_encoding.md R84). -/
def levelField (k : BitVec 3) : BitVec 4 := 0#1 ++ k

/-- The word of a command (30_encoding.md R86). -/
def encode : Instr → CmdWord
  | .halt => encodeR 0x01 0 0 0 0
  | .li rd q imm => encodeI 0x02 rd.num q imm
  | .lik rd q imm => encodeI 0x03 rd.num q imm
  | .ceil256 rd ra => encodeR 0x04 rd.num ra.num 0 0
  | .sinit rd ra => encodeR 0x10 rd.num ra.num 0 0
  | .srand rd ra => encodeR 0x11 rd.num ra.num 0 0
  | .getb rd ra => encodeR 0x12 rd.num ra.num 0 0
  | .setb ra rb => encodeR 0x13 ra.num rb.num 0 0
  | .getw rd ra => encodeR 0x14 rd.num ra.num 0 0
  | .setw ra rb => encodeR 0x15 ra.num rb.num 0 0
  | .vld vd ra => encodeR 0x16 vd.num ra.num 0 0
  | .vst ra vb => encodeR 0x17 ra.num vb.num 0 0
  | .seq rd ra rb rc => encodeR 0x18 rd.num ra.num rb.num rc.num
  | .pack vd ra rb => encodeR 0x20 vd.num ra.num rb.num 0
  | .unpack ra vb => encodeR 0x21 ra.num vb.num 0 0
  | .popc16 vd va => encodeR 0x28 vd.num va.num 0 0
  | .popsum rd va => encodeR 0x29 rd.num va.num 0 0
  | .mod4 vd va vb vc => encodeR 0x2A vd.num va.num vb.num vc.num
  | .xorm ra rb rc => encodeR 0x30 ra.num rb.num rc.num 0
  | .anynz rd ra rb => encodeR 0x31 rd.num ra.num rb.num 0
  | .swapk ra k => encodeR 0x40 ra.num 0 0 (levelField k)
  | .swaps ra rb k => encodeR 0x41 ra.num rb.num 0 (levelField k)
  | .tblk ra => encodeR 0x48 ra.num 0 0 0
  | .tblks ra rb => encodeR 0x49 ra.num rb.num 0 0
  | .rblk ra rb => encodeR 0x4A ra.num rb.num 0 0
  | .tmat ra rb => encodeR 0x4B ra.num rb.num 0 0

/-- What the decoder reads from an opcode-table row's instruction whose bits are `w`, of which the table gives `nbits`;
the bits above `nbits` are zero. A command is one 32-bit word and a word is a number, so there is no byte order
(30_encoding.md R80); bits above 31 that are not zero make it no command word. -/
def decodeTableWord (nbits w : Nat) : Option Instr :=
  if w % 2 ^ nbits < 2 ^ 32 then (decode (BitVec.ofNat 32 (w % 2 ^ nbits))).toOption else none

end Sys2Proof
end

