-- ==== Sys2Proof/Config.lean ====
section
/-! DEFINITION. What one engine is built with (00_scope.md R5): its identity value, its greatest capacity, and the free
values of the RNG port. The two opaque constants have no body: nothing in Lean can evaluate them. -/

namespace Sys2Proof.Config

/-- `IDR`, the identity value: the bytes 'B', 'M', 'T' and the command-set version 1 (10_state.md R32). -/
abbrev idr : BitVec 32 := 0x424D5401#32

/-- The greatest capacity in vectors of the engine that `State.reset` describes: an open parameter of the spec.
DESIGN CHOICE (log 3), safe: any value of 56 bits. -/
opaque capMaxVectors : BitVec 56

/-- `CAPMAX` of that engine, in bits: any multiple of 256 from 0 to `2^64 - 256` (92_eei_decisions.md, open parameters). -/
def capMax : Scalar := capMaxVectors ++ 0#8

/-- The `n`-th word the RNG port answers (41_bitstore.md R121): a free 64-bit value for every `n`, under no law.
DESIGN CHOICE (log 1), safe: a claim about SRAND holds for every sequence of draws. -/
opaque rng64 : Nat → Scalar

end Sys2Proof.Config
end

