-- ==== Sys2Proof/Machine/State.lean ====
section
/-! DEFINITION. The state of the engine as plain data (10_state.md), the reasons a step can stop, and the state after
reset. -/

namespace Sys2Proof.Machine

/-- The engine's run state, the register `STATE` (10_state.md R26): exactly four values
(93_implementation_defined.md U16). -/
inductive RunState where
  | idle
  | running
  | halted
  | faulted
  deriving DecidableEq, Repr

/-- The cause of the fault that ended the run, the register `CAUSE` (10_state.md R27): the seven values of
60_exceptions.md R211, `none` when no fault has been taken. -/
inductive Cause where
  | none
  | illegalCommand
  | storeRange
  | sizeContract
  | capacity
  | overlap
  | fetchRange
  deriving DecidableEq, Repr

/-- The bit store `M` (10_state.md R33) as cells (byte index, byte), in one canonical form (`Memory.wf` in Ops.lean):
byte indices strictly rising, no cell holding what an unlisted index reads as. The bytes that exist are those below
`CAP / 8`; log 7. -/
abbrev Memory := List Host.Cell

/-- Everything the spec gives the machine (10_state.md). -/
structure State where
  /-- The scalar registers `s0` to `s15` (R20). -/
  sreg : Vector Scalar 16
  /-- The vector registers `v0` to `v15` (R21). -/
  vreg : Vector Vec 16
  /-- The program counter, an index in command words (R23); CSR 1. -/
  pc : BitVec 32
  /-- `STATE` (R26); CSR 0. -/
  runState : RunState
  /-- `CAUSE` (R27); CSR 2. -/
  cause : Cause
  /-- `FINFO` (R28); CSR 3. -/
  finfo : BitVec 64
  /-- `FPC` (R29); CSR 4. -/
  fpc : BitVec 32
  /-- `CAP`, the capacity of the store in bits (R30); CSR 5. -/
  cap : BitVec 64
  /-- `CAPMAX`, the greatest capacity (R31), a constant of the engine that nothing writes; CSR 6; log 3. -/
  capMax : BitVec 64
  /-- The bit store `M` (R33). -/
  store : Memory
  /-- The command memory (R34): word `i` is element `i`, `PLEN` is the length; log 2. -/
  program : List CmdWord
  /-- The model's own field: how many words of the RNG port have been drawn, so that the next draw is
  `Config.rng64 draws` (41_bitstore.md R121); log 1. -/
  draws : Nat
  deriving DecidableEq, Repr

/-- The reasons for which a step stops the machine outside the spec: there are none. Every fault of the spec is the
entry of 60_exceptions.md R212, which is described whole and is a next state; no rule leaves a command without an
effect (log 8). Safe: a step that always answers a next state claims no stop that the hardware lacks. -/
inductive Fault where
  deriving DecidableEq, Repr

/-- The reasons for which the model gives no next state. -/
inductive Refusal where
  /-- Raised by `exec` for a command that has no meaning in the model yet: none. Safe. -/
  | notModelled (mnemonic : String)
  /-- Raised by `port` when the host writes a register, a vector of the store or a command word while the engine is
  RUNNING: 70_reset_and_hazards.md R246 "must not", 93_implementation_defined.md U8 `refuse`; log 6. Unsafe if a real
  host does so: the model lacks that run. -/
  | hostMustNot
  /-- Raised by `port` for a host operation that does not exist: a write of a CSR, of a vector at `CAPV` or above, of a
  command word at `PLEN` or above (70_reset_and_hazards.md R246 "not possible"); log 6. Safe. -/
  | hostCannot
  deriving DecidableEq, Repr

/-- The state after power-on of an engine with a given `CAPMAX` and command memory (10_state.md R37). -/
def State.powerOn (capMax : BitVec 64) (program : List CmdWord) : State where
  sreg := Vector.replicate 16 0#64
  vreg := Vector.replicate 16 0#256
  pc := 0#32
  runState := .idle
  cause := .none
  finfo := 0#64
  fpc := 0#32
  cap := 0#64
  capMax := capMax
  store := []
  program := program
  draws := 0

/-- The machine right after reset (10_state.md R37). The spec leaves open `CAPMAX` (the opaque `Config.capMax`, log 3)
and the command memory at power-on (empty here, log 2); `draws` is the model's own (log 1). DESIGN CHOICE for those
three. -/
def State.reset : State := State.powerOn Config.capMax []

end Sys2Proof.Machine
end

