-- ==== Sys2Proof/Machine/Ops.lean ====
section
/-! DEFINITION. The named operations over the store, the registers and the fault registers, which the meanings share. -/

namespace Sys2Proof.Machine

/-! ### Values made of equal parts (10_state.md R22, 20_memory.md R51, R52) -/

/-- The number whose `n` parts of `w` bits are `f 0`, …, `f (n-1)`, part `j` at bits `w*j + w - 1` down to `w*j`. -/
def ofParts {w : Nat} (f : Nat → BitVec w) : Nat → Nat
  | 0 => 0
  | n + 1 => ofParts f n + (f n).toNat <<< (w * n)

/-! ### The store, byte by byte -/

/-- What a byte that no cell lists reads as: SINIT makes every bit of a new store zero (41_bitstore.md R120), and no store
exists before SINIT or SRAND (10_state.md R37). -/
def Memory.unlisted : Byte := 0#8

/-- The canonical form: byte indices strictly rising, no cell with the unlisted value. -/
abbrev Memory.wf (m : Memory) : Prop :=
  m.Pairwise (fun x y => x.1 < y.1) ∧ ∀ x ∈ m, x.2 ≠ Memory.unlisted

/-- Byte `a` of the store (20_memory.md R52). -/
def Memory.byteAt : Memory → Nat → Byte
  | [], _ => Memory.unlisted
  | (b, v) :: rest, a => if b = a then v else Memory.byteAt rest a

/-- Put the cell `(a, v)` in its place. -/
def Memory.insert : Memory → Nat → Byte → Memory
  | [], a, v => [(a, v)]
  | (b, w) :: rest, a, v =>
    if a < b then (a, v) :: (b, w) :: rest
    else if a = b then (a, v) :: rest
    else (b, w) :: Memory.insert rest a v

/-- Write byte `a` of the store, keeping the canonical form. -/
def Memory.setByte (m : Memory) (a : Nat) (v : Byte) : Memory :=
  if v = Memory.unlisted then m.filter (fun x => x.1 != a) else Memory.insert m a v

/-- Write the `n` bytes from `a` on: byte `a + i` takes `f i`. -/
def Memory.writeBytes (m : Memory) (a : Nat) (f : Nat → Byte) : Nat → Memory
  | 0 => m
  | n + 1 => Memory.setByte (Memory.writeBytes m a f n) (a + n) (f n)

/-! ### The store at its other widths (20_memory.md R51, R55) -/

/-- `Bit(k)`: bit `k mod 8` of byte `k div 8` (20_memory.md R51, R52). -/
def Memory.bitAt (m : Memory) (k : Nat) : Bool := (Memory.byteAt m (k / 8)).getLsbD (k % 8)

/-- The byte `v` with its bit `i` set to `x`. -/
def byteWithBit (v : Byte) (i : Nat) (x : Bool) : Byte :=
  if x then v ||| BitVec.twoPow 8 i else v &&& ~~~(BitVec.twoPow 8 i)

/-- `Bit(k) <- x`; the other bits of the store keep their values (00_scope.md R8). -/
def Memory.setBit (m : Memory) (k : Nat) (x : Bool) : Memory :=
  Memory.setByte m (k / 8) (byteWithBit (Memory.byteAt m (k / 8)) (k % 8) x)

/-- `Granule(g)`: bytes `8g` to `8g + 7`, the first least significant (20_memory.md R51, R52). -/
def Memory.granule (m : Memory) (g : Nat) : Scalar :=
  BitVec.ofNat 64 (ofParts (fun i => Memory.byteAt m (8 * g + i)) 8)

/-- `MemWrite(64*g, 64, v)` (00_scope.md R8). -/
def Memory.setGranule (m : Memory) (g : Nat) (v : Scalar) : Memory :=
  Memory.writeBytes m (8 * g) (fun i => v.extractLsb' (8 * i) 8) 8

/-- `M[j]`: bytes `32j` to `32j + 31`, the first least significant (20_memory.md R51, R52). -/
def Memory.vec (m : Memory) (j : Nat) : Vec :=
  BitVec.ofNat 256 (ofParts (fun i => Memory.byteAt m (32 * j + i)) 32)

/-- `M[j] <- w` (00_scope.md R8). -/
def Memory.setVec (m : Memory) (j : Nat) (w : Vec) : Memory :=
  Memory.writeBytes m (32 * j) (fun i => w.extractLsb' (8 * i) 8) 32

/-! ### Whole regions of the store

A region is `c` vectors from a base vector on, so the bytes `32 * base` up to `32 * (base + c)`. A byte that no cell
lists is zero, so these operations look at the listed cells only. -/

/-- Byte `a` lies in the region of `c` vectors at vector `base`. -/
def inRegion (base c a : Nat) : Bool := decide (32 * base ≤ a) && decide (a < 32 * (base + c))

/-- The regions of `c` vectors at `a` and at `b` hold the same bits: a listed byte of either has its equal in the other
(41_bitstore.md R128). -/
def Memory.regionsEqual (m : Memory) (a b c : Nat) : Bool :=
  m.all fun x =>
    (!inRegion a c x.1 || Memory.byteAt m x.1 == Memory.byteAt m (32 * b + (x.1 - 32 * a))) &&
    (!inRegion b c x.1 || Memory.byteAt m x.1 == Memory.byteAt m (32 * a + (x.1 - 32 * b)))

/-- Some bit of the region of `c` vectors at `b` is one (43_lane_arithmetic.md R155). -/
def Memory.regionNonzero (m : Memory) (b c : Nat) : Bool :=
  m.any fun x => inRegion b c x.1 && Memory.byteAt m x.1 != 0#8

/-- Exclusive-or the region of `c` vectors at `e` into that at `d`, from the old values of both
(43_lane_arithmetic.md R154). A zero byte of the source changes nothing. -/
def Memory.xorRegion (m : Memory) (d e c : Nat) : Memory :=
  (m.filter fun x => inRegion e c x.1).foldl (init := m) fun acc x =>
    let a := 32 * d + (x.1 - 32 * e)
    Memory.setByte acc a (Memory.byteAt m a ^^^ Memory.byteAt m x.1)

/-- The store of `n` granules filled from the RNG port, granule `g` taking the `g`-th word drawn, where `first` words
were drawn before (41_bitstore.md R121). -/
def Memory.ofDraws (first : Nat) : Nat → Memory
  | 0 => []
  | n + 1 => Memory.setGranule (Memory.ofDraws first n) n (Config.rng64 (first + n))

/-! ### Relocating bits (44_address_permutation.md R171) -/

/-- The indices of the bits of the store that are one. -/
def Memory.onesOf (m : Memory) : List Nat :=
  m.flatMap fun x => (List.range' (8 * x.1) 8).filter (Memory.bitAt m)

/-- The bit relocation that `move` induces: `new[move p] = old[p]` for every position `p`, "relocating values without
altering them" (44_address_permutation.md R171). `move` is a bijection in every command that uses this. -/
def Memory.relocate (move : Nat → Nat) (m : Memory) : Memory :=
  (Memory.onesOf m).foldl (init := []) fun acc p => Memory.setBit acc (move p) true

/-! ### Registers (10_state.md R20, R21, R23) -/

/-- Read of scalar register `r`; none is hard-wired (R20). -/
def State.readS (s : State) (r : SReg) : Scalar := s.sreg[r.num.toNat]'r.num.isLt

/-- Write of scalar register `r`. -/
def State.writeS (s : State) (r : SReg) (v : Scalar) : State := { s with sreg := s.sreg.set r.num.toNat v r.num.isLt }

/-- Read of vector register `r` (R21). -/
def State.readV (s : State) (r : VReg) : Vec := s.vreg[r.num.toNat]'r.num.isLt

/-- Write of vector register `r`. -/
def State.writeV (s : State) (r : VReg) (w : Vec) : State := { s with vreg := s.vreg.set r.num.toNat w r.num.isLt }

/-- Replace the contents of the store, its capacity unchanged. -/
def State.setStore (s : State) (m : Memory) : State := { s with store := m }

/-- The store becomes a new instance of `c` bits, the old one is gone (10_state.md R30, 41_bitstore.md R120). -/
def State.newStore (s : State) (c : Nat) (m : Memory) : State := { s with cap := BitVec.ofNat 64 c, store := m }

/-- `n` words of the RNG port have been drawn (log 1). -/
def State.drew (s : State) (n : Nat) : State := { s with draws := s.draws + n }

/-- `pc <- pc + 1`, the advance of every command but HALT that completes (10_state.md R23). -/
def State.advance (s : State) : State := { s with pc := s.pc + 1#32 }

/-- `STATE <- HALTED`, `pc` not advanced (40_control_scalar.md R110). -/
def State.halt (s : State) : State := { s with runState := .halted }

/-! ### Faults (60_exceptions.md) -/

/-- The code of a cause (60_exceptions.md R211). -/
def Cause.code : Cause → BitVec 3
  | .none => 0#3
  | .illegalCommand => 1#3
  | .storeRange => 2#3
  | .sizeContract => 3#3
  | .capacity => 4#3
  | .overlap => 5#3
  | .fetchRange => 6#3

/-- The encoding of the run state (10_state.md R26). -/
def RunState.code : RunState → BitVec 2
  | .idle => 0#2
  | .running => 1#2
  | .halted => 2#2
  | .faulted => 3#2

/-- Fault entry, `raise X(info)` (60_exceptions.md R212): `CAUSE`, `FINFO` and `FPC` are written, `STATE` becomes FAULTED,
`pc` is not advanced, and nothing else changes. -/
def State.raise (s : State) (c : Cause) (info : BitVec 64) : State :=
  { s with cause := c, finfo := info, fpc := s.pc, runState := .faulted }

/-- Reset (70_reset_and_hazards.md R240): every piece of state takes the value of 10_state.md R37, the command memory
and the constant `CAPMAX` stay. It is the only way out of FAULTED; no command returns from a fault (60_exceptions.md
R220). The RNG port is not state of the engine (10_state.md R36), so its words go on where they were (log 9). -/
def State.toReset (s : State) : State := { State.powerOn s.capMax s.program with draws := s.draws }

/-- `start` in IDLE or HALTED: `pc <- 0`, `STATE <- RUNNING`, all else kept (70_reset_and_hazards.md R246). -/
def State.toRunning (s : State) : State := { s with pc := 0#32, runState := .running }

/-! ### Fetch (10_state.md R34) -/

/-- `Fetch(pc)`, if `pc < PLEN`. -/
def State.fetch (s : State) : Option CmdWord := s.program[s.pc.toNat]?

/-- `FetchRange`: `FINFO = zext_64(pc)` (60_exceptions.md R218). -/
def State.raiseFetchRange (s : State) : State := s.raise .fetchRange (s.pc.setWidth 64)

/-- `IllegalCommand`: `FINFO = zext_64(word)` (60_exceptions.md R213). -/
def State.raiseIllegal (s : State) (w : CmdWord) : State := s.raise .illegalCommand (w.setWidth 64)

end Sys2Proof.Machine
end

