-- ==== Sys2Proof/Machine/Flags.lean ====
section
/-! DEFINITION. The engine has no flags, condition codes or predicate registers (10_state.md R24). What other machines
put in flags, the Boolean results, is written to a scalar register as 0 or 1 (41_bitstore.md R129). -/

namespace Sys2Proof.Machine

/-- A Boolean result as a register's value: 0 false, 1 true (41_bitstore.md R129). -/
def boolResult (x : Bool) : Scalar := if x then 1#64 else 0#64

/-- `bool(x)`: a Boolean operand is false when the register is 0, true for every other value (41_bitstore.md R129). -/
def boolOperand (x : Scalar) : Bool := x != 0#64

end Sys2Proof.Machine
end

