-- ==== Sys2Proof/Machine/Operands.lean ====
section
/-! DEFINITION. What the commands take from their operands: the range and size checks, all on unbounded naturals
(00_scope.md R7), the cuts of a vector into lanes (10_state.md R22), the immediates, and the moves of bit positions that
the permutation commands make. -/

namespace Sys2Proof.Machine

/-! ### Checks (20_memory.md R56) -/

/-- `CAPV = CAP div 256`, the capacity in vectors (10_state.md R30). -/
def State.capV (s : State) : Nat := s.cap.toNat / 256

/-- Bit index `k` is inside the store. -/
def State.hasBit (s : State) (k : Scalar) : Bool := decide (k.toNat < s.cap.toNat)

/-- Granule index `g` is inside the store. -/
def State.hasGranule (s : State) (g : Scalar) : Bool := decide (g.toNat < s.cap.toNat / 64)

/-- Vector index `j` is inside the store. -/
def State.hasVec (s : State) (j : Scalar) : Bool := decide (j.toNat < s.capV)

/-- The region of `count` vectors at `base` is inside the store: `base + count <= CAPV`. -/
def State.hasRegion (s : State) (base : Scalar) (count : Nat) : Bool := decide (base.toNat + count ≤ s.capV)

/-- The 256 rows at `base` with pitch `S` are inside the store: `base + 255*S + 1 <= CAPV`. -/
def State.hasBlock (s : State) (base pitch : Scalar) : Bool :=
  decide (base.toNat + 255 * pitch.toNat + 1 ≤ s.capV)

/-- The two regions of `c` vectors share some but not all vectors: `c > 0`, `d != e`, `d < e + c`, `e < d + c`
(43_lane_arithmetic.md R154). -/
def partlyOverlap (d e c : Nat) : Bool := decide (0 < c ∧ d ≠ e ∧ d < e + c ∧ e < d + c)

/-! ### Sizes -/

/-- `ceil256(x)`: the smallest multiple of 256 not below `x` (40_control_scalar.md R113). -/
def ceil256 (x : Nat) : Nat := 256 * ((x + 255) / 256)

/-- The greatest `n` whose square is at most `a`, digit by digit: `r` is what the digits above the lowest `i` give. -/
def rootFrom (a : Nat) : Nat → Nat → Nat
  | 0, r => r
  | i + 1, r => if (r + 2 ^ i) * (r + 2 ^ i) ≤ a then rootFrom a i (r + 2 ^ i) else rootFrom a i r

/-- The side `n` of a square region of `area` bits: `n*n = area` and `n mod 256 = 0` (45_transpose.md R192). An area is a
64-bit value, so a side has at most 32 bits. -/
def matrixSide (area : Nat) : Option Nat :=
  let n := rootFrom area 32 0
  if n * n = area ∧ n % 256 = 0 then some n else none

/-! ### Immediates (30_encoding.md R85) -/

/-- `imm16` at bits `16q+15 : 16q` of a zero value (40_control_scalar.md R111). -/
def quarterOnly (q : BitVec 2) (imm16 : BitVec 16) : Scalar := imm16.setWidth 64 <<< (16 * q.toNat)

/-- `old` with bits `16q+15 : 16q` replaced by `imm16` (40_control_scalar.md R112). -/
def quarterReplaced (old : Scalar) (q : BitVec 2) (imm16 : BitVec 16) : Scalar :=
  (old &&& ~~~(quarterOnly q 0xFFFF#16)) ||| quarterOnly q imm16

/-! ### Lanes (10_state.md R22, log 12) -/

/-- The `j`-th part of `w` bits of a vector. -/
def lane (w : Nat) (x : Vec) (j : Nat) : BitVec w := x.extractLsb' (w * j) w

/-- `popcount(v)`: the number of bits of `v` that are 1 (00_scope.md R6). -/
def popcount {w : Nat} (v : BitVec w) : Nat := ((List.range w).filter v.getLsbD).length

/-- The population count of each of the sixteen 16-bit lanes (43_lane_arithmetic.md R150). -/
def popcount16 (x : Vec) : Vec :=
  BitVec.ofNat 256 (ofParts (fun j => BitVec.ofNat 16 (popcount (lane 16 x j))) 16)

/-- `(a + b - c) mod 4` in each of the 128 lanes of 2 bits, with no carry or borrow between lanes: arithmetic of 2-bit
values is modulo 4 (43_lane_arithmetic.md R152). -/
def mod4Combine (a b c : Vec) : Vec :=
  BitVec.ofNat 256 (ofParts (fun t => lane 2 a t + lane 2 b t - lane 2 c t) 128)

/-- Element `i` of the Boolean sequence at vector base `b`: byte `32b + i` is not zero (42_packing.md R140). -/
def Memory.element (m : Memory) (b i : Nat) : Bool := Memory.byteAt m (32 * b + i) != 0#8

/-- The vector whose bit `i` is element `i` of the sequence at `b` (42_packing.md R141). -/
def Memory.packed (m : Memory) (b : Nat) : Vec :=
  BitVec.ofNat 256 (ofParts (fun i => BitVec.ofBool (Memory.element m b i)) 256)

/-- Write the bits of `w` as the sequence at `b`: byte `0x01` for one, `0x00` for zero (42_packing.md R142). -/
def Memory.unpacked (m : Memory) (b : Nat) (w : Vec) : Memory :=
  Memory.writeBytes m (32 * b) (fun i => if w.getLsbD i then 1#8 else 0#8) 256

/-! ### Moves of bit positions (44_address_permutation.md, 45_transpose.md) -/

/-- `π*(p)`: bit `i` of the 16-bit position `p` becomes bit `π i`. The rule writes the sum of the powers `2^π(i)` of the
set bits; `π` is a bijection, so they are distinct and their sum is their union (44_address_permutation.md R171). -/
def permuted (π : Nat → Nat) (p : Nat) : Nat :=
  (List.range 16).foldl (fun acc i => if p.testBit i then acc ||| 2 ^ π i else acc) 0

/-- `π_k`: the transposition of the index bits `k` and `8 + k` (44_address_permutation.md R172). -/
def levelSwap (k i : Nat) : Nat := if i = k then 8 + k else if i = 8 + k then k else i

/-- Row and column exchanged: position `256*i + j` goes to `256*j + i` (45_transpose.md R190). -/
def transposed (p : Nat) : Nat := 256 * (p % 256) + p / 256

/-- The store bit that a move `f` of the positions of one block takes bit `x` to: row `r` of the block is vector
`base + r * pitch`, position `p` is bit `p mod 256` of row `p div 256`; all other bits stay (44_address_permutation.md
R173, R176). -/
def blockMove (base pitch : Nat) (f : Nat → Nat) (x : Nat) : Nat :=
  let v := x / 256
  if base ≤ v ∧ (v - base) % pitch = 0 ∧ (v - base) / pitch < 256 then
    let p := f (256 * ((v - base) / pitch) + x % 256)
    256 * (base + p / 256 * pitch) + p % 256
  else x

/-- Where RBLK takes bit `x` of the store: row `i` of block `(bc, br)` becomes row `i` of block `(br, bc)`, whole vectors
unchanged, in a matrix of `side` by `side` blocks at vector `base` (45_transpose.md R192). Vector `base + row*side + br`
with `row = 256*bc + i` goes to vector `base + (256*br + i)*side + bc`. -/
def blockExchange (base side x : Nat) : Nat :=
  let v := x / 256
  if base ≤ v ∧ v < base + 256 * side * side then
    let row := (v - base) / side
    let br := (v - base) % side
    256 * (base + (256 * br + row % 256) * side + row / 256) + x % 256
  else x

/-- Where TMAT takes bit `x` of the store: element `(j, i)` of the `n` by `n` matrix at vector `base` becomes element
`(i, j)`; all other bits stay (45_transpose.md R193). -/
def matrixMove (base n x : Nat) : Nat :=
  if 256 * base ≤ x ∧ x < 256 * base + n * n then
    256 * base + (x - 256 * base) % n * n + (x - 256 * base) / n
  else x

end Sys2Proof.Machine
end

