-- ==== Sys2Proof/Machine/BitStore.lean ====
section
/-! DEFINITION. The bit-store commands SINIT, SRAND, GETB, SETB, GETW, SETW, VLD, VST, SEQ (41_bitstore.md). -/

namespace Sys2Proof.Machine

/-- SINIT: construct the store, zero-filled (41_bitstore.md R120). -/
def execSinit (rd ra : SReg) (s : State) : Host.Outcome State Fault Refusal :=
  let n := s.readS ra
  let c := ceil256 n.toNat
  if s.capMax.toNat < c then .next (s.raise .capacity n)
  else .next ((s.newStore c []).writeS rd (BitVec.ofNat 64 c)).advance

/-- SRAND: construct the store, filled from the RNG port, one word per granule in ascending order; the capacity is
checked before any draw (41_bitstore.md R121). -/
def execSrand (rd ra : SReg) (s : State) : Host.Outcome State Fault Refusal :=
  let n := s.readS ra
  let c := ceil256 n.toNat
  if s.capMax.toNat < c then .next (s.raise .capacity n)
  else .next (((s.newStore c (Memory.ofDraws s.draws (c / 64))).drew (c / 64)).writeS rd (BitVec.ofNat 64 c)).advance

/-- GETB: read one bit (41_bitstore.md R122). -/
def execGetb (rd ra : SReg) (s : State) : Host.Outcome State Fault Refusal :=
  let k := s.readS ra
  if s.hasBit k then .next (s.writeS rd (boolResult (Memory.bitAt s.store k.toNat))).advance
  else .next (s.raise .storeRange k)

/-- SETB: write one bit (41_bitstore.md R123). -/
def execSetb (ra rb : SReg) (s : State) : Host.Outcome State Fault Refusal :=
  let k := s.readS ra
  if s.hasBit k then .next (s.setStore (Memory.setBit s.store k.toNat (boolOperand (s.readS rb)))).advance
  else .next (s.raise .storeRange k)

/-- GETW: read one granule (41_bitstore.md R124). -/
def execGetw (rd ra : SReg) (s : State) : Host.Outcome State Fault Refusal :=
  let g := s.readS ra
  if s.hasGranule g then .next (s.writeS rd (Memory.granule s.store g.toNat)).advance
  else .next (s.raise .storeRange g)

/-- SETW: write one granule (41_bitstore.md R125). -/
def execSetw (ra rb : SReg) (s : State) : Host.Outcome State Fault Refusal :=
  let g := s.readS ra
  if s.hasGranule g then .next (s.setStore (Memory.setGranule s.store g.toNat (s.readS rb))).advance
  else .next (s.raise .storeRange g)

/-- VLD: load one vector of the store into a vector register (41_bitstore.md R126). -/
def execVld (vd : VReg) (ra : SReg) (s : State) : Host.Outcome State Fault Refusal :=
  let j := s.readS ra
  if s.hasVec j then .next (s.writeV vd (Memory.vec s.store j.toNat)).advance
  else .next (s.raise .storeRange j)

/-- VST: store a vector register into one vector of the store (41_bitstore.md R127). -/
def execVst (ra : SReg) (vb : VReg) (s : State) : Host.Outcome State Fault Refusal :=
  let j := s.readS ra
  if s.hasVec j then .next (s.setStore (Memory.setVec s.store j.toNat (s.readV vb))).advance
  else .next (s.raise .storeRange j)

/-- SEQ: bitwise equality of two regions of one length; the first-named region is checked first (41_bitstore.md
R128). -/
def execSeq (rd ra rb rc : SReg) (s : State) : Host.Outcome State Fault Refusal :=
  let a := s.readS ra
  let b := s.readS rb
  let c := (s.readS rc).toNat
  if !s.hasRegion a c then .next (s.raise .storeRange a)
  else if !s.hasRegion b c then .next (s.raise .storeRange b)
  else .next (s.writeS rd (boolResult (Memory.regionsEqual s.store a.toNat b.toNat c))).advance

end Sys2Proof.Machine
end

