-- ==== Sys2Proof/Machine/Control.lean ====
section
/-! DEFINITION. The control and scalar commands HALT, LI, LIK, CEIL256 (40_control_scalar.md). -/

namespace Sys2Proof.Machine

/-- HALT: end the run; `pc` stays at the HALT (40_control_scalar.md R110). -/
def execHalt (s : State) : Host.Outcome State Fault Refusal :=
  .next s.halt

/-- LI: a 16-bit immediate into one quarter of a cleared register (40_control_scalar.md R111). -/
def execLi (rd : SReg) (q : BitVec 2) (imm16 : BitVec 16) (s : State) : Host.Outcome State Fault Refusal :=
  .next (s.writeS rd (quarterOnly q imm16)).advance

/-- LIK: a 16-bit immediate into one quarter of a register, the rest kept (40_control_scalar.md R112). -/
def execLik (rd : SReg) (q : BitVec 2) (imm16 : BitVec 16) (s : State) : Host.Outcome State Fault Refusal :=
  .next (s.writeS rd (quarterReplaced (s.readS rd) q imm16)).advance

/-- CEIL256: round up to a multiple of 256; `Capacity` when the result does not fit 64 bits (40_control_scalar.md
R113). -/
def execCeil256 (rd ra : SReg) (s : State) : Host.Outcome State Fault Refusal :=
  let x := s.readS ra
  let r := ceil256 x.toNat
  if 2 ^ 64 ≤ r then .next (s.raise .capacity x)
  else .next (s.writeS rd (BitVec.ofNat 64 r)).advance

end Sys2Proof.Machine
end

