-- ==== Sys2Proof/Machine/LaneArith.lean ====
section
/-! DEFINITION. The lane arithmetic commands POPC16, POPSUM, MOD4, XORM, ANYNZ (43_lane_arithmetic.md). -/

namespace Sys2Proof.Machine

/-- POPC16: population count of each 16-bit lane (43_lane_arithmetic.md R150). -/
def execPopc16 (vd va : VReg) (s : State) : Host.Outcome State Fault Refusal :=
  .next (s.writeV vd (popcount16 (s.readV va))).advance

/-- POPSUM: population count of all 256 bits (43_lane_arithmetic.md R151). -/
def execPopsum (rd : SReg) (va : VReg) (s : State) : Host.Outcome State Fault Refusal :=
  .next (s.writeS rd (BitVec.ofNat 64 (popcount (s.readV va)))).advance

/-- MOD4: modulo-4 add and subtract on 128 lanes of 2 bits (43_lane_arithmetic.md R152). -/
def execMod4 (vd va vb vc : VReg) (s : State) : Host.Outcome State Fault Refusal :=
  .next (s.writeV vd (mod4Combine (s.readV va) (s.readV vb) (s.readV vc))).advance

/-- XORM: exclusive-or the region at `s[rb]` into the region at `s[ra]`, both of `s[rc]` vectors; destination range,
source range, partial overlap are checked in this order (43_lane_arithmetic.md R154). -/
def execXorm (ra rb rc : SReg) (s : State) : Host.Outcome State Fault Refusal :=
  let d := s.readS ra
  let e := s.readS rb
  let c := (s.readS rc).toNat
  if !s.hasRegion d c then .next (s.raise .storeRange d)
  else if !s.hasRegion e c then .next (s.raise .storeRange e)
  else if partlyOverlap d.toNat e.toNat c then .next (s.raise .overlap e)
  else .next (s.setStore (Memory.xorRegion s.store d.toNat e.toNat c)).advance

/-- ANYNZ: is any bit of the region one; the range check covers the whole region (43_lane_arithmetic.md R155). -/
def execAnynz (rd ra rb : SReg) (s : State) : Host.Outcome State Fault Refusal :=
  let b := s.readS ra
  let c := (s.readS rb).toNat
  if s.hasRegion b c then .next (s.writeS rd (boolResult (Memory.regionNonzero s.store b.toNat c))).advance
  else .next (s.raise .storeRange b)

end Sys2Proof.Machine
end

