-- ==== Sys2Proof/Machine/Packing.lean ====
section
/-! DEFINITION. The packing commands PACK and UNPACK (42_packing.md). -/

namespace Sys2Proof.Machine

/-- PACK: the Boolean sequence of 256 bytes at vector base `s[ra]` into a vector register; the length is checked before
the range (42_packing.md R141, 60_exceptions.md R219). -/
def execPack (vd : VReg) (ra rb : SReg) (s : State) : Host.Outcome State Fault Refusal :=
  let b := s.readS ra
  let len := s.readS rb
  if len.toNat ≠ 256 then .next (s.raise .sizeContract len)
  else if !s.hasRegion b 8 then .next (s.raise .storeRange b)
  else .next (s.writeV vd (Memory.packed s.store b.toNat)).advance

/-- UNPACK: a vector register into the Boolean sequence of 256 bytes at vector base `s[ra]` (42_packing.md R142). -/
def execUnpack (ra : SReg) (vb : VReg) (s : State) : Host.Outcome State Fault Refusal :=
  let b := s.readS ra
  if s.hasRegion b 8 then .next (s.setStore (Memory.unpacked s.store b.toNat (s.readV vb))).advance
  else .next (s.raise .storeRange b)

end Sys2Proof.Machine
end

