-- ==== Sys2Proof/Machine/Permute.lean ====
section
/-! DEFINITION. The address-bit permutation primitives SWAPK and SWAPS (44_address_permutation.md). -/

namespace Sys2Proof.Machine

/-- SWAPK: the level-`k` primitive on the 256 consecutive vectors at `s[ra]` (44_address_permutation.md R173). -/
def execSwapk (ra : SReg) (k : BitVec 3) (s : State) : Host.Outcome State Fault Refusal :=
  let b := s.readS ra
  if s.hasRegion b 256 then
    .next (s.setStore (Memory.relocate (blockMove b.toNat 1 (permuted (levelSwap k.toNat))) s.store)).advance
  else .next (s.raise .storeRange b)

/-- SWAPS: the level-`k` primitive on the 256 vectors at `s[ra]` with pitch `s[rb]`; a zero pitch breaks the size
contract and is checked first (44_address_permutation.md R176). -/
def execSwaps (ra rb : SReg) (k : BitVec 3) (s : State) : Host.Outcome State Fault Refusal :=
  let b := s.readS ra
  let pitch := s.readS rb
  if pitch = 0#64 then .next (s.raise .sizeContract 0#64)
  else if !s.hasBlock b pitch then .next (s.raise .storeRange b)
  else
    .next (s.setStore
      (Memory.relocate (blockMove b.toNat pitch.toNat (permuted (levelSwap k.toNat))) s.store)).advance

end Sys2Proof.Machine
end

