-- ==== Sys2Proof/Machine/Transpose.lean ====
section
/-! DEFINITION. The transpose commands TBLK, TBLKS, RBLK, TMAT (45_transpose.md). -/

namespace Sys2Proof.Machine

/-- TBLK: transpose the block of 256 consecutive vectors at `s[ra]` (45_transpose.md R190). -/
def execTblk (ra : SReg) (s : State) : Host.Outcome State Fault Refusal :=
  let b := s.readS ra
  if s.hasRegion b 256 then .next (s.setStore (Memory.relocate (blockMove b.toNat 1 transposed) s.store)).advance
  else .next (s.raise .storeRange b)

/-- TBLKS: transpose the block of 256 vectors at `s[ra]` with pitch `s[rb]` (45_transpose.md R191). -/
def execTblks (ra rb : SReg) (s : State) : Host.Outcome State Fault Refusal :=
  let b := s.readS ra
  let pitch := s.readS rb
  if pitch = 0#64 then .next (s.raise .sizeContract 0#64)
  else if !s.hasBlock b pitch then .next (s.raise .storeRange b)
  else .next (s.setStore (Memory.relocate (blockMove b.toNat pitch.toNat transposed) s.store)).advance

/-- RBLK: exchange blocks across the block diagonal of the square region of `s[rb]` bits at vector `s[ra]`
(45_transpose.md R192). -/
def execRblk (ra rb : SReg) (s : State) : Host.Outcome State Fault Refusal :=
  let b := s.readS ra
  let area := s.readS rb
  match matrixSide area.toNat with
  | none => .next (s.raise .sizeContract area)
  | some n =>
    if s.hasRegion b (area.toNat / 256) then
      .next (s.setStore (Memory.relocate (blockExchange b.toNat (n / 256)) s.store)).advance
    else .next (s.raise .storeRange b)

/-- TMAT: transpose the `s[rb]` by `s[rb]` bit matrix at vector `s[ra]` in place; a side that is no multiple of 256 fails
fast, before any bit is touched (45_transpose.md R193). -/
def execTmat (ra rb : SReg) (s : State) : Host.Outcome State Fault Refusal :=
  let b := s.readS ra
  let n := s.readS rb
  if n.toNat % 256 ≠ 0 then .next (s.raise .sizeContract n)
  else if !s.hasRegion b (n.toNat * n.toNat / 256) then .next (s.raise .storeRange b)
  else .next (s.setStore (Memory.relocate (matrixMove b.toNat n.toNat) s.store)).advance

end Sys2Proof.Machine
end

