-- ==== Sys2Proof/Machine/Dispatch.lean ====
section
/-! DEFINITION. One arm per command (30_encoding.md R86), each a call of its meaning. -/

namespace Sys2Proof.Machine

/-- Execute one command: its checks, then its effect (70_reset_and_hazards.md R242). -/
def exec (i : Instr) (s : State) : Host.Outcome State Fault Refusal :=
  match i with
  | .halt => Sys2Proof.Machine.execHalt s
  | .li rd q imm16 => Sys2Proof.Machine.execLi rd q imm16 s
  | .lik rd q imm16 => Sys2Proof.Machine.execLik rd q imm16 s
  | .ceil256 rd ra => Sys2Proof.Machine.execCeil256 rd ra s
  | .sinit rd ra => Sys2Proof.Machine.execSinit rd ra s
  | .srand rd ra => Sys2Proof.Machine.execSrand rd ra s
  | .getb rd ra => Sys2Proof.Machine.execGetb rd ra s
  | .setb ra rb => Sys2Proof.Machine.execSetb ra rb s
  | .getw rd ra => Sys2Proof.Machine.execGetw rd ra s
  | .setw ra rb => Sys2Proof.Machine.execSetw ra rb s
  | .vld vd ra => Sys2Proof.Machine.execVld vd ra s
  | .vst ra vb => Sys2Proof.Machine.execVst ra vb s
  | .seq rd ra rb rc => Sys2Proof.Machine.execSeq rd ra rb rc s
  | .pack vd ra rb => Sys2Proof.Machine.execPack vd ra rb s
  | .unpack ra vb => Sys2Proof.Machine.execUnpack ra vb s
  | .popc16 vd va => Sys2Proof.Machine.execPopc16 vd va s
  | .popsum rd va => Sys2Proof.Machine.execPopsum rd va s
  | .mod4 vd va vb vc => Sys2Proof.Machine.execMod4 vd va vb vc s
  | .xorm ra rb rc => Sys2Proof.Machine.execXorm ra rb rc s
  | .anynz rd ra rb => Sys2Proof.Machine.execAnynz rd ra rb s
  | .swapk ra k => Sys2Proof.Machine.execSwapk ra k s
  | .swaps ra rb k => Sys2Proof.Machine.execSwaps ra rb k s
  | .tblk ra => Sys2Proof.Machine.execTblk ra s
  | .tblks ra rb => Sys2Proof.Machine.execTblks ra rb s
  | .rblk ra rb => Sys2Proof.Machine.execRblk ra rb s
  | .tmat ra rb => Sys2Proof.Machine.execTmat ra rb s

end Sys2Proof.Machine
end

