-- ==== Sys2Proof/Machine/Step.lean ====
section
/-! DEFINITION. One step of the engine (70_reset_and_hazards.md R242), and how the host's check places an instruction. -/

namespace Sys2Proof.Machine

/-- One step. In RUNNING: fetch, decode, execute, each with its fault (70_reset_and_hazards.md R242). In IDLE, HALTED and
FAULTED the engine does not fetch and all state is kept (60_exceptions.md R235; log 5). -/
def step (s : State) : Host.Outcome State Fault Refusal :=
  match s.runState with
  | .idle => .next s
  | .halted => .next s
  | .faulted => .next s
  | .running =>
    match s.fetch with
    | none => .next s.raiseFetchRange
    | some w =>
      match decode w with
      | .error _ => .next (s.raiseIllegal w)
      | .ok i => exec i s

/-- `s` with the command word `w` (its bits above `nbits` zero) at index `pc` of the command memory, which grows to hold
it, and the engine RUNNING, so that the next step fetches and runs exactly that word. It stands for the host's load and
`start` (70_reset_and_hazards.md R241; log 4). -/
def State.withFetchWord (s : State) (nbits w : Nat) : State :=
  let word : CmdWord := BitVec.ofNat 32 (w % 2 ^ nbits)
  let program :=
    if s.pc.toNat < s.program.length then s.program.set s.pc.toNat word
    else s.program ++ List.replicate (s.pc.toNat - s.program.length) 0#32 ++ [word]
  { s with program := program, runState := .running }

end Sys2Proof.Machine
end

