-- ==== Sys2Proof/Machine/Assembly.lean ====
section
/-! DEFINITION. The assembler syntax (30_encoding.md R90) and the pseudo-instructions (R91): from one line of text to the
commands it stands for, and from a command to its text. Text is a list of characters. What the rule leaves open of the
form of a line is log 13. -/

namespace Sys2Proof.Machine

/-! ### Pseudo-instructions (30_encoding.md R91) -/

/-- Quarter `q` of a 64-bit constant: `imm64[16q+15:16q]`. -/
def quarterOf (imm64 : Scalar) (q : Nat) : BitVec 16 := imm64.extractLsb' (16 * q) 16

/-- `LI rd, imm16` is `LI rd, 0, imm16`. -/
def pseudoLi (rd : SReg) (imm16 : BitVec 16) : List Instr := [.li rd 0#2 imm16]

/-- `LI64 rd, imm64`: one LI of the lowest quarter, then one LIK for each of the quarters 1, 2, 3, in that order, that is
not zero. -/
def pseudoLi64 (rd : SReg) (imm64 : Scalar) : List Instr :=
  .li rd 0#2 (quarterOf imm64 0) ::
    ([1, 2, 3].filter fun q => quarterOf imm64 q != 0#16).map fun q => .lik rd (BitVec.ofNat 2 q) (quarterOf imm64 q)

/-! ### From a command to its text (30_encoding.md R90) -/

/-- A number in decimal. -/
def decimal (n : Nat) : List Char := Nat.toDigits 10 n

/-- `s0` to `s15`. -/
def scalarText (r : SReg) : List Char := 's' :: decimal r.num.toNat

/-- `v0` to `v15`. -/
def vectorText (r : VReg) : List Char := 'v' :: decimal r.num.toNat

/-- The mnemonic, a blank, and the operands separated by a comma and a blank. -/
def lineText (mnemonic : String) (operands : List (List Char)) : List Char :=
  mnemonic.toList ++ (if operands.isEmpty then [] else ' ' :: List.flatten (operands.intersperse [',', ' ']))

/-- The text of a command. -/
def commandText : Instr → List Char
  | .halt => lineText "HALT" []
  | .li rd q imm => lineText "LI" [scalarText rd, decimal q.toNat, decimal imm.toNat]
  | .lik rd q imm => lineText "LIK" [scalarText rd, decimal q.toNat, decimal imm.toNat]
  | .ceil256 rd ra => lineText "CEIL256" [scalarText rd, scalarText ra]
  | .sinit rd ra => lineText "SINIT" [scalarText rd, scalarText ra]
  | .srand rd ra => lineText "SRAND" [scalarText rd, scalarText ra]
  | .getb rd ra => lineText "GETB" [scalarText rd, scalarText ra]
  | .setb ra rb => lineText "SETB" [scalarText ra, scalarText rb]
  | .getw rd ra => lineText "GETW" [scalarText rd, scalarText ra]
  | .setw ra rb => lineText "SETW" [scalarText ra, scalarText rb]
  | .vld vd ra => lineText "VLD" [vectorText vd, scalarText ra]
  | .vst ra vb => lineText "VST" [scalarText ra, vectorText vb]
  | .seq rd ra rb rc => lineText "SEQ" [scalarText rd, scalarText ra, scalarText rb, scalarText rc]
  | .pack vd ra rb => lineText "PACK" [vectorText vd, scalarText ra, scalarText rb]
  | .unpack ra vb => lineText "UNPACK" [scalarText ra, vectorText vb]
  | .popc16 vd va => lineText "POPC16" [vectorText vd, vectorText va]
  | .popsum rd va => lineText "POPSUM" [scalarText rd, vectorText va]
  | .mod4 vd va vb vc => lineText "MOD4" [vectorText vd, vectorText va, vectorText vb, vectorText vc]
  | .xorm ra rb rc => lineText "XORM" [scalarText ra, scalarText rb, scalarText rc]
  | .anynz rd ra rb => lineText "ANYNZ" [scalarText rd, scalarText ra, scalarText rb]
  | .swapk ra k => lineText "SWAPK" [scalarText ra, decimal k.toNat]
  | .swaps ra rb k => lineText "SWAPS" [scalarText ra, scalarText rb, decimal k.toNat]
  | .tblk ra => lineText "TBLK" [scalarText ra]
  | .tblks ra rb => lineText "TBLKS" [scalarText ra, scalarText rb]
  | .rblk ra rb => lineText "RBLK" [scalarText ra, scalarText rb]
  | .tmat ra rb => lineText "TMAT" [scalarText ra, scalarText rb]

/-! ### From a line of text to commands (30_encoding.md R90, R91) -/

/-- The value of a digit in decimal or hexadecimal. -/
def digitValue (c : Char) : Option Nat :=
  if '0' ≤ c ∧ c ≤ '9' then some (c.toNat - 48)
  else if 'a' ≤ c ∧ c ≤ 'f' then some (c.toNat - 87)
  else if 'A' ≤ c ∧ c ≤ 'F' then some (c.toNat - 55)
  else none

/-- Digits of a base, most significant first, onto the number `acc` read so far. -/
def digits (base : Nat) : Nat → List Char → Option Nat
  | acc, [] => some acc
  | acc, c :: rest =>
    match digitValue c with
    | none => none
    | some d => if d < base then digits base (acc * base + d) rest else none

/-- A number: decimal, or hexadecimal with the prefix `0x`. -/
def number : List Char → Option Nat
  | [] => none
  | '0' :: 'x' :: c :: rest => digits 16 0 (c :: rest)
  | cs => digits 10 0 cs

/-- A number below `2^w`. -/
def numberBelow (w : Nat) (cs : List Char) : Option (BitVec w) :=
  (number cs).bind fun n => if n < 2 ^ w then some (BitVec.ofNat w n) else none

/-- A register number 0 to 15 after the letter `prefixChar`, written as the decimal it is. -/
def registerNumber (prefixChar : Char) : List Char → Option (BitVec 4)
  | [] => none
  | c :: rest =>
    if c = prefixChar then (digits 10 0 rest).bind fun n => if n < 16 ∧ rest = decimal n then some (BitVec.ofNat 4 n) else none
    else none

def scalarOperand (cs : List Char) : Option SReg := (registerNumber 's' cs).map SReg.mk

def vectorOperand (cs : List Char) : Option VReg := (registerNumber 'v' cs).map VReg.mk

/-- Blanks and tabs. -/
def isBlank (c : Char) : Bool := c == ' ' || c == '\t'

/-- A text without its leading and trailing blanks. -/
def trimmed (cs : List Char) : List Char := ((cs.dropWhile isBlank).reverse.dropWhile isBlank).reverse

/-- The commands of a mnemonic with two scalar operands. -/
def twoScalars (f : SReg → SReg → Instr) : List (List Char) → Option (List Instr)
  | [a, b] => (scalarOperand a).bind fun a => (scalarOperand b).map fun b => [f a b]
  | _ => none

/-- The commands of a mnemonic with three scalar operands. -/
def threeScalars (f : SReg → SReg → SReg → Instr) : List (List Char) → Option (List Instr)
  | [a, b, c] => (scalarOperand a).bind fun a => (scalarOperand b).bind fun b => (scalarOperand c).map fun c => [f a b c]
  | _ => none

/-- The commands of LI and LIK with three operands. -/
def quarterLoad (f : SReg → BitVec 2 → BitVec 16 → Instr) : List (List Char) → Option (List Instr)
  | [a, q, i] => (scalarOperand a).bind fun a => (numberBelow 2 q).bind fun q => (numberBelow 16 i).map fun i => [f a q i]
  | _ => none

/-- What a mnemonic and its operand texts stand for. -/
def commandOf (mnemonic : List Char) (ops : List (List Char)) : Option (List Instr) :=
  if mnemonic = "HALT".toList then (if ops = [] then some [.halt] else none)
  else if mnemonic = "LI".toList then
    match ops with
    | [a, i] => (scalarOperand a).bind fun a => (numberBelow 16 i).map fun i => pseudoLi a i
    | _ => quarterLoad .li ops
  else if mnemonic = "LIK".toList then quarterLoad .lik ops
  else if mnemonic = "LI64".toList then
    match ops with
    | [a, i] => (scalarOperand a).bind fun a => (numberBelow 64 i).map fun i => pseudoLi64 a i
    | _ => none
  else if mnemonic = "CEIL256".toList then twoScalars .ceil256 ops
  else if mnemonic = "SINIT".toList then twoScalars .sinit ops
  else if mnemonic = "SRAND".toList then twoScalars .srand ops
  else if mnemonic = "GETB".toList then twoScalars .getb ops
  else if mnemonic = "SETB".toList then twoScalars .setb ops
  else if mnemonic = "GETW".toList then twoScalars .getw ops
  else if mnemonic = "SETW".toList then twoScalars .setw ops
  else if mnemonic = "VLD".toList then
    match ops with
    | [a, b] => (vectorOperand a).bind fun a => (scalarOperand b).map fun b => [.vld a b]
    | _ => none
  else if mnemonic = "VST".toList then
    match ops with
    | [a, b] => (scalarOperand a).bind fun a => (vectorOperand b).map fun b => [.vst a b]
    | _ => none
  else if mnemonic = "SEQ".toList then
    match ops with
    | [a, b, c, d] => (scalarOperand a).bind fun a => (scalarOperand b).bind fun b =>
        (scalarOperand c).bind fun c => (scalarOperand d).map fun d => [.seq a b c d]
    | _ => none
  else if mnemonic = "PACK".toList then
    match ops with
    | [a, b, c] => (vectorOperand a).bind fun a => (scalarOperand b).bind fun b =>
        (scalarOperand c).map fun c => [.pack a b c]
    | _ => none
  else if mnemonic = "UNPACK".toList then
    match ops with
    | [a, b] => (scalarOperand a).bind fun a => (vectorOperand b).map fun b => [.unpack a b]
    | _ => none
  else if mnemonic = "POPC16".toList then
    match ops with
    | [a, b] => (vectorOperand a).bind fun a => (vectorOperand b).map fun b => [.popc16 a b]
    | _ => none
  else if mnemonic = "POPSUM".toList then
    match ops with
    | [a, b] => (scalarOperand a).bind fun a => (vectorOperand b).map fun b => [.popsum a b]
    | _ => none
  else if mnemonic = "MOD4".toList then
    match ops with
    | [a, b, c, d] => (vectorOperand a).bind fun a => (vectorOperand b).bind fun b =>
        (vectorOperand c).bind fun c => (vectorOperand d).map fun d => [.mod4 a b c d]
    | _ => none
  else if mnemonic = "XORM".toList then threeScalars .xorm ops
  else if mnemonic = "ANYNZ".toList then threeScalars .anynz ops
  else if mnemonic = "SWAPK".toList then
    match ops with
    | [a, k] => (scalarOperand a).bind fun a => (numberBelow 3 k).map fun k => [.swapk a k]
    | _ => none
  else if mnemonic = "SWAPS".toList then
    match ops with
    | [a, b, k] => (scalarOperand a).bind fun a => (scalarOperand b).bind fun b =>
        (numberBelow 3 k).map fun k => [.swaps a b k]
    | _ => none
  else if mnemonic = "TBLK".toList then
    match ops with
    | [a] => (scalarOperand a).map fun a => [.tblk a]
    | _ => none
  else if mnemonic = "TBLKS".toList then twoScalars .tblks ops
  else if mnemonic = "RBLK".toList then twoScalars .rblk ops
  else if mnemonic = "TMAT".toList then twoScalars .tmat ops
  else none

/-- One line: what stands after a semicolon is a comment, an empty line is no command, operands are separated by
commas. -/
def assembleLine (line : List Char) : Option (List Instr) :=
  let code := trimmed (line.takeWhile (· != ';'))
  if code = [] then some []
  else
    let rest := trimmed (code.dropWhile fun c => !isBlank c)
    commandOf (code.takeWhile fun c => !isBlank c) (if rest = [] then [] else (rest.splitOn ',').map trimmed)

/-- A program text, one command per line, as the words of a command memory. -/
def assemble : List (List Char) → Option (List CmdWord)
  | [] => some []
  | line :: rest =>
    (assembleLine line).bind fun cs => (assemble rest).map fun ws => cs.map encode ++ ws

end Sys2Proof.Machine
end

