-- ==== Sys2Proof/Machine/Port.lean ====
section
/-! DEFINITION. The host port (70_reset_and_hazards.md R246): the host's moves, which land between steps, and what the
host can read. -/

namespace Sys2Proof.Machine

/-- A host operation that acts on the engine (70_reset_and_hazards.md R246). -/
inductive PortOp where
  | reset
  | start
  | writeS (r : SReg) (v : Scalar)
  | writeV (r : VReg) (w : Vec)
  | writeM (j : Nat) (w : Vec)
  | writeCommand (i : Nat) (w : CmdWord)
  | writeCsr (n : Nat) (v : BitVec 64)
  deriving DecidableEq, Repr

/-- The engine is RUNNING, so the host must not touch registers, store or command memory (20_memory.md R62). -/
def State.isRunning (s : State) : Bool := s.runState == .running

/-- One host operation. `start` has no effect in RUNNING and in FAULTED; a write in RUNNING is a move the host must not
make; a write that does not exist is refused whatever the state (70_reset_and_hazards.md R246; log 6). -/
def port (op : PortOp) (s : State) : Host.Outcome State Fault Refusal :=
  match op with
  | .reset => .next s.toReset
  | .start => if s.runState = .idle ∨ s.runState = .halted then .next s.toRunning else .next s
  | .writeS r v => if s.isRunning then .refused .hostMustNot else .next (s.writeS r v)
  | .writeV r w => if s.isRunning then .refused .hostMustNot else .next (s.writeV r w)
  | .writeM j w =>
    if s.capV ≤ j then .refused .hostCannot
    else if s.isRunning then .refused .hostMustNot
    else .next (s.setStore (Memory.setVec s.store j w))
  | .writeCommand i w =>
    if s.program.length ≤ i then .refused .hostCannot
    else if s.isRunning then .refused .hostMustNot
    else .next { s with program := s.program.set i w }
  | .writeCsr _ _ => .refused .hostCannot

/-- The control and status registers by number, bits above a register's width zero (10_state.md R25). -/
def State.csr (s : State) : Nat → Option (BitVec 64)
  | 0 => some (s.runState.code.setWidth 64)
  | 1 => some (s.pc.setWidth 64)
  | 2 => some (s.cause.code.setWidth 64)
  | 3 => some s.finfo
  | 4 => some (s.fpc.setWidth 64)
  | 5 => some s.cap
  | 6 => some s.capMax
  | 7 => some (Config.idr.setWidth 64)
  | _ => none

/-- The host reads CSR `n`: in RUNNING only `STATE` answers (70_reset_and_hazards.md R246; log 14). -/
def portReadCsr (s : State) (n : Nat) : Option (BitVec 64) := if s.isRunning ∧ n ≠ 0 then none else s.csr n

/-- The host reads a scalar register, outside RUNNING (R246). -/
def portReadS (s : State) (r : SReg) : Option Scalar := if s.isRunning then none else some (s.readS r)

/-- The host reads a vector register, outside RUNNING (R246). -/
def portReadV (s : State) (r : VReg) : Option Vec := if s.isRunning then none else some (s.readV r)

/-- The host reads `M[j]` for `j < CAPV`, outside RUNNING (R246). -/
def portReadM (s : State) (j : Nat) : Option Vec :=
  if s.isRunning ∨ s.capV ≤ j then none else some (Memory.vec s.store j)

/-- The host reads command word `i < PLEN`, outside RUNNING (R246). -/
def portReadCommand (s : State) (i : Nat) : Option CmdWord := if s.isRunning then none else s.program[i]?

/-- The level output `done` (60_exceptions.md R221). -/
def State.doneLine (s : State) : Bool := s.runState == .halted

/-- The level output `fault` (60_exceptions.md R221). -/
def State.faultLine (s : State) : Bool := s.runState == .faulted

end Sys2Proof.Machine
end

