-- ==== Sys2Proof/Safety.lean ====
section
/-! DEFINITION. The terms in which claims about the engine are stated: what a run that ended is, what a command may change
(its frame), what taking a fault changes, the invariant of the engine, and the states it can reach. -/

namespace Sys2Proof.Machine

/-! ### The end of a run (70_reset_and_hazards.md R242) -/

/-- The run ended well. -/
def State.endedWell (s : State) : Prop := s.runState = .halted

/-- The run ended badly. -/
def State.endedBadly (s : State) : Prop := s.runState = .faulted

/-- The run is over. -/
def State.ended (s : State) : Prop := s.endedWell ∨ s.endedBadly

/-! ### Frames -/

/-- The registers that no command but a fault, HALT, SINIT or SRAND writes are the same in both states, and so are the
constants, the command memory and the count of draws. -/
structure SameControl (s t : State) : Prop where
  runState : t.runState = s.runState
  cause : t.cause = s.cause
  finfo : t.finfo = s.finfo
  fpc : t.fpc = s.fpc
  cap : t.cap = s.cap
  capMax : t.capMax = s.capMax
  program : t.program = s.program
  draws : t.draws = s.draws

/-- Every byte of the store reads the same in both states. -/
def SameStore (s t : State) : Prop := ∀ a, Memory.byteAt t.store a = Memory.byteAt s.store a

/-- Every scalar register reads the same in both states. -/
def SameScalars (s t : State) : Prop := ∀ r, t.readS r = s.readS r

/-- Every vector register reads the same in both states. -/
def SameVectors (s t : State) : Prop := ∀ r, t.readV r = s.readV r

/-- A command completed whose one effect is that scalar register `rd` took the value `v`. -/
structure WroteScalar (rd : SReg) (v : Scalar) (s t : State) : Prop where
  value : t.readS rd = v
  scalars : ∀ r, r ≠ rd → t.readS r = s.readS r
  vectors : SameVectors s t
  store : SameStore s t
  pc : t.pc = s.pc + 1#32
  control : SameControl s t

/-- A command completed whose one effect is that vector register `vd` took the value `w`. -/
structure WroteVector (vd : VReg) (w : Vec) (s t : State) : Prop where
  value : t.readV vd = w
  vectors : ∀ r, r ≠ vd → t.readV r = s.readV r
  scalars : SameScalars s t
  store : SameStore s t
  pc : t.pc = s.pc + 1#32
  control : SameControl s t

/-- A command completed that wrote no register and no byte of the store but those that `touched` holds of. -/
structure WroteStore (touched : Nat → Prop) (s t : State) : Prop where
  scalars : SameScalars s t
  vectors : SameVectors s t
  outside : ∀ a, ¬ touched a → Memory.byteAt t.store a = Memory.byteAt s.store a
  pc : t.pc = s.pc + 1#32
  control : SameControl s t

/-- The bytes of the `c` vectors from vector `base` on. -/
def RegionBytes (base c : Nat) (a : Nat) : Prop := 32 * base ≤ a ∧ a < 32 * (base + c)

/-- The bytes of the 256 rows of a block at vector `base` with pitch `pitch`. -/
def BlockBytes (base pitch : Nat) (a : Nat) : Prop := ∃ r < 256, a / 32 = base + r * pitch

/-- Fault entry with cause `c` and recorded value `info`, and nothing else (60_exceptions.md R212). -/
structure TookFault (c : Cause) (info : BitVec 64) (s t : State) : Prop where
  cause : t.cause = c
  finfo : t.finfo = info
  fpc : t.fpc = s.pc
  runState : t.runState = .faulted
  pc : t.pc = s.pc
  scalars : SameScalars s t
  vectors : SameVectors s t
  store : SameStore s t
  cap : t.cap = s.cap
  capMax : t.capMax = s.capMax
  program : t.program = s.program
  draws : t.draws = s.draws

/-- What SINIT and SRAND have in common when they complete: the capacity and register `rd` take `c`, the old store is
gone, and no other register changes; what the new store holds is for each to say. -/
structure BuiltStore (rd : SReg) (c : Nat) (s t : State) : Prop where
  cap : t.cap.toNat = c
  value : (t.readS rd).toNat = c
  scalars : ∀ r, r ≠ rd → t.readS r = s.readS r
  vectors : SameVectors s t
  beyond : ∀ k, c ≤ k → Memory.bitAt t.store k = false
  pc : t.pc = s.pc + 1#32
  runState : t.runState = s.runState
  cause : t.cause = s.cause
  finfo : t.finfo = s.finfo
  fpc : t.fpc = s.fpc
  capMax : t.capMax = s.capMax
  program : t.program = s.program

/-! ### Command words and sequences -/

/-- `op<<24 | A<<20 | B<<16 | C<<12 | D<<8` as a number (30_encoding.md R86, format R). -/
def wordR (op : Nat) (a b c d : BitVec 4) : CmdWord :=
  BitVec.ofNat 32 (op * 2 ^ 24 + a.toNat * 2 ^ 20 + b.toNat * 2 ^ 16 + c.toNat * 2 ^ 12 + d.toNat * 2 ^ 8)

/-- `op<<24 | A<<20 | q<<16 | imm16` as a number (30_encoding.md R86, format I). -/
def wordI (op : Nat) (a : BitVec 4) (q : BitVec 2) (imm16 : BitVec 16) : CmdWord :=
  BitVec.ofNat 32 (op * 2 ^ 24 + a.toNat * 2 ^ 20 + q.toNat * 2 ^ 16 + imm16.toNat)

/-- The commands of a list, one after the other. -/
def execAll : List Instr → State → Host.Outcome State Fault Refusal
  | [], s => .next s
  | i :: rest, s =>
    match exec i s with
    | .next t => execAll rest t
    | .fault r => .fault r
    | .refused r => .refused r

/-- One command of the two-phase transpose of an `n` by `n` matrix at vector `base` (45_transpose.md R194): the TBLKS of
block `(br, bc)`, or the RBLK. -/
inductive Phase where
  | block (br bc : Nat)
  | exchange
  deriving DecidableEq, Repr

/-- The command of a phase, its operands placed in `s0` and `s1`: TBLKS at `base + 256*br*B + bc` with pitch `B`, or RBLK
at `base` with area `n*n`, where `B = n div 256` (45_transpose.md R194). -/
def execPhase (base n : Nat) (p : Phase) (s : State) : Host.Outcome State Fault Refusal :=
  match p with
  | .block br bc =>
    exec (.tblks ⟨0#4⟩ ⟨1#4⟩) ((s.writeS ⟨0#4⟩ (BitVec.ofNat 64 (base + 256 * br * (n / 256) + bc))).writeS ⟨1#4⟩
      (BitVec.ofNat 64 (n / 256)))
  | .exchange =>
    exec (.rblk ⟨0#4⟩ ⟨1#4⟩) ((s.writeS ⟨0#4⟩ (BitVec.ofNat 64 base)).writeS ⟨1#4⟩ (BitVec.ofNat 64 (n * n)))

/-- The phases of a list, one after the other. -/
def execPhases (base n : Nat) : List Phase → State → Host.Outcome State Fault Refusal
  | [], s => .next s
  | p :: rest, s =>
    match execPhase base n p s with
    | .next t => execPhases base n rest t
    | .fault r => .fault r
    | .refused r => .refused r

/-- TMAT with its operands placed in `s0` and `s1`. -/
def execTmatAt (base n : Nat) (s : State) : Host.Outcome State Fault Refusal :=
  exec (.tmat ⟨0#4⟩ ⟨1#4⟩) ((s.writeS ⟨0#4⟩ (BitVec.ofNat 64 base)).writeS ⟨1#4⟩ (BitVec.ofNat 64 n))

/-- The block phases of a matrix of `side` by `side` blocks. -/
def blockPhases (side : Nat) : List Phase :=
  (List.range side).flatMap fun br => (List.range side).map fun bc => .block br bc

/-- The level-`k` exchange on a position in the closed form of 44_address_permutation.md R172. -/
def levelExchange (k p : Nat) : Nat :=
  if p.testBit k = p.testBit (8 + k) then p else p ^^^ (2 ^ k + 2 ^ (8 + k))

/-- `m_k`: the columns whose bit `k` is 1 (44_address_permutation.md R177). -/
def levelMask (k : Nat) : Vec := BitVec.ofNat 256 (ofParts (fun c => BitVec.ofBool (c.testBit k)) 256)

/-- MOD4 as whole-register Boolean operations on two bit-planes (43_lane_arithmetic.md R153). -/
def mod4Planes (a b c : Vec) : Vec :=
  let low : Vec := 0x5555555555555555555555555555555555555555555555555555555555555555#256
  let a0 := a &&& low
  let a1 := (a >>> 1) &&& low
  let b0 := b &&& low
  let b1 := (b >>> 1) &&& low
  let c0 := c &&& low
  let c1 := (c >>> 1) &&& low
  let s0 := a0 ^^^ b0
  let s1 := a1 ^^^ b1 ^^^ (a0 &&& b0)
  let d0 := s0 ^^^ c0
  let d1 := s1 ^^^ c1 ^^^ (~~~s0 &&& low &&& c0)
  d0 ||| (d1 <<< 1)

/-- The causes a command can raise (60_exceptions.md R211). -/
def causesOf : Instr → List Cause
  | .halt | .li _ _ _ | .lik _ _ _ | .popc16 _ _ | .popsum _ _ | .mod4 _ _ _ _ => []
  | .ceil256 _ _ | .sinit _ _ | .srand _ _ => [.capacity]
  | .getb _ _ | .setb _ _ | .getw _ _ | .setw _ _ | .vld _ _ | .vst _ _ | .seq _ _ _ _ | .unpack _ _
  | .anynz _ _ _ | .swapk _ _ | .tblk _ => [.storeRange]
  | .pack _ _ _ | .swaps _ _ _ | .tblks _ _ | .rblk _ _ | .tmat _ _ => [.sizeContract, .storeRange]
  | .xorm _ _ _ => [.storeRange, .overlap]

/-! ### The invariant -/

/-- What holds of every state the engine can be in. -/
structure State.Inv (s : State) : Prop where
  /-- The store is in its canonical form. -/
  storeWf : Memory.wf s.store
  /-- No byte beyond the capacity exists (10_state.md R33). -/
  storeInside : ∀ x ∈ s.store, 8 * x.1 < s.cap.toNat
  /-- `CAP` is a multiple of 256 (10_state.md R30). -/
  capAligned : s.cap.toNat % 256 = 0
  /-- `CAP <= CAPMAX` (10_state.md R30). -/
  capBounded : s.cap.toNat ≤ s.capMax.toNat
  /-- `CAPMAX` is a multiple of 256 (00_scope.md R5). -/
  capMaxAligned : s.capMax.toNat % 256 = 0
  /-- `PLEN <= 2^32 - 1` (00_scope.md R5). -/
  programShort : s.program.length < 2 ^ 32
  /-- `pc` never passes `PLEN` (10_state.md R23). -/
  pcBounded : s.pc.toNat ≤ s.program.length
  /-- A cause is recorded exactly in FAULTED (10_state.md R27). -/
  causeIffFaulted : s.cause ≠ .none ↔ s.runState = .faulted
  /-- `FPC` equals `PC` while FAULTED (10_state.md R29). -/
  fpcInFault : s.runState = .faulted → s.fpc = s.pc
  /-- `FINFO` and `FPC` are zero when no fault has been taken (10_state.md R28, R29). -/
  noFaultZero : s.runState ≠ .faulted → s.finfo = 0#64 ∧ s.fpc = 0#32

/-- The states an engine can reach from power-on, with any `CAPMAX` and any command memory of legal size, by its own steps
and by the host's operations in any order. -/
inductive Reachable : State → Prop where
  | powerOn (capMaxVectors : BitVec 56) (program : List CmdWord) (h : program.length < 2 ^ 32) :
      Reachable (State.powerOn (capMaxVectors ++ 0#8) program)
  | step {s t : State} : Reachable s → Sys2Proof.Machine.step s = .next t → Reachable t
  | port {s t : State} (op : PortOp) : Reachable s → Sys2Proof.Machine.port op s = .next t → Reachable t

end Sys2Proof.Machine
end

