-- ==== Sys2Proof/Certificates/Slice0/Obligations.lean ====
section
/-! DEFINITION. The statements for the provers. -/

open Sys2Proof Sys2Proof.Machine

/-! ### Encoding -/

/-- Decoding the encoding of a command gives it back, every operand at every value (30_encoding.md R81, R82, R86). -/
def Obligations.DecodeOfEncode : Prop :=
  ∀ i : Instr, decode (encode i) = .ok i

/-- A legal word is the encoding of the command it decodes to: no two words decode to one command. -/
def Obligations.EncodeOfDecode : Prop :=
  ∀ (w : CmdWord) (i : Instr), decode w = .ok i → encode i = w

/-- 30_encoding.md R87: there are 26 rows, no word matches two of them, a word that matches a row is that row's command, and
a word that matches none is rejected. -/
def Obligations.OpcodeMapUnambiguous : Prop :=
  opRows.length = 26 ∧
  opRows.Pairwise (fun r r' => ∀ w : CmdWord, ¬ (w &&& r.mask = r.val ∧ w &&& r'.mask = r'.val)) ∧
  (∀ r ∈ opRows, ∀ w : CmdWord, w &&& r.mask = r.val → decode w = .ok (r.build w)) ∧
  (∀ w : CmdWord, (∀ r ∈ opRows, w &&& r.mask ≠ r.val) → ∃ e, decode w = .error e)

/-- 30_encoding.md R88 with 60_exceptions.md R213: a word that one of the five clauses makes illegal raises
`IllegalCommand` with the word recorded and no other effect; every other word decodes. -/
def Obligations.IllegalWordsFault : Prop :=
  ∀ (s : State) (w : CmdWord), s.runState = .running → s.program[s.pc.toNat]? = some w →
    (WellFormed.word w = false →
      ∃ t, step s = .next t ∧ TookFault .illegalCommand (BitVec.ofNat 64 w.toNat) s t) ∧
    (WellFormed.word w = true → ∃ i, decode w = .ok i)

/-- All fourteen worked encodings of 30_encoding.md section 6, and its seven illegal words with the clause of R88 that makes
each so; the names of the rejections are the model's own (log 16). -/
def Obligations.WorkedEncodingsDecode : Prop :=
  decode 0x01000000#32 = .ok .halt ∧
  decode 0x0210012C#32 = .ok (.li ⟨1#4⟩ 0#2 300#16) ∧
  decode 0x0213FFFF#32 = .ok (.li ⟨1#4⟩ 3#2 0xFFFF#16) ∧
  decode 0x03121234#32 = .ok (.lik ⟨1#4⟩ 2#2 0x1234#16) ∧
  decode 0x04980000#32 = .ok (.ceil256 ⟨9#4⟩ ⟨8#4⟩) ∧
  decode 0x10210000#32 = .ok (.sinit ⟨2#4⟩ ⟨1#4⟩) ∧
  decode 0x13340000#32 = .ok (.setb ⟨3#4⟩ ⟨4#4⟩) ∧
  decode 0x18A45500#32 = .ok (.seq ⟨10#4⟩ ⟨4#4⟩ ⟨5#4⟩ ⟨5#4⟩) ∧
  decode 0x20145000#32 = .ok (.pack ⟨1#4⟩ ⟨4#4⟩ ⟨5#4⟩) ∧
  decode 0x2A311200#32 = .ok (.mod4 ⟨3#4⟩ ⟨1#4⟩ ⟨1#4⟩ ⟨2#4⟩) ∧
  decode 0x30477000#32 = .ok (.xorm ⟨4#4⟩ ⟨7#4⟩ ⟨7#4⟩) ∧
  decode 0x40500700#32 = .ok (.swapk ⟨5#4⟩ 7#3) ∧
  decode 0x41230400#32 = .ok (.swaps ⟨2#4⟩ ⟨3#4⟩ 4#3) ∧
  decode 0x4B450000#32 = .ok (.tmat ⟨4#4⟩ ⟨5#4⟩) ∧
  decode 0x00000000#32 = .error .unassignedOp ∧
  decode 0xFFFFFFFF#32 = .error .unassignedOp ∧
  decode 0x05000000#32 = .error .unassignedOp ∧
  decode 0x01000001#32 = .error .nonzeroZ ∧
  decode 0x48410000#32 = .error .nonzeroUnusedField ∧
  decode 0x02140000#32 = .error .nonzeroY ∧
  decode 0x40500800#32 = .error .levelAbove7

/-- 30_encoding.md R91: `LI64 rd, imm64` is one LI of the lowest quarter and one LIK for each of the quarters 1, 2, 3, in that
order, that is not zero, so one to four commands; together they load the constant and change nothing else. `LI64 rd, 0`
is the single command `LI rd, 0, 0`, and `LI rd, imm16` is `LI rd, 0, imm16`. -/
def Obligations.WideLoadExpansion : Prop :=
  (∀ (rd : SReg) (imm64 : Scalar), pseudoLi64 rd imm64 =
    .li rd 0#2 (imm64.extractLsb' 0 16) ::
      ((if imm64.extractLsb' 16 16 = 0#16 then [] else [.lik rd 1#2 (imm64.extractLsb' 16 16)]) ++
       (if imm64.extractLsb' 32 16 = 0#16 then [] else [.lik rd 2#2 (imm64.extractLsb' 32 16)]) ++
       (if imm64.extractLsb' 48 16 = 0#16 then [] else [.lik rd 3#2 (imm64.extractLsb' 48 16)]))) ∧
  (∀ (rd : SReg) (imm64 : Scalar) (s : State), ∃ t,
    execAll (pseudoLi64 rd imm64) s = .next t ∧
    t.readS rd = imm64 ∧ (∀ r, r ≠ rd → t.readS r = s.readS r) ∧ SameVectors s t ∧ SameStore s t ∧ SameControl s t ∧
    t.pc = s.pc + BitVec.ofNat 32 (pseudoLi64 rd imm64).length ∧
    1 ≤ (pseudoLi64 rd imm64).length ∧ (pseudoLi64 rd imm64).length ≤ 4) ∧
  (∀ rd : SReg, pseudoLi64 rd 0#64 = [.li rd 0#2 0#16]) ∧
  (∀ (rd : SReg) (imm16 : BitVec 16), pseudoLi rd imm16 = [.li rd 0#2 imm16])

/-! ### The step -/

/-- A step in RUNNING runs the command that the word at `pc` decodes to (70_reset_and_hazards.md R242). -/
def Obligations.StepRunsTheDecodedCommand : Prop :=
  ∀ (s : State) (w : CmdWord) (i : Instr), s.runState = .running → s.program[s.pc.toNat]? = some w →
    decode w = .ok i → step s = exec i s

/-- 60_exceptions.md R218: a fetch at `pc >= PLEN` raises `FetchRange` with `pc` recorded in `FINFO` and `FPC`. -/
def Obligations.FetchPastTheEndFaults : Prop :=
  ∀ s : State, s.runState = .running → s.program.length ≤ s.pc.toNat →
    ∃ t, step s = .next t ∧ TookFault .fetchRange (BitVec.ofNat 64 s.pc.toNat) s t

/-- 60_exceptions.md R235: in IDLE, HALTED and FAULTED the engine does not fetch and all state is kept. That a step there
answers the unchanged state is how the model says so (log 5). -/
def Obligations.EngineRestsOutsideRunning : Prop :=
  ∀ s : State, s.runState = .idle ∨ s.runState = .halted ∨ s.runState = .faulted → step s = .next s

/-- How `pc` and `STATE` move (10_state.md R23, R26): every command answers a next state, in which it has completed and
`pc` is one more, or it was HALT, or it took a fault, and in the last two cases `pc` is unchanged. -/
def Obligations.PcAdvancesByOne : Prop :=
  ∀ (i : Instr) (s : State), ∃ t, exec i s = .next t ∧
    ((i ≠ .halt ∧ t.runState = s.runState ∧ t.cause = s.cause ∧ t.pc = s.pc + 1#32) ∨
     (i = .halt ∧ t.runState = .halted ∧ t.cause = s.cause ∧ t.pc = s.pc) ∨
     (i ≠ .halt ∧ t.runState = .faulted ∧ t.cause ∈ causesOf i ∧ t.pc = s.pc))

/-- Every run ends after at most `PLEN + 1` fetch attempts (40_control_scalar.md R114, 70_reset_and_hazards.md R242). -/
def Obligations.EveryRunEnds : Prop :=
  ∀ s : State, s.runState = .running → s.program.length < 2 ^ 32 →
    ∃ t, Host.Core.run core (s.program.length + 1) s = .next t ∧ t.ended

/-- A run of a well-formed command memory (legal words only, at most `2^32 - 1`, a HALT among them), started at index 0,
never raises `IllegalCommand` or `FetchRange`, however far it has come (30_encoding.md R88, 60_exceptions.md R218). -/
def Obligations.WellFormedProgramsFetchSafely : Prop :=
  ∀ (s : State) (n : Nat), s.runState = .running → s.pc = 0#32 → s.cause = .none →
    WellFormed.program s.program = true →
    ∃ t, Host.Core.run core n s = .next t ∧ t.cause ≠ .illegalCommand ∧ t.cause ≠ .fetchRange

/-! ### Faults -/

/-- 60_exceptions.md R212: when a step from RUNNING takes a fault, it writes `CAUSE`, `FINFO`, `FPC` and `STATE` and
nothing else; `pc` is not advanced. -/
def Obligations.FaultEntryIsPrecise : Prop :=
  ∀ s t : State, s.runState = .running → step s = .next t → t.runState = .faulted →
    TookFault t.cause t.finfo s t ∧ t.cause ≠ .none

/-- 60_exceptions.md R220: FAULTED is left by reset only: `start` leaves the state as it is, and no other operation of the
host that has an effect changes the fault registers. That a step there answers the unchanged state is read from R235
(log 5, DEDUCED), so the statement is derived. -/
def Obligations.FaultsAreSticky : Prop :=
  ∀ s : State, s.runState = .faulted →
    step s = .next s ∧ port .start s = .next s ∧
    (∀ op t, op ≠ .reset → port op s = .next t →
      t.runState = .faulted ∧ t.cause = s.cause ∧ t.finfo = s.finfo ∧ t.fpc = s.fpc ∧ t.pc = s.pc) ∧
    (∃ t, port .reset s = .next t ∧ t.runState = .idle ∧ t.cause = .none)

/-- 60_exceptions.md R210: no fault depends on the contents of the store or of a vector register (nor on the draws): two
engines that agree on the rest fault alike. -/
def Obligations.FaultsIgnoreStoreAndVectors : Prop :=
  ∀ (i : Instr) (s t : State) (m : Memory) (v : Vector Vec 16) (d : Nat), exec i s = .next t →
    ∃ t', exec i { s with store := m, vreg := v, draws := d } = .next t' ∧
      t'.runState = t.runState ∧ t'.cause = t.cause ∧ t'.finfo = t.finfo ∧ t'.fpc = t.fpc ∧ t'.pc = t.pc

/-- 10_state.md R30, R31, R34: no command writes `CAPMAX` or the command memory, and only SINIT and SRAND write `CAP`;
no operation of the host changes `CAPMAX`, only its reset changes `CAP`, and only its write of a command word changes
the command memory, never its length. -/
def Obligations.CapacityWritersAreFew : Prop :=
  (∀ (i : Instr) (s t : State), exec i s = .next t →
    t.capMax = s.capMax ∧ t.program = s.program ∧
    (t.cap ≠ s.cap → ∃ rd ra, i = .sinit rd ra ∨ i = .srand rd ra)) ∧
  (∀ (op : PortOp) (s t : State), port op s = .next t →
    t.capMax = s.capMax ∧ t.program.length = s.program.length ∧
    (t.cap ≠ s.cap → op = .reset) ∧ (t.program ≠ s.program → ∃ i w, op = .writeCommand i w))

/-- 00_scope.md R9: SRAND alone depends on the words of the RNG port: any other command does the same wherever the port
stands, and draws nothing. -/
def Obligations.OnlySrandDraws : Prop :=
  ∀ (i : Instr) (s t : State) (d : Nat), (∀ rd ra, i ≠ .srand rd ra) → exec i s = .next t →
    t.draws = s.draws ∧ exec i { s with draws := d } = .next { t with draws := d }

/-! ### Control and scalar commands -/

/-- 40_control_scalar.md R110. -/
def Obligations.HaltEndsTheRun : Prop :=
  ∀ s : State, decode (wordR 0x01 0 0 0 0) = .ok .halt ∧
    ∃ t, exec .halt s = .next t ∧ t.runState = .halted ∧ t.endedWell ∧ t.pc = s.pc ∧
      SameScalars s t ∧ SameVectors s t ∧ SameStore s t ∧ t.cap = s.cap ∧ t.capMax = s.capMax ∧
      t.cause = s.cause ∧ t.finfo = s.finfo ∧ t.fpc = s.fpc ∧ t.program = s.program ∧ t.draws = s.draws

/-- 40_control_scalar.md R111 and R112: LI loads one quarter of a cleared register, LIK replaces one quarter and keeps the
other 48 bits. -/
def Obligations.ImmediatesLoadOneQuarter : Prop :=
  ∀ (rd : SReg) (q : BitVec 2) (imm16 : BitVec 16) (s : State),
    decode (wordI 0x02 rd.num q imm16) = .ok (.li rd q imm16) ∧
    decode (wordI 0x03 rd.num q imm16) = .ok (.lik rd q imm16) ∧
    (∃ t v, exec (.li rd q imm16) s = .next t ∧ WroteScalar rd v s t ∧
      v.toNat = imm16.toNat * 2 ^ (16 * q.toNat)) ∧
    (∃ t v, exec (.lik rd q imm16) s = .next t ∧ WroteScalar rd v s t ∧
      ∀ i < 64, v.getLsbD i =
        if 16 * q.toNat ≤ i ∧ i < 16 * q.toNat + 16 then imm16.getLsbD (i - 16 * q.toNat)
        else (s.readS rd).getLsbD i)

/-- 40_control_scalar.md R113: the smallest multiple of 256 not below the operand, or `Capacity` when it does not fit 64
bits, which is when the operand is above `2^64 - 256`. -/
def Obligations.CeilRoundsUpOrFaults : Prop :=
  ∀ (rd ra : SReg) (s : State),
    decode (wordR 0x04 rd.num ra.num 0 0) = .ok (.ceil256 rd ra) ∧
    ((s.readS ra).toNat ≤ 2 ^ 64 - 256 →
      ∃ t v, exec (.ceil256 rd ra) s = .next t ∧ WroteScalar rd v s t ∧ v.toNat % 256 = 0 ∧
        (s.readS ra).toNat ≤ v.toNat ∧ ∀ m : Nat, m % 256 = 0 → (s.readS ra).toNat ≤ m → v.toNat ≤ m) ∧
    (2 ^ 64 - 256 < (s.readS ra).toNat →
      ∃ t, exec (.ceil256 rd ra) s = .next t ∧ TookFault .capacity (s.readS ra) s t)

/-! ### Bit-store commands -/

/-- 41_bitstore.md R120, 60_exceptions.md R216: SINIT makes a store of `ceil256(n)` zero bits, or faults and keeps the old
one when that is more than `CAPMAX`. -/
def Obligations.SinitConstructsZeroStore : Prop :=
  ∀ (rd ra : SReg) (s : State),
    decode (wordR 0x10 rd.num ra.num 0 0) = .ok (.sinit rd ra) ∧
    (256 * (((s.readS ra).toNat + 255) / 256) ≤ s.capMax.toNat →
      ∃ t, exec (.sinit rd ra) s = .next t ∧ BuiltStore rd (256 * (((s.readS ra).toNat + 255) / 256)) s t ∧
        (∀ j, Memory.vec t.store j = 0#256) ∧ t.draws = s.draws) ∧
    (s.capMax.toNat < 256 * (((s.readS ra).toNat + 255) / 256) →
      ∃ t, exec (.sinit rd ra) s = .next t ∧ TookFault .capacity (s.readS ra) s t)

/-- 41_bitstore.md R121: SRAND makes a store of `ceil256(n)` bits whose granule `g` is the `g`-th word drawn, or faults
before any draw. It holds for every sequence of draws: the words are the free values `Config.rng64`, from the count of
draws on (log 1). -/
def Obligations.SrandFillsFromThePort : Prop :=
  ∀ (rd ra : SReg) (s : State),
    decode (wordR 0x11 rd.num ra.num 0 0) = .ok (.srand rd ra) ∧
    (256 * (((s.readS ra).toNat + 255) / 256) ≤ s.capMax.toNat →
      ∃ t, exec (.srand rd ra) s = .next t ∧ BuiltStore rd (256 * (((s.readS ra).toNat + 255) / 256)) s t ∧
        (∀ g, 64 * g < 256 * (((s.readS ra).toNat + 255) / 256) →
          Memory.granule t.store g = Config.rng64 (s.draws + g)) ∧
        t.draws = s.draws + 256 * (((s.readS ra).toNat + 255) / 256) / 64) ∧
    (s.capMax.toNat < 256 * (((s.readS ra).toNat + 255) / 256) →
      ∃ t, exec (.srand rd ra) s = .next t ∧ TookFault .capacity (s.readS ra) s t)

/-- 41_bitstore.md R122. -/
def Obligations.GetbReadsOneBit : Prop :=
  ∀ (rd ra : SReg) (s : State),
    decode (wordR 0x12 rd.num ra.num 0 0) = .ok (.getb rd ra) ∧
    ((s.readS ra).toNat < s.cap.toNat →
      ∃ t, exec (.getb rd ra) s = .next t ∧
        WroteScalar rd (if Memory.bitAt s.store (s.readS ra).toNat then 1#64 else 0#64) s t) ∧
    (s.cap.toNat ≤ (s.readS ra).toNat →
      ∃ t, exec (.getb rd ra) s = .next t ∧ TookFault .storeRange (s.readS ra) s t)

/-- 41_bitstore.md R123 with R129: only `Bit(k)` changes; any non-zero operand writes 1. -/
def Obligations.SetbWritesOneBit : Prop :=
  ∀ (ra rb : SReg) (s : State),
    decode (wordR 0x13 ra.num rb.num 0 0) = .ok (.setb ra rb) ∧
    ((s.readS ra).toNat < s.cap.toNat →
      ∃ t, exec (.setb ra rb) s = .next t ∧ WroteStore (fun a => a = (s.readS ra).toNat / 8) s t ∧
        ∀ k, Memory.bitAt t.store k =
          if k = (s.readS ra).toNat then decide (s.readS rb ≠ 0#64) else Memory.bitAt s.store k) ∧
    (s.cap.toNat ≤ (s.readS ra).toNat →
      ∃ t, exec (.setb ra rb) s = .next t ∧ TookFault .storeRange (s.readS ra) s t)

/-- 41_bitstore.md R124: bit `t` of the result is `Bit(64g + t)`. -/
def Obligations.GetwReadsOneGranule : Prop :=
  ∀ (rd ra : SReg) (s : State),
    decode (wordR 0x14 rd.num ra.num 0 0) = .ok (.getw rd ra) ∧
    ((s.readS ra).toNat < s.cap.toNat / 64 →
      ∃ t v, exec (.getw rd ra) s = .next t ∧ WroteScalar rd v s t ∧
        ∀ i < 64, v.getLsbD i = Memory.bitAt s.store (64 * (s.readS ra).toNat + i)) ∧
    (s.cap.toNat / 64 ≤ (s.readS ra).toNat →
      ∃ t, exec (.getw rd ra) s = .next t ∧ TookFault .storeRange (s.readS ra) s t)

/-- 41_bitstore.md R125: the other three granules of the vector, and all other bytes, are unchanged. -/
def Obligations.SetwWritesOneGranule : Prop :=
  ∀ (ra rb : SReg) (s : State),
    decode (wordR 0x15 ra.num rb.num 0 0) = .ok (.setw ra rb) ∧
    ((s.readS ra).toNat < s.cap.toNat / 64 →
      ∃ t, exec (.setw ra rb) s = .next t ∧ WroteStore (fun a => a / 8 = (s.readS ra).toNat) s t ∧
        Memory.granule t.store (s.readS ra).toNat = s.readS rb) ∧
    (s.cap.toNat / 64 ≤ (s.readS ra).toNat →
      ∃ t, exec (.setw ra rb) s = .next t ∧ TookFault .storeRange (s.readS ra) s t)

/-- 41_bitstore.md R126: bit `t` of the register is `Bit(256j + t)`. -/
def Obligations.VldLoadsOneVector : Prop :=
  ∀ (vd : VReg) (ra : SReg) (s : State),
    decode (wordR 0x16 vd.num ra.num 0 0) = .ok (.vld vd ra) ∧
    ((s.readS ra).toNat < s.cap.toNat / 256 →
      ∃ t w, exec (.vld vd ra) s = .next t ∧ WroteVector vd w s t ∧
        ∀ i < 256, w.getLsbD i = Memory.bitAt s.store (256 * (s.readS ra).toNat + i)) ∧
    (s.cap.toNat / 256 ≤ (s.readS ra).toNat →
      ∃ t, exec (.vld vd ra) s = .next t ∧ TookFault .storeRange (s.readS ra) s t)

/-- 41_bitstore.md R127: the register keeps its value, and every other vector of the store is unchanged. -/
def Obligations.VstStoresOneVector : Prop :=
  ∀ (ra : SReg) (vb : VReg) (s : State),
    decode (wordR 0x17 ra.num vb.num 0 0) = .ok (.vst ra vb) ∧
    ((s.readS ra).toNat < s.cap.toNat / 256 →
      ∃ t, exec (.vst ra vb) s = .next t ∧ WroteStore (fun a => a / 32 = (s.readS ra).toNat) s t ∧
        Memory.vec t.store (s.readS ra).toNat = s.readV vb) ∧
    (s.cap.toNat / 256 ≤ (s.readS ra).toNat →
      ∃ t, exec (.vst ra vb) s = .next t ∧ TookFault .storeRange (s.readS ra) s t)

/-- 41_bitstore.md R128: 1 when the two regions agree vector by vector (so 1 for a count of 0), else 0; the region named
first is checked first. -/
def Obligations.SeqComparesTwoRegions : Prop :=
  ∀ (rd ra rb rc : SReg) (s : State),
    decode (wordR 0x18 rd.num ra.num rb.num rc.num) = .ok (.seq rd ra rb rc) ∧
    ((s.readS ra).toNat + (s.readS rc).toNat ≤ s.cap.toNat / 256 →
      (s.readS rb).toNat + (s.readS rc).toNat ≤ s.cap.toNat / 256 →
      ∃ t v, exec (.seq rd ra rb rc) s = .next t ∧ WroteScalar rd v s t ∧ (v = 1#64 ∨ v = 0#64) ∧
        (v = 1#64 ↔ ∀ i < (s.readS rc).toNat,
          Memory.vec s.store ((s.readS ra).toNat + i) = Memory.vec s.store ((s.readS rb).toNat + i))) ∧
    (s.cap.toNat / 256 < (s.readS ra).toNat + (s.readS rc).toNat →
      ∃ t, exec (.seq rd ra rb rc) s = .next t ∧ TookFault .storeRange (s.readS ra) s t) ∧
    ((s.readS ra).toNat + (s.readS rc).toNat ≤ s.cap.toNat / 256 →
      s.cap.toNat / 256 < (s.readS rb).toNat + (s.readS rc).toNat →
      ∃ t, exec (.seq rd ra rb rc) s = .next t ∧ TookFault .storeRange (s.readS rb) s t)

/-- 20_memory.md R51 and R52: bit, byte, granule and vector indices name the same storage, least significant first. -/
def Obligations.ViewsNameOneStorage : Prop :=
  ∀ (m : Memory) (g j b : Nat),
    (∀ i < 8, (Memory.byteAt m b).getLsbD i = Memory.bitAt m (8 * b + i)) ∧
    (∀ i < 64, (Memory.granule m g).getLsbD i = Memory.bitAt m (64 * g + i)) ∧
    (∀ i < 256, (Memory.vec m j).getLsbD i = Memory.bitAt m (256 * j + i)) ∧
    (∀ i < 8, (Memory.granule m g).extractLsb' (8 * i) 8 = Memory.byteAt m (8 * g + i)) ∧
    Memory.granule m g = (Memory.vec m (g / 4)).extractLsb' (64 * (g % 4)) 64 ∧
    Memory.vec m j = Memory.granule m (4 * j + 3) ++ Memory.granule m (4 * j + 2) ++ Memory.granule m (4 * j + 1) ++
      Memory.granule m (4 * j)

/-! ### Packing -/

/-- 42_packing.md R140 and R141: bit `i` of the vector is 1 exactly when byte `32*b + i` is not zero; a length other than
256 faults before the range is checked. -/
def Obligations.PackGathersBooleans : Prop :=
  ∀ (vd : VReg) (ra rb : SReg) (s : State),
    decode (wordR 0x20 vd.num ra.num rb.num 0) = .ok (.pack vd ra rb) ∧
    (s.readS rb = 256#64 → (s.readS ra).toNat + 8 ≤ s.cap.toNat / 256 →
      ∃ t w, exec (.pack vd ra rb) s = .next t ∧ WroteVector vd w s t ∧
        ∀ i < 256, w.getLsbD i = decide (Memory.byteAt s.store (32 * (s.readS ra).toNat + i) ≠ 0#8)) ∧
    (s.readS rb ≠ 256#64 → ∃ t, exec (.pack vd ra rb) s = .next t ∧ TookFault .sizeContract (s.readS rb) s t) ∧
    (s.readS rb = 256#64 → s.cap.toNat / 256 < (s.readS ra).toNat + 8 →
      ∃ t, exec (.pack vd ra rb) s = .next t ∧ TookFault .storeRange (s.readS ra) s t)

/-- 42_packing.md R140 and R142: byte `32*b + i` becomes `0x01` or `0x00` as bit `i` is 1 or 0. -/
def Obligations.UnpackSpreadsBits : Prop :=
  ∀ (ra : SReg) (vb : VReg) (s : State),
    decode (wordR 0x21 ra.num vb.num 0 0) = .ok (.unpack ra vb) ∧
    ((s.readS ra).toNat + 8 ≤ s.cap.toNat / 256 →
      ∃ t, exec (.unpack ra vb) s = .next t ∧ WroteStore (RegionBytes (s.readS ra).toNat 8) s t ∧
        ∀ i < 256, Memory.byteAt t.store (32 * (s.readS ra).toNat + i) =
          if (s.readV vb).getLsbD i then 0x01#8 else 0x00#8) ∧
    (s.cap.toNat / 256 < (s.readS ra).toNat + 8 →
      ∃ t, exec (.unpack ra vb) s = .next t ∧ TookFault .storeRange (s.readS ra) s t)

/-- 42_packing.md R143, both directions: PACK then UNPACK keeps every element, and every byte that was `0x00` or `0x01`;
UNPACK then PACK keeps the vector. -/
def Obligations.PackUnpackRoundTrip : Prop :=
  (∀ (vd : VReg) (ra rb rc : SReg) (s : State), s.readS rb = 256#64 →
    (s.readS ra).toNat + 8 ≤ s.cap.toNat / 256 → (s.readS rc).toNat + 8 ≤ s.cap.toNat / 256 →
    ∃ t, execAll [.pack vd ra rb, .unpack rc vd] s = .next t ∧ ∀ i < 256,
      (Memory.byteAt t.store (32 * (s.readS rc).toNat + i) ≠ 0#8 ↔
        Memory.byteAt s.store (32 * (s.readS ra).toNat + i) ≠ 0#8) ∧
      (Memory.byteAt s.store (32 * (s.readS ra).toNat + i) = 0x00#8 ∨
        Memory.byteAt s.store (32 * (s.readS ra).toNat + i) = 0x01#8 →
        Memory.byteAt t.store (32 * (s.readS rc).toNat + i) =
          Memory.byteAt s.store (32 * (s.readS ra).toNat + i))) ∧
  (∀ (vb vd : VReg) (ra rb : SReg) (s : State), s.readS rb = 256#64 →
    (s.readS ra).toNat + 8 ≤ s.cap.toNat / 256 →
    ∃ t, execAll [.unpack ra vb, .pack vd ra rb] s = .next t ∧ t.readV vd = s.readV vb)

/-! ### Lane arithmetic -/

/-- 43_lane_arithmetic.md R150: each 16-bit lane of the result is the number of set bits of that lane of the operand, 0 to
16. -/
def Obligations.LanePopulationCounts : Prop :=
  ∀ (vd va : VReg) (s : State),
    decode (wordR 0x28 vd.num va.num 0 0) = .ok (.popc16 vd va) ∧
    ∃ t w, exec (.popc16 vd va) s = .next t ∧ WroteVector vd w s t ∧
      ∀ j < 16, (w.extractLsb' (16 * j) 16).toNat =
        ((List.range 16).filter fun i => (s.readV va).getLsbD (16 * j + i)).length

/-- 43_lane_arithmetic.md R151: the number of set bits of the vector, which is the sum of the sixteen lane counts of
POPC16. -/
def Obligations.TotalPopulationCount : Prop :=
  ∀ (rd : SReg) (va : VReg) (s : State),
    decode (wordR 0x29 rd.num va.num 0 0) = .ok (.popsum rd va) ∧
    ∃ t v, exec (.popsum rd va) s = .next t ∧ WroteScalar rd v s t ∧
      v.toNat = ((List.range 256).filter fun i => (s.readV va).getLsbD i).length ∧
      ∀ vd u, exec (.popc16 vd va) s = .next u →
        v.toNat = ((List.range 16).map fun j => ((u.readV vd).extractLsb' (16 * j) 16).toNat).sum

/-- 43_lane_arithmetic.md R152: each 2-bit lane is `(a + b - c) mod 4`, the representative 0 to 3, whatever its
neighbours hold. -/
def Obligations.ModuloFourLanes : Prop :=
  ∀ (vd va vb vc : VReg) (s : State),
    decode (wordR 0x2A vd.num va.num vb.num vc.num) = .ok (.mod4 vd va vb vc) ∧
    ∃ t w, exec (.mod4 vd va vb vc) s = .next t ∧ WroteVector vd w s t ∧
      ∀ j < 128, ((w.extractLsb' (2 * j) 2).toNat : Int) =
        ((((s.readV va).extractLsb' (2 * j) 2).toNat : Int) + (((s.readV vb).extractLsb' (2 * j) 2).toNat : Int) -
          (((s.readV vc).extractLsb' (2 * j) 2).toNat : Int)) % 4

/-- 43_lane_arithmetic.md R153: the whole-register Boolean operations on bit-planes give the same vector as MOD4. -/
def Obligations.ModuloFourByBitPlanes : Prop :=
  ∀ (vd va vb vc : VReg) (s : State), ∃ t, exec (.mod4 vd va vb vc) s = .next t ∧
    t.readV vd = mod4Planes (s.readV va) (s.readV vb) (s.readV vc)

/-- 43_lane_arithmetic.md R154, 60_exceptions.md R217: the region at `d` takes the exclusive or of the old regions, all
else is unchanged; the checks in their order: destination range, source range, partial overlap. -/
def Obligations.XormCombinesRegions : Prop :=
  ∀ (ra rb rc : SReg) (s : State),
    decode (wordR 0x30 ra.num rb.num rc.num 0) = .ok (.xorm ra rb rc) ∧
    (s.cap.toNat / 256 < (s.readS ra).toNat + (s.readS rc).toNat →
      ∃ t, exec (.xorm ra rb rc) s = .next t ∧ TookFault .storeRange (s.readS ra) s t) ∧
    ((s.readS ra).toNat + (s.readS rc).toNat ≤ s.cap.toNat / 256 →
      (s.cap.toNat / 256 < (s.readS rb).toNat + (s.readS rc).toNat →
        ∃ t, exec (.xorm ra rb rc) s = .next t ∧ TookFault .storeRange (s.readS rb) s t) ∧
      ((s.readS rb).toNat + (s.readS rc).toNat ≤ s.cap.toNat / 256 →
        (0 < (s.readS rc).toNat ∧ (s.readS ra).toNat ≠ (s.readS rb).toNat ∧
          (s.readS ra).toNat < (s.readS rb).toNat + (s.readS rc).toNat ∧
          (s.readS rb).toNat < (s.readS ra).toNat + (s.readS rc).toNat →
          ∃ t, exec (.xorm ra rb rc) s = .next t ∧ TookFault .overlap (s.readS rb) s t) ∧
        ((s.readS rc).toNat = 0 ∨ (s.readS ra).toNat = (s.readS rb).toNat ∨
          (s.readS rb).toNat + (s.readS rc).toNat ≤ (s.readS ra).toNat ∨
          (s.readS ra).toNat + (s.readS rc).toNat ≤ (s.readS rb).toNat →
          ∃ t, exec (.xorm ra rb rc) s = .next t ∧
            WroteStore (RegionBytes (s.readS ra).toNat (s.readS rc).toNat) s t ∧
            ∀ i < (s.readS rc).toNat, Memory.vec t.store ((s.readS ra).toNat + i) =
              Memory.vec s.store ((s.readS ra).toNat + i) ^^^ Memory.vec s.store ((s.readS rb).toNat + i))))

/-- 43_lane_arithmetic.md R154, the laws: XORM twice with separate regions restores the store, XORM of a zero region changes
nothing, XORM of a region with itself zeroes it. -/
def Obligations.XormLaws : Prop :=
  ∀ (ra rb rc : SReg) (s : State),
    (s.readS ra).toNat + (s.readS rc).toNat ≤ s.cap.toNat / 256 →
    (s.readS rb).toNat + (s.readS rc).toNat ≤ s.cap.toNat / 256 →
    ((s.readS rb).toNat + (s.readS rc).toNat ≤ (s.readS ra).toNat ∨
      (s.readS ra).toNat + (s.readS rc).toNat ≤ (s.readS rb).toNat →
      ∃ t, execAll [.xorm ra rb rc, .xorm ra rb rc] s = .next t ∧ SameStore s t) ∧
    (((s.readS rb).toNat + (s.readS rc).toNat ≤ (s.readS ra).toNat ∨
      (s.readS ra).toNat + (s.readS rc).toNat ≤ (s.readS rb).toNat) →
      (∀ i < (s.readS rc).toNat, Memory.vec s.store ((s.readS rb).toNat + i) = 0#256) →
      ∃ t, exec (.xorm ra rb rc) s = .next t ∧ SameStore s t) ∧
    (s.readS ra = s.readS rb → ∃ t, exec (.xorm ra rb rc) s = .next t ∧
      ∀ i < (s.readS rc).toNat, Memory.vec t.store ((s.readS ra).toNat + i) = 0#256)

/-- 43_lane_arithmetic.md R155: 1 when some vector of the region is not zero (so 0 for a count of 0), else 0; the range
check covers the whole region. -/
def Obligations.AnynzReducesARegion : Prop :=
  ∀ (rd ra rb : SReg) (s : State),
    decode (wordR 0x31 rd.num ra.num rb.num 0) = .ok (.anynz rd ra rb) ∧
    ((s.readS ra).toNat + (s.readS rb).toNat ≤ s.cap.toNat / 256 →
      ∃ t v, exec (.anynz rd ra rb) s = .next t ∧ WroteScalar rd v s t ∧ (v = 1#64 ∨ v = 0#64) ∧
        (v = 1#64 ↔ ∃ i < (s.readS rb).toNat, Memory.vec s.store ((s.readS ra).toNat + i) ≠ 0#256)) ∧
    (s.cap.toNat / 256 < (s.readS ra).toNat + (s.readS rb).toNat →
      ∃ t, exec (.anynz rd ra rb) s = .next t ∧ TookFault .storeRange (s.readS ra) s t)

/-! ### Address-bit permutations -/

/-- 44_address_permutation.md R172: for each level, `π_k*` keeps a position whose bits `k` and `8+k` agree and flips both
bits of any other; it undoes itself and stays inside the block; its row is the old row with bit `k` replaced by the
column's bit `k`, and conversely. -/
def Obligations.LevelPermutationForm : Prop :=
  ∀ k < 8, ∀ p < 65536,
    permuted (levelSwap k) p = levelExchange k p ∧
    permuted (levelSwap k) p < 65536 ∧
    permuted (levelSwap k) (permuted (levelSwap k) p) = p ∧
    ∀ i < 8, (permuted (levelSwap k) p / 256).testBit i = (if i = k then p % 256 else p / 256).testBit i ∧
      (permuted (levelSwap k) p % 256).testBit i = (if i = k then p / 256 else p % 256).testBit i

/-- 44_address_permutation.md R173: SWAPK moves every bit of the block at 256 consecutive vectors to its place under
`π_k*`; nothing outside the block changes. -/
def Obligations.SwapkExchangesOneLevel : Prop :=
  ∀ (ra : SReg) (k : BitVec 3) (s : State),
    decode (wordR 0x40 ra.num 0 0 (BitVec.ofNat 4 k.toNat)) = .ok (.swapk ra k) ∧
    ((s.readS ra).toNat + 256 ≤ s.cap.toNat / 256 →
      ∃ t, exec (.swapk ra k) s = .next t ∧ WroteStore (RegionBytes (s.readS ra).toNat 256) s t ∧
        ∀ p < 65536, Memory.bitAt t.store (256 * (s.readS ra).toNat + levelExchange k.toNat p) =
          Memory.bitAt s.store (256 * (s.readS ra).toNat + p)) ∧
    (s.cap.toNat / 256 < (s.readS ra).toNat + 256 →
      ∃ t, exec (.swapk ra k) s = .next t ∧ TookFault .storeRange (s.readS ra) s t)

/-- 44_address_permutation.md R176: SWAPS does the same to the block of rows `M[b + r*S]`; vectors between the rows are not
touched; a zero stride faults first. -/
def Obligations.SwapsExchangesOneLevelAtStride : Prop :=
  ∀ (ra rb : SReg) (k : BitVec 3) (s : State),
    decode (wordR 0x41 ra.num rb.num 0 (BitVec.ofNat 4 k.toNat)) = .ok (.swaps ra rb k) ∧
    (s.readS rb ≠ 0#64 → (s.readS ra).toNat + 255 * (s.readS rb).toNat + 1 ≤ s.cap.toNat / 256 →
      ∃ t, exec (.swaps ra rb k) s = .next t ∧
        WroteStore (BlockBytes (s.readS ra).toNat (s.readS rb).toNat) s t ∧
        ∀ r < 256, ∀ c < 256,
          (Memory.vec t.store ((s.readS ra).toNat + levelExchange k.toNat (256 * r + c) / 256 * (s.readS rb).toNat)).getLsbD
            (levelExchange k.toNat (256 * r + c) % 256) =
          (Memory.vec s.store ((s.readS ra).toNat + r * (s.readS rb).toNat)).getLsbD c) ∧
    (s.readS rb = 0#64 → ∃ t, exec (.swaps ra rb k) s = .next t ∧ TookFault .sizeContract 0#64 s t) ∧
    (s.readS rb ≠ 0#64 → s.cap.toNat / 256 < (s.readS ra).toNat + 255 * (s.readS rb).toNat + 1 →
      ∃ t, exec (.swaps ra rb k) s = .next t ∧ TookFault .storeRange (s.readS ra) s t)

/-- 44_address_permutation.md R174, for SWAPK and for SWAPS: the level-`k` map is a bijection of the 65536 positions, and a
block in which exactly the bit at `p` is set becomes one in which exactly the bit at the image of `p` is set, for every `p`
and `k`. -/
def Obligations.SingleBitContract : Prop :=
  ∀ (ra rb : SReg) (k : BitVec 3) (s : State) (p : Nat), p < 65536 →
    (levelExchange k.toNat p < 65536 ∧ (∀ q < 65536, levelExchange k.toNat q = levelExchange k.toNat p → q = p) ∧
      ∃ q < 65536, levelExchange k.toNat q = p) ∧
    ((s.readS ra).toNat + 256 ≤ s.cap.toNat / 256 →
      (∀ q < 65536, Memory.bitAt s.store (256 * (s.readS ra).toNat + q) = decide (q = p)) →
      ∃ t, exec (.swapk ra k) s = .next t ∧
        ∀ q < 65536, Memory.bitAt t.store (256 * (s.readS ra).toNat + q) = decide (q = levelExchange k.toNat p)) ∧
    (s.readS rb ≠ 0#64 → (s.readS ra).toNat + 255 * (s.readS rb).toNat + 1 ≤ s.cap.toNat / 256 →
      (∀ r < 256, ∀ c < 256, (Memory.vec s.store ((s.readS ra).toNat + r * (s.readS rb).toNat)).getLsbD c =
        decide (256 * r + c = p)) →
      ∃ t, exec (.swaps ra rb k) s = .next t ∧
        ∀ r < 256, ∀ c < 256, (Memory.vec t.store ((s.readS ra).toNat + r * (s.readS rb).toNat)).getLsbD c =
          decide (256 * r + c = levelExchange k.toNat p))

/-- 44_address_permutation.md R177: the register-level formulation, for every pair of rows `r` and `r + 2^k` with
`r[k] = 0`. -/
def Obligations.SwapByRegisterOperations : Prop :=
  ∀ (ra rb : SReg) (k : BitVec 3) (s : State),
    s.readS rb ≠ 0#64 → (s.readS ra).toNat + 255 * (s.readS rb).toNat + 1 ≤ s.cap.toNat / 256 →
    ∃ t, exec (.swaps ra rb k) s = .next t ∧ ∀ r < 256, r.testBit k.toNat = false →
      Memory.vec t.store ((s.readS ra).toNat + r * (s.readS rb).toNat) =
        (Memory.vec s.store ((s.readS ra).toNat + r * (s.readS rb).toNat) &&& ~~~(levelMask k.toNat)) |||
        ((Memory.vec s.store ((s.readS ra).toNat + (r + 2 ^ k.toNat) * (s.readS rb).toNat) <<< 2 ^ k.toNat) &&&
          levelMask k.toNat) ∧
      Memory.vec t.store ((s.readS ra).toNat + (r + 2 ^ k.toNat) * (s.readS rb).toNat) =
        (Memory.vec s.store ((s.readS ra).toNat + (r + 2 ^ k.toNat) * (s.readS rb).toNat) &&& levelMask k.toNat) |||
        ((Memory.vec s.store ((s.readS ra).toNat + r * (s.readS rb).toNat) >>> 2 ^ k.toNat) &&& ~~~(levelMask k.toNat))

/-- 44_address_permutation.md R175: two levels on one block commute, and the eight levels, each once and in any order, are the
block transpose (45_transpose.md R190, R191), for the contiguous block and for the block at a pitch. -/
def Obligations.BlockTransposeIsEightLevels : Prop :=
  ∀ (ra rb : SReg) (ks : List (BitVec 3)) (j k : BitVec 3) (s : State),
    ks.Perm [0#3, 1#3, 2#3, 3#3, 4#3, 5#3, 6#3, 7#3] →
    ((s.readS ra).toNat + 256 ≤ s.cap.toNat / 256 →
      (∃ t u, execAll [.swapk ra j, .swapk ra k] s = .next t ∧ execAll [.swapk ra k, .swapk ra j] s = .next u ∧
        u.store = t.store) ∧
      ∃ t u, exec (.tblk ra) s = .next t ∧ execAll (ks.map (.swapk ra)) s = .next u ∧ u.store = t.store) ∧
    (s.readS rb ≠ 0#64 → (s.readS ra).toNat + 255 * (s.readS rb).toNat + 1 ≤ s.cap.toNat / 256 →
      (∃ t u, execAll [.swaps ra rb j, .swaps ra rb k] s = .next t ∧
        execAll [.swaps ra rb k, .swaps ra rb j] s = .next u ∧ u.store = t.store) ∧
      ∃ t u, exec (.tblks ra rb) s = .next t ∧ execAll (ks.map (.swaps ra rb)) s = .next u ∧ u.store = t.store)

/-! ### Transposes -/

/-- 45_transpose.md R190. -/
def Obligations.TblkTransposesABlock : Prop :=
  ∀ (ra : SReg) (s : State),
    decode (wordR 0x48 ra.num 0 0 0) = .ok (.tblk ra) ∧
    ((s.readS ra).toNat + 256 ≤ s.cap.toNat / 256 →
      ∃ t, exec (.tblk ra) s = .next t ∧ WroteStore (RegionBytes (s.readS ra).toNat 256) s t ∧
        ∀ i < 256, ∀ j < 256, (Memory.vec t.store ((s.readS ra).toNat + i)).getLsbD j =
          (Memory.vec s.store ((s.readS ra).toNat + j)).getLsbD i) ∧
    (s.cap.toNat / 256 < (s.readS ra).toNat + 256 →
      ∃ t, exec (.tblk ra) s = .next t ∧ TookFault .storeRange (s.readS ra) s t)

/-- 45_transpose.md R191. -/
def Obligations.TblksTransposesAStridedBlock : Prop :=
  ∀ (ra rb : SReg) (s : State),
    decode (wordR 0x49 ra.num rb.num 0 0) = .ok (.tblks ra rb) ∧
    (s.readS rb ≠ 0#64 → (s.readS ra).toNat + 255 * (s.readS rb).toNat + 1 ≤ s.cap.toNat / 256 →
      ∃ t, exec (.tblks ra rb) s = .next t ∧
        WroteStore (BlockBytes (s.readS ra).toNat (s.readS rb).toNat) s t ∧
        ∀ i < 256, ∀ j < 256, (Memory.vec t.store ((s.readS ra).toNat + i * (s.readS rb).toNat)).getLsbD j =
          (Memory.vec s.store ((s.readS ra).toNat + j * (s.readS rb).toNat)).getLsbD i) ∧
    (s.readS rb = 0#64 → ∃ t, exec (.tblks ra rb) s = .next t ∧ TookFault .sizeContract 0#64 s t) ∧
    (s.readS rb ≠ 0#64 → s.cap.toNat / 256 < (s.readS ra).toNat + 255 * (s.readS rb).toNat + 1 →
      ∃ t, exec (.tblks ra rb) s = .next t ∧ TookFault .storeRange (s.readS ra) s t)

/-- 45_transpose.md R192: row `i` of block `(br, bc)` becomes the old row `i` of block `(bc, br)`, for every pair of blocks
of the matrix of `n` by `n` bits with `n*n` the area operand; an area that is no square of a multiple of 256 faults
before the range is checked. -/
def Obligations.RblkExchangesBlocks : Prop :=
  ∀ (ra rb : SReg) (s : State),
    decode (wordR 0x4A ra.num rb.num 0 0) = .ok (.rblk ra rb) ∧
    (∀ side, 256 * side * (256 * side) = (s.readS rb).toNat →
      ((s.readS ra).toNat + 256 * side * side ≤ s.cap.toNat / 256 →
        ∃ t, exec (.rblk ra rb) s = .next t ∧
          WroteStore (RegionBytes (s.readS ra).toNat (256 * side * side)) s t ∧
          ∀ br < side, ∀ bc < side, ∀ i < 256,
            Memory.vec t.store ((s.readS ra).toNat + (256 * br + i) * side + bc) =
              Memory.vec s.store ((s.readS ra).toNat + (256 * bc + i) * side + br)) ∧
      (s.cap.toNat / 256 < (s.readS ra).toNat + 256 * side * side →
        ∃ t, exec (.rblk ra rb) s = .next t ∧ TookFault .storeRange (s.readS ra) s t)) ∧
    ((∀ side, 256 * side * (256 * side) ≠ (s.readS rb).toNat) →
      ∃ t, exec (.rblk ra rb) s = .next t ∧ TookFault .sizeContract (s.readS rb) s t)

/-- 45_transpose.md R193, 60_exceptions.md R215: element `(i, j)` becomes the old element `(j, i)`, nothing outside the
matrix changes; a side that is no multiple of 256 fails fast. -/
def Obligations.TmatTransposesAMatrix : Prop :=
  ∀ (ra rb : SReg) (s : State),
    decode (wordR 0x4B ra.num rb.num 0 0) = .ok (.tmat ra rb) ∧
    ((s.readS rb).toNat % 256 = 0 →
      (s.readS ra).toNat + (s.readS rb).toNat * (s.readS rb).toNat / 256 ≤ s.cap.toNat / 256 →
      ∃ t, exec (.tmat ra rb) s = .next t ∧
        WroteStore (RegionBytes (s.readS ra).toNat ((s.readS rb).toNat * (s.readS rb).toNat / 256)) s t ∧
        ∀ i < (s.readS rb).toNat, ∀ j < (s.readS rb).toNat,
          Memory.bitAt t.store (256 * (s.readS ra).toNat + i * (s.readS rb).toNat + j) =
            Memory.bitAt s.store (256 * (s.readS ra).toNat + j * (s.readS rb).toNat + i)) ∧
    ((s.readS rb).toNat % 256 ≠ 0 →
      ∃ t, exec (.tmat ra rb) s = .next t ∧ TookFault .sizeContract (s.readS rb) s t) ∧
    ((s.readS rb).toNat % 256 = 0 →
      s.cap.toNat / 256 < (s.readS ra).toNat + (s.readS rb).toNat * (s.readS rb).toNat / 256 →
      ∃ t, exec (.tmat ra rb) s = .next t ∧ TookFault .storeRange (s.readS ra) s t)

/-- 45_transpose.md R195: TMAT makes element `(i, j)` the old element `(j, i)`, and TMAT again restores every bit of the
store. -/
def Obligations.TmatIsAnInvolution : Prop :=
  ∀ (ra rb : SReg) (s : State), (s.readS rb).toNat % 256 = 0 →
    (s.readS ra).toNat + (s.readS rb).toNat * (s.readS rb).toNat / 256 ≤ s.cap.toNat / 256 →
    ∃ t u, exec (.tmat ra rb) s = .next t ∧ exec (.tmat ra rb) t = .next u ∧
      (∀ i < (s.readS rb).toNat, ∀ j < (s.readS rb).toNat,
        Memory.bitAt t.store (256 * (s.readS ra).toNat + i * (s.readS rb).toNat + j) =
          Memory.bitAt s.store (256 * (s.readS ra).toNat + j * (s.readS rb).toNat + i)) ∧
      SameStore s u ∧ (Memory.wf s.store → u.store = s.store)

/-- 45_transpose.md R194, with the RBLK before or after all the block transposes (log 11): TMAT leaves the same store as
one TBLKS for every block, in any order, with the RBLK last, and as the same with the RBLK first. -/
def Obligations.TwoPhaseTranspose : Prop :=
  ∀ (s : State) (base n : Nat) (order : List Phase), n % 256 = 0 → base + n * n / 256 ≤ s.cap.toNat / 256 →
    order.Perm (blockPhases (n / 256)) →
    ∃ t u v, execTmatAt base n s = .next t ∧
      execPhases base n (order ++ [.exchange]) s = .next u ∧ u.store = t.store ∧
      execPhases base n (.exchange :: order) s = .next v ∧ v.store = t.store

/-- 45_transpose.md R194 read literally, the RBLK "placed anywhere among them" (log 11). It is expected to FAIL: when the RBLK
stands between the TBLKS of block `(0,1)` and that of block `(1,0)`, one block's bits are transposed twice and the
other's not at all. -/
def Obligations.TwoPhaseExchangeAnywhere : Prop :=
  ∀ (s : State) (base n : Nat) (before after : List Phase), n % 256 = 0 → base + n * n / 256 ≤ s.cap.toNat / 256 →
    (before ++ after).Perm (blockPhases (n / 256)) →
    ∃ t u, execTmatAt base n s = .next t ∧ execPhases base n (before ++ .exchange :: after) s = .next u ∧
      u.store = t.store

/-! ### Reset, host port, invariant -/

/-- 10_state.md R37: what reset leaves, whatever the state before, and where a run then enters. -/
def Obligations.ResetLeavesTheStatedValues : Prop :=
  ∀ s : State, ∃ t, port .reset s = .next t ∧
    (∀ r, t.readS r = 0#64) ∧ (∀ r, t.readV r = 0#256) ∧ t.pc = 0#32 ∧ t.runState = .idle ∧ t.cause = .none ∧
    t.finfo = 0#64 ∧ t.fpc = 0#32 ∧ t.cap = 0#64 ∧ (∀ k, Memory.bitAt t.store k = false) ∧
    t.capMax = s.capMax ∧ t.csr 7 = some 0x424D5401#64 ∧ t.program = s.program ∧
    ∃ u, port .start t = .next u ∧ u.pc = 0#32 ∧ u.runState = .running

/-- The state after power-on, for every `CAPMAX` and command memory, and `State.reset` in particular (10_state.md R37): the
values of the rule; that `State.reset` has an empty command memory is the model's choice (log 2). -/
def Obligations.PowerOnState : Prop :=
  (∀ (capMax : BitVec 64) (p : List CmdWord), ∃ t, port .reset (State.powerOn capMax p) = .next t ∧
    t = State.powerOn capMax p ∧ t.pc = 0#32 ∧ t.runState.code = 0#2 ∧ t.cause.code = 0#3 ∧ t.cap = 0#64) ∧
  State.reset = State.powerOn Config.capMax [] ∧ Config.capMax.toNat % 256 = 0 ∧ State.reset.Inv

/-- 10_state.md R25 and R246 of 70_reset_and_hazards.md: the eight registers by number, bits above their width zero; in
RUNNING the host reads `STATE` only; the encodings of `STATE` and `CAUSE` (R26, 60_exceptions.md R211). That a read of
another register in RUNNING answers nothing is the model's choice (log 14). -/
def Obligations.HostReadsControlRegisters : Prop :=
  ∀ s : State,
    (∀ n, s.runState = .running → n ≠ 0 → portReadCsr s n = none) ∧
    portReadCsr s 0 = some (match s.runState with | .idle => 0#64 | .running => 1#64 | .halted => 2#64 | .faulted => 3#64) ∧
    (s.runState ≠ .running →
      portReadCsr s 1 = some (BitVec.ofNat 64 s.pc.toNat) ∧
      portReadCsr s 2 = some (match s.cause with
        | .none => 0#64 | .illegalCommand => 1#64 | .storeRange => 2#64 | .sizeContract => 3#64 | .capacity => 4#64
        | .overlap => 5#64 | .fetchRange => 6#64) ∧
      portReadCsr s 3 = some s.finfo ∧ portReadCsr s 4 = some (BitVec.ofNat 64 s.fpc.toNat) ∧
      portReadCsr s 5 = some s.cap ∧ portReadCsr s 6 = some s.capMax ∧ portReadCsr s 7 = some 0x424D5401#64)

/-- 70_reset_and_hazards.md R246: `start` acts in IDLE and HALTED and has no effect in RUNNING and FAULTED; outside
RUNNING the host writes and reads registers, vectors below `CAPV` and command words below `PLEN`; in RUNNING it must
not; CSRs, vectors from `CAPV` on and words from `PLEN` on it never writes. That a forbidden move is refused, and by which
name, and that a forbidden read answers nothing, is the model's choice (log 6). -/
def Obligations.HostPortFollowsItsTable : Prop :=
  ∀ s : State,
    (s.runState = .idle ∨ s.runState = .halted → ∃ t, port .start s = .next t ∧ t.pc = 0#32 ∧ t.runState = .running ∧
      SameScalars s t ∧ SameVectors s t ∧ SameStore s t ∧ t.cause = s.cause ∧ t.finfo = s.finfo ∧ t.fpc = s.fpc ∧
      t.cap = s.cap ∧ t.capMax = s.capMax ∧ t.program = s.program ∧ t.draws = s.draws) ∧
    (s.runState = .running ∨ s.runState = .faulted → port .start s = .next s) ∧
    (s.runState = .running →
      (∀ r v, port (.writeS r v) s = .refused .hostMustNot ∧ portReadS s r = none) ∧
      (∀ r w, port (.writeV r w) s = .refused .hostMustNot ∧ portReadV s r = none) ∧
      (∀ j w, (∃ x, port (.writeM j w) s = .refused x) ∧ portReadM s j = none) ∧
      (∀ i w, (∃ x, port (.writeCommand i w) s = .refused x) ∧ portReadCommand s i = none)) ∧
    (s.runState ≠ .running →
      (∀ r v, portReadS s r = some (s.readS r) ∧ ∃ t, port (.writeS r v) s = .next t ∧ t.readS r = v ∧
        (∀ x, x ≠ r → t.readS x = s.readS x) ∧ SameVectors s t ∧ SameStore s t ∧ t.pc = s.pc ∧ SameControl s t) ∧
      (∀ r w, portReadV s r = some (s.readV r) ∧ ∃ t, port (.writeV r w) s = .next t ∧ t.readV r = w ∧
        (∀ x, x ≠ r → t.readV x = s.readV x) ∧ SameScalars s t ∧ SameStore s t ∧ t.pc = s.pc ∧ SameControl s t) ∧
      (∀ j w, j < s.cap.toNat / 256 → portReadM s j = some (Memory.vec s.store j) ∧
        ∃ t, port (.writeM j w) s = .next t ∧ Memory.vec t.store j = w ∧
        (∀ x, x ≠ j → Memory.vec t.store x = Memory.vec s.store x) ∧ SameScalars s t ∧ SameVectors s t ∧
        t.pc = s.pc ∧ SameControl s t) ∧
      (∀ i w, i < s.program.length → portReadCommand s i = s.program[i]? ∧
        ∃ t, port (.writeCommand i w) s = .next t ∧ t.program[i]? = some w ∧
        (∀ x, x ≠ i → t.program[x]? = s.program[x]?) ∧ SameScalars s t ∧ SameVectors s t ∧ SameStore s t ∧
        t.pc = s.pc ∧ t.runState = s.runState ∧ t.cause = s.cause ∧ t.finfo = s.finfo ∧ t.fpc = s.fpc ∧
        t.cap = s.cap ∧ t.capMax = s.capMax ∧ t.draws = s.draws)) ∧
    (∀ j w, s.cap.toNat / 256 ≤ j → port (.writeM j w) s = .refused .hostCannot ∧ portReadM s j = none) ∧
    (∀ i w, s.program.length ≤ i → port (.writeCommand i w) s = .refused .hostCannot ∧ portReadCommand s i = none) ∧
    (∀ n v, port (.writeCsr n v) s = .refused .hostCannot)

/-- The invariant holds right after reset. -/
def Obligations.ResetMeetsTheInvariant : Prop :=
  State.reset.Inv ∧ ∀ (c : BitVec 56) (p : List CmdWord), p.length < 2 ^ 32 → (State.powerOn (c ++ 0#8) p).Inv

/-- Every step, and every operation of the host port that has an effect, keeps the invariant, from every state that meets
it: the store stays canonical and inside `CAP`, `CAP` stays a multiple of 256 at most `CAPMAX` (10_state.md R30), `pc` never
passes `PLEN` (R23), and the fault registers agree with `STATE` (R27 to R29). -/
def Obligations.StepKeepsTheInvariant : Prop :=
  ∀ s t : State, s.Inv → (step s = .next t → t.Inv) ∧ ∀ op : PortOp, port op s = .next t → t.Inv

/-- Whatever the host does and however often, every state the engine reaches from power-on meets the invariant, and every
step from it answers a next state. -/
def Obligations.ReachableStatesMeetTheInvariant : Prop :=
  ∀ s : State, Reachable s → s.Inv ∧ ∃ t, step s = .next t
end

