-- ==== Sys2Proof/Laws/Encoding.lean ====
section
/-! SUPPORT. The fields of an encoded word (30_encoding.md R81, R82): each field reads what the encoder put there. -/

namespace Sys2Proof.Laws

variable (op : BitVec 8) (a b c d : BitVec 4) (q : BitVec 2) (imm : BitVec 16)

/-- A field that lies in the low part of a joined word is that field of the low part. -/
theorem extractLsb'_append_low {m n : Nat} (x : BitVec m) (y : BitVec n) (i w : Nat) (h : i + w ≤ n) :
    (x ++ y).extractLsb' i w = y.extractLsb' i w := by
  apply BitVec.eq_of_getLsbD_eq; intro t ht
  simp only [BitVec.getLsbD_extractLsb', ht, decide_true, Bool.true_and, BitVec.getLsbD_append]
  rw [if_pos (by omega)]

/-- A field that lies in the high part of a joined word is that field of the high part. -/
theorem extractLsb'_append_high {m n : Nat} (x : BitVec m) (y : BitVec n) (i w : Nat) (h : n ≤ i) :
    (x ++ y).extractLsb' i w = x.extractLsb' (i - n) w := by
  apply BitVec.eq_of_getLsbD_eq; intro t ht
  simp only [BitVec.getLsbD_extractLsb', ht, decide_true, Bool.true_and, BitVec.getLsbD_append]
  rw [if_neg (by omega), show i + t - n = i - n + t by omega]

/-- All of a word is that word. -/
theorem extractLsb'_whole {n : Nat} (x : BitVec n) : x.extractLsb' 0 n = x := by
  apply BitVec.eq_of_getLsbD_eq; intro t ht
  simp [ht]

@[simp] theorem op_encodeR : (encodeR op a b c d).extractLsb' 24 8 = op := by
  simp (disch := omega) only [encodeR, extractLsb'_append_high, extractLsb'_whole, Nat.sub_self, Nat.reduceSub]

@[simp] theorem fieldA_encodeR : (encodeR op a b c d).extractLsb' 20 4 = a := by
  simp (disch := omega) only [encodeR, extractLsb'_append_low, extractLsb'_append_high, extractLsb'_whole,
    Nat.sub_self, Nat.reduceSub]

@[simp] theorem fieldB_encodeR : (encodeR op a b c d).extractLsb' 16 4 = b := by
  simp (disch := omega) only [encodeR, extractLsb'_append_low, extractLsb'_append_high, extractLsb'_whole,
    Nat.sub_self, Nat.reduceSub]

@[simp] theorem fieldC_encodeR : (encodeR op a b c d).extractLsb' 12 4 = c := by
  simp (disch := omega) only [encodeR, extractLsb'_append_low, extractLsb'_append_high, extractLsb'_whole,
    Nat.sub_self, Nat.reduceSub]

@[simp] theorem fieldD_encodeR : (encodeR op a b c d).extractLsb' 8 4 = d := by
  simp (disch := omega) only [encodeR, extractLsb'_append_low, extractLsb'_append_high, extractLsb'_whole,
    Nat.sub_self]

@[simp] theorem fieldZ_encodeR : (encodeR op a b c d).extractLsb' 0 8 = 0#8 := by
  simp (disch := omega) only [encodeR, extractLsb'_append_low, extractLsb'_whole]

@[simp] theorem op_encodeI : (encodeI op a q imm).extractLsb' 24 8 = op := by
  simp (disch := omega) only [encodeI, extractLsb'_append_high, extractLsb'_whole, Nat.sub_self, Nat.reduceSub]

@[simp] theorem fieldA_encodeI : (encodeI op a q imm).extractLsb' 20 4 = a := by
  simp (disch := omega) only [encodeI, extractLsb'_append_low, extractLsb'_append_high, extractLsb'_whole,
    Nat.sub_self, Nat.reduceSub]

@[simp] theorem fieldY_encodeI : (encodeI op a q imm).extractLsb' 18 2 = 0#2 := by
  simp (disch := omega) only [encodeI, extractLsb'_append_low, extractLsb'_append_high, extractLsb'_whole,
    Nat.sub_self, Nat.reduceSub]

@[simp] theorem fieldQ_encodeI : (encodeI op a q imm).extractLsb' 16 2 = q := by
  simp (disch := omega) only [encodeI, extractLsb'_append_low, extractLsb'_append_high, extractLsb'_whole,
    Nat.sub_self]

@[simp] theorem fieldImm_encodeI : (encodeI op a q imm).extractLsb' 0 16 = imm := by
  simp (disch := omega) only [encodeI, extractLsb'_append_low, extractLsb'_whole]

/-- Bit 11 of a word of format R is the high bit of field `D`. -/
@[simp] theorem bit11_encodeR : (encodeR op a b c d)[11] = d[3] := by
  rw [← BitVec.getLsbD_eq_getElem, ← BitVec.getLsbD_eq_getElem, encodeR, BitVec.getLsbD_append, if_neg (by decide),
    BitVec.getLsbD_append, if_pos (by decide)]

/-- The level field has its high bit zero (30_encoding.md R84). -/
@[simp] theorem levelField_high (k : BitVec 3) : (levelField k)[3] = false := by
  rw [← BitVec.getLsbD_eq_getElem, levelField, BitVec.getLsbD_append, if_neg (by decide)]; rfl

/-- The level in bits 10:8 (30_encoding.md R84). -/
@[simp] theorem fieldK_encodeR (k : BitVec 3) : (encodeR op a b c (levelField k)).extractLsb' 8 3 = k := by
  simp (disch := omega) only [encodeR, levelField, extractLsb'_append_low, extractLsb'_append_high,
    extractLsb'_whole, Nat.sub_self]

/-- A word of format R is legal when the fields its command does not use are zero. -/
theorem word_encodeR (ua ub uc ud level : Bool)
    (h : WellFormed.shapeOf (encodeR op a b c d) = some ⟨.R, ua, ub, uc, ud, level⟩)
    (ha : ua = true ∨ a = 0#4) (hb : ub = true ∨ b = 0#4) (hc : uc = true ∨ c = 0#4) (hd : ud = true ∨ d = 0#4)
    (hk : level = true → d[3] = false) : WellFormed.word (encodeR op a b c d) = true := by
  cases level <;>
  simp_all [WellFormed.word, WellFormed.zByteZero, WellFormed.unusedFieldsZero, WellFormed.yBitsZero,
    WellFormed.levelInRange]

/-- A word of format I is legal. -/
theorem word_encodeI (ua ub uc ud : Bool)
    (h : WellFormed.shapeOf (encodeI op a q imm) = some ⟨.I, ua, ub, uc, ud, false⟩) :
    WellFormed.word (encodeI op a q imm) = true := by
  simp [WellFormed.word, h, WellFormed.zByteZero, WellFormed.unusedFieldsZero, WellFormed.yBitsZero,
    WellFormed.levelInRange]

/-- The shape of a word of format R is that of its opcode byte. -/
theorem shapeOf_encodeR : WellFormed.shapeOf (encodeR op a b c d) =
    (WellFormed.storeShapes ++ WellFormed.laneShapes).lookup op.toNat := by
  rw [WellFormed.shapeOf, op_encodeR]

/-- The shape of a word of format I is that of its opcode byte. -/
theorem shapeOf_encodeI : WellFormed.shapeOf (encodeI op a q imm) =
    (WellFormed.storeShapes ++ WellFormed.laneShapes).lookup op.toNat := by
  rw [WellFormed.shapeOf, op_encodeI]

/-! ### Masks and numbers -/

/-- A conjunction of joined words is joined from the conjunctions of the parts. -/
theorem and_append {m n : Nat} (x x' : BitVec m) (y y' : BitVec n) : (x ++ y) &&& (x' ++ y') = (x &&& x') ++ (y &&& y') := by
  apply BitVec.eq_of_getLsbD_eq; intro t ht
  simp only [BitVec.getLsbD_and, BitVec.getLsbD_append]; split <;> rfl

/-- A word as the join of the six fields of format R. -/
theorem fieldsR (m : CmdWord) : m = m.extractLsb' 24 8 ++ m.extractLsb' 20 4 ++ m.extractLsb' 16 4 ++ m.extractLsb' 12 4 ++ m.extractLsb' 8 4 ++ m.extractLsb' 0 8 := by
  apply BitVec.eq_of_getLsbD_eq; intro t ht
  simp only [BitVec.getLsbD_append, BitVec.getLsbD_extractLsb']
  by_cases h1 : t < 8
  · simp [h1]
  by_cases h2 : t < 12
  · simp [h1, show t - 8 < 4 by omega, show 8 + (t-8) = t by omega]
  by_cases h3 : t < 16
  · simp [h1, show ¬ t - 8 < 4 by omega, show t - 8 - 4 < 4 by omega, show 12 + (t-8-4) = t by omega]
  by_cases h4 : t < 20
  · simp [h1, show ¬ t - 8 < 4 by omega, show ¬ t - 8 - 4 < 4 by omega, show t - 8 - 4 - 4 < 4 by omega, show 16 + (t-8-4-4) = t by omega]
  by_cases h5 : t < 24
  · simp [h1, show ¬ t - 8 < 4 by omega, show ¬ t - 8 - 4 < 4 by omega, show ¬ t - 8 - 4 - 4 < 4 by omega, show t - 8 - 4 - 4 - 4 < 4 by omega, show 20 + (t-8-4-4-4) = t by omega]
  · simp [h1, show ¬ t - 8 < 4 by omega, show ¬ t - 8 - 4 < 4 by omega, show ¬ t - 8 - 4 - 4 < 4 by omega, show ¬ t - 8 - 4 - 4 - 4 < 4 by omega, show t - 8 - 4 - 4 - 4 - 4 < 8 by omega, show 24 + (t-8-4-4-4-4) = t by omega]

/-- A mask on a word of format R, field by field. -/
theorem and_encodeR (op : BitVec 8) (a b c d : BitVec 4) (m : CmdWord) : encodeR op a b c d &&& m =
    encodeR (op &&& m.extractLsb' 24 8) (a &&& m.extractLsb' 20 4) (b &&& m.extractLsb' 16 4) (c &&& m.extractLsb' 12 4) (d &&& m.extractLsb' 8 4) := by
  conv => lhs; rw [fieldsR m]
  unfold encodeR; erw [and_append, and_append, and_append, and_append, and_append, BitVec.zero_and]

/-- A word as the join of the five fields of format I. -/
theorem fieldsI (m : CmdWord) : m = m.extractLsb' 24 8 ++ m.extractLsb' 20 4 ++ m.extractLsb' 18 2 ++ m.extractLsb' 16 2 ++ m.extractLsb' 0 16 := by
  apply BitVec.eq_of_getLsbD_eq; intro t ht
  simp only [BitVec.getLsbD_append, BitVec.getLsbD_extractLsb']
  by_cases h1 : t < 16
  · simp [h1]
  by_cases h2 : t < 18
  · simp [h1, show t - 16 < 2 by omega, show 16 + (t-16) = t by omega]
  by_cases h3 : t < 20
  · simp [h1, show ¬ t - 16 < 2 by omega, show t - 16 - 2 < 2 by omega, show 18 + (t-16-2) = t by omega]
  by_cases h4 : t < 24
  · simp [h1, show ¬ t - 16 < 2 by omega, show ¬ t - 16 - 2 < 2 by omega, show t - 16 - 2 - 2 < 4 by omega, show 20 + (t-16-2-2) = t by omega]
  · simp [h1, show ¬ t - 16 < 2 by omega, show ¬ t - 16 - 2 < 2 by omega, show ¬ t - 16 - 2 - 2 < 4 by omega, show t - 16 - 2 - 2 - 4 < 8 by omega, show 24 + (t-16-2-2-4) = t by omega]

/-- A mask on a word of format I, field by field. -/
theorem and_encodeI (op : BitVec 8) (a : BitVec 4) (q : BitVec 2) (i : BitVec 16) (m : CmdWord) : encodeI op a q i &&& m =
    encodeI (op &&& m.extractLsb' 24 8) (a &&& m.extractLsb' 20 4) (q &&& m.extractLsb' 16 2) (i &&& m.extractLsb' 0 16) := by
  conv => lhs; rw [fieldsI m]
  unfold encodeI; erw [and_append, and_append, and_append, and_append, BitVec.zero_and]

/-- The number a joined word is. -/
theorem toNat_append_add {m n : Nat} (x : BitVec m) (y : BitVec n) : (x ++ y).toNat = x.toNat * 2 ^ n + y.toNat := by
  rw [BitVec.toNat_append, ← Nat.shiftLeft_add_eq_or_of_lt y.isLt, Nat.shiftLeft_eq]

/-- A word that matches the row its opcode byte leads to decodes to that row's command (30_encoding.md R87). -/
theorem decode_of_row (w : CmdWord) (r : OpRow) (h : opRows.find? (fun r => opField r.val == opField w) = some r)
    (hm : w &&& r.mask = r.val) : decode w = .ok (r.build w) := by
  simp only [decode, h, if_pos hm]

end Sys2Proof.Laws
end

