-- ==== Sys2Proof/Laws/Memory.lean ====
section
/-! SUPPORT. What the store's operations do: read after write, the canonical form they keep, and one lemma per shared
operation that says everything it does. -/

namespace Sys2Proof.Laws

open Sys2Proof.Machine

/-! ### Values made of parts -/

theorem ofParts_lt {w : Nat} (f : Nat → BitVec w) (n : Nat) : ofParts f n < 2 ^ (w * n) := by
  induction n with
  | zero => simp [ofParts]
  | succ n ih =>
    have hf := (f n).isLt
    have : (f n).toNat + 1 ≤ 2 ^ w := hf
    have h2 : 2 ^ (w * (n + 1)) = 2 ^ w * 2 ^ (w * n) := by rw [Nat.mul_succ, Nat.pow_add, Nat.mul_comm]
    rw [ofParts, Nat.shiftLeft_eq, h2]
    calc ofParts f n + (f n).toNat * 2 ^ (w * n) < 2 ^ (w * n) + (f n).toNat * 2 ^ (w * n) := by omega
      _ = ((f n).toNat + 1) * 2 ^ (w * n) := by ring
      _ ≤ 2 ^ w * 2 ^ (w * n) := Nat.mul_le_mul_right _ this

/-- Bit `t` of a value made of parts is bit `t mod w` of part `t div w`. -/
theorem testBit_ofParts {w : Nat} (hw : 0 < w) (f : Nat → BitVec w) (n t : Nat) :
    (ofParts f n).testBit t = (decide (t < w * n) && (f (t / w)).getLsbD (t % w)) := by
  induction n with
  | zero => simp [ofParts]
  | succ n ih =>
    rw [ofParts, Nat.shiftLeft_eq, Nat.add_comm, Nat.mul_comm (f n).toNat,
      Nat.testBit_two_pow_mul_add _ (ofParts_lt f n), ih]
    by_cases h : t < w * n
    · have : t < w * (n + 1) := by rw [Nat.mul_succ]; omega
      simp [h, this]
    · rw [if_neg h, Nat.mul_succ]
      by_cases h2 : t < w * n + w
      · have hd : t / w = n := by
          rw [Nat.div_eq_iff hw, Nat.mul_comm n w]; omega
        have hm : t % w = t - w * n := by
          have := Nat.div_add_mod t w; rw [hd] at this; omega
        simp [h2, hd, hm, BitVec.getLsbD]
      · simp only [h2, decide_false, Bool.false_and]
        exact BitVec.getLsbD_of_ge _ _ (by omega)

/-- A vector value made of `n` parts of `w` bits, read bit by bit. -/
theorem getLsbD_ofParts {w : Nat} (hw : 0 < w) (f : Nat → BitVec w) (n m t : Nat) (h : w * n = m) :
    (BitVec.ofNat m (ofParts f n)).getLsbD t = (decide (t < m) && (f (t / w)).getLsbD (t % w)) := by
  rw [BitVec.getLsbD_ofNat, testBit_ofParts hw, h, ← Bool.and_assoc, Bool.and_self]

/-! ### Bytes -/

theorem byteAt_of_notMem (m : Memory) (a : Nat) (h : ∀ x ∈ m, x.1 ≠ a) : Memory.byteAt m a = 0#8 := by
  induction m with
  | nil => rfl
  | cons x rest ih =>
    simp only [List.mem_cons, forall_eq_or_imp] at h
    rw [Memory.byteAt, if_neg h.1]
    exact ih h.2

/-- A byte that is not zero is listed. -/
theorem mem_of_byteAt_ne (m : Memory) (a : Nat) (h : Memory.byteAt m a ≠ 0#8) : ∃ x ∈ m, x.1 = a := by
  by_contra hc
  exact h (byteAt_of_notMem m a fun x hx he => hc ⟨x, hx, he⟩)

theorem byteAt_insert (m : Memory) (a : Nat) (v : Byte) (x : Nat) :
    Memory.byteAt (Memory.insert m a v) x = if x = a then v else Memory.byteAt m x := by
  induction m with
  | nil => simp [Memory.insert, Memory.byteAt, eq_comm]
  | cons c rest ih =>
    obtain ⟨b, w⟩ := c
    rw [Memory.insert]
    split
    · simp only [Memory.byteAt]; grind
    · split
      · simp only [Memory.byteAt]; grind
      · simp only [Memory.byteAt, ih]; grind

theorem byteAt_filter_ne (m : Memory) (a x : Nat) :
    Memory.byteAt (m.filter fun c => c.1 != a) x = if x = a then 0#8 else Memory.byteAt m x := by
  induction m with
  | nil => simp [Memory.byteAt, Memory.unlisted]
  | cons c rest ih =>
    obtain ⟨b, w⟩ := c
    simp only [List.filter_cons, Memory.byteAt]
    split
    · simp only [Memory.byteAt, ih]; grind
    · rw [ih]; grind

/-- Read after write, byte by byte. -/
@[simp] theorem byteAt_setByte (m : Memory) (a : Nat) (v : Byte) (x : Nat) :
    Memory.byteAt (Memory.setByte m a v) x = if x = a then v else Memory.byteAt m x := by
  rw [Memory.setByte]
  split
  · next h => rw [byteAt_filter_ne, h]; rfl
  · exact byteAt_insert m a v x

theorem byteAt_writeBytes (m : Memory) (a : Nat) (f : Nat → Byte) (n x : Nat) :
    Memory.byteAt (Memory.writeBytes m a f n) x = if a ≤ x ∧ x < a + n then f (x - a) else Memory.byteAt m x := by
  induction n with
  | zero => rw [Memory.writeBytes, if_neg (by omega)]
  | succ n ih =>
    rw [Memory.writeBytes, byteAt_setByte, ih]
    by_cases h : x = a + n
    · rw [if_pos h, if_pos (by omega), h, Nat.add_sub_cancel_left]
    · rw [if_neg h]
      by_cases h2 : a ≤ x ∧ x < a + n
      · rw [if_pos h2, if_pos (by omega)]
      · rw [if_neg h2, if_neg (by omega)]

/-! ### The canonical form -/

theorem wf_nil : Memory.wf [] := by simp [Memory.wf]

theorem mem_insert (m : Memory) (a : Nat) (v : Byte) (x : Host.Cell) (h : x ∈ Memory.insert m a v) :
    x = (a, v) ∨ x ∈ m := by
  induction m with
  | nil => simpa [Memory.insert] using h
  | cons c rest ih =>
    obtain ⟨b, w⟩ := c
    rw [Memory.insert] at h
    split at h
    · simpa using h
    · split at h <;> simp only [List.mem_cons] at h ⊢ <;> rcases h with h | h
      · exact Or.inl h
      · exact Or.inr (Or.inr h)
      · exact Or.inr (Or.inl h)
      · exact (ih h).imp_right Or.inr

theorem wf_insert (m : Memory) (a : Nat) (v : Byte) (hm : Memory.wf m) (hv : v ≠ Memory.unlisted) :
    Memory.wf (Memory.insert m a v) := by
  refine ⟨?_, fun x hx => ?_⟩
  · obtain ⟨hs, -⟩ := hm
    induction m with
    | nil => simp [Memory.insert]
    | cons c rest ih =>
      obtain ⟨b, w⟩ := c
      rw [List.pairwise_cons] at hs
      rw [Memory.insert]
      split
      · next h =>
        rw [List.pairwise_cons, List.pairwise_cons]
        refine ⟨fun y hy => ?_, hs⟩
        rcases List.mem_cons.1 hy with rfl | hy
        · exact h
        · exact Nat.lt_trans h (hs.1 y hy)
      · next h =>
        split
        · next h2 => subst h2; exact List.pairwise_cons.2 hs
        · next h2 =>
          refine List.pairwise_cons.2 ⟨fun y hy => ?_, ih hs.2⟩
          rcases mem_insert rest a v y hy with rfl | hy
          · show b < a; omega
          · exact hs.1 y hy
  · rcases mem_insert m a v x hx with rfl | hx
    · exact hv
    · exact hm.2 x hx

/-- A byte write keeps the canonical form. -/
theorem wf_setByte (m : Memory) (a : Nat) (v : Byte) (hm : Memory.wf m) : Memory.wf (Memory.setByte m a v) := by
  rw [Memory.setByte]
  split
  · exact ⟨hm.1.filter _, fun x hx => hm.2 x (List.mem_of_mem_filter hx)⟩
  · next h => exact wf_insert m a v hm h

theorem wf_writeBytes (m : Memory) (a : Nat) (f : Nat → Byte) (n : Nat) (hm : Memory.wf m) :
    Memory.wf (Memory.writeBytes m a f n) := by
  induction n with
  | zero => exact hm
  | succ n ih => exact wf_setByte _ _ _ ih

theorem wf_setBit (m : Memory) (k : Nat) (x : Bool) (hm : Memory.wf m) : Memory.wf (Memory.setBit m k x) :=
  wf_setByte _ _ _ hm

theorem wf_setGranule (m : Memory) (g : Nat) (v : Scalar) (hm : Memory.wf m) : Memory.wf (Memory.setGranule m g v) :=
  wf_writeBytes _ _ _ _ hm

theorem wf_setVec (m : Memory) (j : Nat) (w : Vec) (hm : Memory.wf m) : Memory.wf (Memory.setVec m j w) :=
  wf_writeBytes _ _ _ _ hm

theorem wf_unpacked (m : Memory) (b : Nat) (w : Vec) (hm : Memory.wf m) : Memory.wf (Memory.unpacked m b w) :=
  wf_writeBytes _ _ _ _ hm

theorem wf_ofDraws (first n : Nat) : Memory.wf (Memory.ofDraws first n) := by
  induction n with
  | zero => exact wf_nil
  | succ n ih => exact wf_setGranule _ _ _ ih

theorem wf_foldl {α : Type} (l : List α) (f : Memory → α → Memory) (m : Memory) (hm : Memory.wf m)
    (hf : ∀ m x, Memory.wf m → Memory.wf (f m x)) : Memory.wf (l.foldl f m) := by
  induction l generalizing m with
  | nil => exact hm
  | cons x l ih => exact ih _ (hf _ _ hm)

theorem wf_xorRegion (m : Memory) (d e c : Nat) (hm : Memory.wf m) : Memory.wf (Memory.xorRegion m d e c) :=
  wf_foldl _ _ _ hm fun _ _ h => wf_setByte _ _ _ h

/-- A relocation gives a canonical store, whatever it starts from. -/
theorem wf_relocate (move : Nat → Nat) (m : Memory) : Memory.wf (Memory.relocate move m) :=
  wf_foldl _ _ _ wf_nil fun _ _ h => wf_setBit _ _ _ h

theorem byteAt_of_mem (m : Memory) (hm : Memory.wf m) (x : Host.Cell) (hx : x ∈ m) : Memory.byteAt m x.1 = x.2 := by
  induction m with
  | nil => cases hx
  | cons c rest ih =>
    obtain ⟨⟨hc, hr⟩, hz⟩ := And.imp_left List.pairwise_cons.1 hm
    rcases List.mem_cons.1 hx with rfl | hx
    · simp [Memory.byteAt]
    · rw [Memory.byteAt, if_neg (Nat.ne_of_lt (hc x hx))]
      exact ih ⟨hr, fun y hy => hz y (List.mem_cons_of_mem _ hy)⟩ hx

/-- Equal canonical stores are equal data: two that read alike at every byte are one. -/
theorem memory_ext (m m' : Memory) (hm : Memory.wf m) (hm' : Memory.wf m')
    (h : ∀ a, Memory.byteAt m a = Memory.byteAt m' a) : m = m' := by
  have key : ∀ {p q : Memory}, Memory.wf p → Memory.wf q → (∀ a, Memory.byteAt p a = Memory.byteAt q a) →
      ∀ x ∈ p, x ∈ q := by
    intro p q hp hq hpq x hx
    have hb := byteAt_of_mem p hp x hx
    obtain ⟨y, hy, he⟩ := mem_of_byteAt_ne q x.1 (by rw [← hpq, hb]; exact hp.2 x hx)
    have := byteAt_of_mem q hq y hy
    rw [he, ← hpq, hb] at this
    rwa [show x = y from Prod.ext he.symm this]
  have nd : ∀ {p : Memory}, Memory.wf p → p.Nodup := fun hp =>
    hp.1.imp fun hlt he => absurd (he ▸ hlt) (Nat.lt_irrefl _)
  refine List.Perm.eq_of_pairwise (le := fun x y : Host.Cell => x.1 < y.1) ?_ hm.1 hm'.1
    ((List.perm_ext_iff_of_nodup (nd hm) (nd hm')).2 fun x => ⟨key hm hm' h x, key hm' hm (fun a => (h a).symm) x⟩)
  intro a b _ _ h1 h2
  omega

/-! ### Bits -/

theorem getLsbD_byteWithBit (v : Byte) (i : Nat) (x : Bool) (t : Nat) (ht : t < 8) (hi : i < 8) :
    (byteWithBit v i x).getLsbD t = if t = i then x else v.getLsbD t := by
  rw [byteWithBit]
  cases x <;> by_cases h : t = i <;> simp [h, ht, hi]

/-- Read after write, bit by bit: SETB's effect on the store. -/
@[simp] theorem bitAt_setBit (m : Memory) (k : Nat) (x : Bool) (t : Nat) :
    Memory.bitAt (Memory.setBit m k x) t = if t = k then x else Memory.bitAt m t := by
  rw [Memory.bitAt, Memory.setBit, byteAt_setByte]
  by_cases h : t / 8 = k / 8
  · rw [if_pos h, getLsbD_byteWithBit _ _ _ _ (Nat.mod_lt _ (by omega)) (Nat.mod_lt _ (by omega)), Memory.bitAt, h]
    by_cases h2 : t = k
    · simp [h2]
    · rw [if_neg h2, if_neg (by omega)]
  · rw [if_neg h, if_neg (by rintro rfl; exact h rfl), Memory.bitAt]

/-- The bits of a byte. -/
theorem getLsbD_byteAt (m : Memory) (a i : Nat) (hi : i < 8) :
    (Memory.byteAt m a).getLsbD i = Memory.bitAt m (8 * a + i) := by
  rw [Memory.bitAt]
  congr 2 <;> omega

/-- Two stores with the same bits have the same bytes. -/
theorem byteAt_eq_of_bits (m m' : Memory) (a : Nat)
    (h : ∀ i < 8, Memory.bitAt m (8 * a + i) = Memory.bitAt m' (8 * a + i)) :
    Memory.byteAt m a = Memory.byteAt m' a := by
  apply BitVec.eq_of_getLsbD_eq
  intro i hi
  rw [getLsbD_byteAt _ _ _ hi, getLsbD_byteAt _ _ _ hi, h i hi]

/-- Canonical stores with the same bits are equal. -/
theorem memory_ext_bits (m m' : Memory) (hm : Memory.wf m) (hm' : Memory.wf m')
    (h : ∀ k, Memory.bitAt m k = Memory.bitAt m' k) : m = m' :=
  memory_ext m m' hm hm' fun a => byteAt_eq_of_bits m m' a fun _ _ => h _

/-- `M[j][t] = Bit(256*j + t)` (20_memory.md R51). -/
theorem getLsbD_vec (m : Memory) (j t : Nat) :
    (Memory.vec m j).getLsbD t = (decide (t < 256) && Memory.bitAt m (256 * j + t)) := by
  rw [Memory.vec, getLsbD_ofParts (by omega) _ 32 256 t rfl, getLsbD_byteAt _ _ _ (Nat.mod_lt _ (by omega))]
  congr 2; omega

/-- `Granule(g)[t] = Bit(64*g + t)` (20_memory.md R51). -/
theorem getLsbD_granule (m : Memory) (g t : Nat) :
    (Memory.granule m g).getLsbD t = (decide (t < 64) && Memory.bitAt m (64 * g + t)) := by
  rw [Memory.granule, getLsbD_ofParts (by omega) _ 8 64 t rfl, getLsbD_byteAt _ _ _ (Nat.mod_lt _ (by omega))]
  congr 2; omega

theorem bitAt_writeBytes (m : Memory) (a : Nat) (f : Nat → Byte) (n k : Nat) :
    Memory.bitAt (Memory.writeBytes m a f n) k =
      if 8 * a ≤ k ∧ k < 8 * (a + n) then (f (k / 8 - a)).getLsbD (k % 8) else Memory.bitAt m k := by
  rw [Memory.bitAt, byteAt_writeBytes, Memory.bitAt]
  by_cases h : a ≤ k / 8 ∧ k / 8 < a + n
  · rw [if_pos h, if_pos (by omega)]
  · rw [if_neg h, if_neg (by omega)]

/-- SETW's effect on the store, bit by bit. -/
theorem bitAt_setGranule (m : Memory) (g : Nat) (v : Scalar) (k : Nat) :
    Memory.bitAt (Memory.setGranule m g v) k =
      if k / 64 = g then v.getLsbD (k % 64) else Memory.bitAt m k := by
  rw [Memory.setGranule, bitAt_writeBytes]
  by_cases h : k / 64 = g
  · rw [if_pos h, if_pos (by omega), BitVec.getLsbD_extractLsb']
    simp only [show k % 8 < 8 by omega, decide_true, Bool.true_and]
    congr 1; omega
  · rw [if_neg h, if_neg (by omega)]

/-- VST's effect on the store, bit by bit. -/
theorem bitAt_setVec (m : Memory) (j : Nat) (w : Vec) (k : Nat) :
    Memory.bitAt (Memory.setVec m j w) k = if k / 256 = j then w.getLsbD (k % 256) else Memory.bitAt m k := by
  rw [Memory.setVec, bitAt_writeBytes]
  by_cases h : k / 256 = j
  · rw [if_pos h, if_pos (by omega), BitVec.getLsbD_extractLsb']
    simp only [show k % 8 < 8 by omega, decide_true, Bool.true_and]
    congr 1; omega
  · rw [if_neg h, if_neg (by omega)]

theorem vec_eq_iff (m m' : Memory) (j j' : Nat) :
    Memory.vec m j = Memory.vec m' j' ↔ ∀ t < 256, Memory.bitAt m (256 * j + t) = Memory.bitAt m' (256 * j' + t) := by
  constructor
  · intro h t ht
    have := congrArg (fun v : Vec => v.getLsbD t) h
    simpa only [getLsbD_vec, ht, decide_true, Bool.true_and] using this
  · intro h
    apply BitVec.eq_of_getLsbD_eq
    intro t ht
    rw [getLsbD_vec, getLsbD_vec, h t ht]

theorem vec_eq_iff_bytes (m m' : Memory) (j j' : Nat) :
    Memory.vec m j = Memory.vec m' j' ↔ ∀ i < 32, Memory.byteAt m (32 * j + i) = Memory.byteAt m' (32 * j' + i) := by
  rw [vec_eq_iff]
  constructor
  · intro h i hi
    apply BitVec.eq_of_getLsbD_eq
    intro t ht
    rw [getLsbD_byteAt _ _ _ ht, getLsbD_byteAt _ _ _ ht]
    have := h (8 * i + t) (by omega)
    rwa [show 256 * j + (8 * i + t) = 8 * (32 * j + i) + t by ring,
      show 256 * j' + (8 * i + t) = 8 * (32 * j' + i) + t by ring] at this
  · intro h t ht
    have := h (t / 8) (by omega)
    have h1 : 256 * j + t = 8 * (32 * j + t / 8) + t % 8 := by omega
    have h2 : 256 * j' + t = 8 * (32 * j' + t / 8) + t % 8 := by omega
    rw [h1, h2, ← getLsbD_byteAt _ _ _ (by omega), ← getLsbD_byteAt _ _ _ (by omega), this]

/-- The store before any cell is written reads as zero everywhere. -/
@[simp] theorem bitAt_nil (k : Nat) : Memory.bitAt [] k = false := by
  simp [Memory.bitAt, Memory.byteAt, Memory.unlisted]

/-! ### Relocation -/

/-- The listed ones are exactly the bits that read one. -/
theorem mem_onesOf (m : Memory) (p : Nat) : p ∈ Memory.onesOf m ↔ Memory.bitAt m p = true := by
  simp only [Memory.onesOf, List.mem_flatMap, List.mem_filter, List.mem_range'_1]
  constructor
  · rintro ⟨x, -, -, h⟩; exact h
  · intro h
    have hne : Memory.byteAt m (p / 8) ≠ 0#8 := by
      intro h0
      rw [Memory.bitAt, h0] at h
      simp at h
    obtain ⟨x, hx, he⟩ := mem_of_byteAt_ne m (p / 8) hne
    exact ⟨x, hx, by omega, h⟩

theorem bitAt_foldl_setBit (l : List Nat) (move : Nat → Nat) (m : Memory) (q : Nat) :
    Memory.bitAt (l.foldl (fun acc p => Memory.setBit acc (move p) true) m) q = true ↔
      (∃ p ∈ l, move p = q) ∨ Memory.bitAt m q = true := by
  induction l generalizing m with
  | nil => simp
  | cons p l ih =>
    rw [List.foldl_cons, ih, bitAt_setBit]
    by_cases h : q = move p
    · simp [h]
    · simp [h, Ne.symm (Ne.intro h)]

/-- What a relocation does: a bit of the result is one exactly when a one was moved there. -/
theorem bitAt_relocate_iff (move : Nat → Nat) (m : Memory) (q : Nat) :
    Memory.bitAt (Memory.relocate move m) q = true ↔ ∃ p, Memory.bitAt m p = true ∧ move p = q := by
  simp [Memory.relocate, bitAt_foldl_setBit, mem_onesOf]

/-- `new[move p] = old[p]`, where nothing else is moved to that place. -/
theorem bitAt_relocate (move : Nat → Nat) (hinj : Function.Injective move) (m : Memory) (p : Nat) :
    Memory.bitAt (Memory.relocate move m) (move p) = Memory.bitAt m p := by
  rw [Bool.eq_iff_iff, bitAt_relocate_iff]
  exact ⟨fun ⟨x, hx, he⟩ => hinj he ▸ hx, fun h => ⟨p, h, rfl⟩⟩

/-- For a move that undoes itself, `new[q] = old[move q]`. -/
theorem bitAt_relocate_involutive (move : Nat → Nat) (h : Function.Involutive move) (m : Memory) (q : Nat) :
    Memory.bitAt (Memory.relocate move m) q = Memory.bitAt m (move q) := by
  have := bitAt_relocate move h.injective m (move q)
  rwa [h q] at this

/-- Two relocations one after the other are the relocation of the composition. -/
theorem relocate_relocate (f g : Nat → Nat) (m : Memory) :
    Memory.relocate g (Memory.relocate f m) = Memory.relocate (g ∘ f) m := by
  apply memory_ext_bits _ _ (wf_relocate _ _) (wf_relocate _ _)
  intro q
  rw [Bool.eq_iff_iff]
  simp only [bitAt_relocate_iff, Function.comp]
  exact ⟨fun ⟨p, ⟨r, hr, he⟩, hp⟩ => ⟨r, hr, he ▸ hp⟩, fun ⟨r, hr, he⟩ => ⟨f r, ⟨r, hr, rfl⟩, he⟩⟩

/-! ### Regions -/

theorem inRegion_iff (base c a : Nat) : inRegion base c a = true ↔ 32 * base ≤ a ∧ a < 32 * (base + c) := by
  simp [inRegion]

/-- ANYNZ's reduction: some vector of the region is not zero. -/
theorem regionNonzero_iff (m : Memory) (b c : Nat) :
    Memory.regionNonzero m b c = true ↔ ∃ i < c, Memory.vec m (b + i) ≠ 0#256 := by
  have hz : ∀ j, Memory.vec m j ≠ 0#256 ↔ ∃ i < 32, Memory.byteAt m (32 * j + i) ≠ 0#8 := by
    intro j
    have h0 : Memory.vec [] 0 = 0#256 := by decide
    rw [← h0, Ne, vec_eq_iff_bytes]
    simp [Memory.byteAt, Memory.unlisted]
  simp only [hz, Memory.regionNonzero, List.any_eq_true, Bool.and_eq_true, inRegion_iff, bne_iff_ne]
  constructor
  · rintro ⟨x, -, h, hx⟩
    refine ⟨x.1 / 32 - b, by omega, x.1 % 32, by omega, ?_⟩
    rwa [show 32 * (b + (x.1 / 32 - b)) + x.1 % 32 = x.1 by omega]
  · rintro ⟨i, hi, t, ht, h⟩
    obtain ⟨x, hx, he⟩ := mem_of_byteAt_ne m _ h
    exact ⟨x, hx, by omega, by rwa [he]⟩

/-- SEQ's comparison: the two regions agree vector by vector. -/
theorem regionsEqual_iff (m : Memory) (a b c : Nat) :
    Memory.regionsEqual m a b c = true ↔ ∀ i < c, Memory.vec m (a + i) = Memory.vec m (b + i) := by
  have hb : (∀ i < c, Memory.vec m (a + i) = Memory.vec m (b + i)) ↔
      ∀ t < 32 * c, Memory.byteAt m (32 * a + t) = Memory.byteAt m (32 * b + t) := by
    simp only [vec_eq_iff_bytes]
    constructor
    · intro h t ht
      have := h (t / 32) (by omega) (t % 32) (by omega)
      rwa [show 32 * (a + t / 32) + t % 32 = 32 * a + t by omega,
        show 32 * (b + t / 32) + t % 32 = 32 * b + t by omega] at this
    · intro h i hi t ht
      have := h (32 * i + t) (by omega)
      rwa [show 32 * (a + i) + t = 32 * a + (32 * i + t) by ring,
        show 32 * (b + i) + t = 32 * b + (32 * i + t) by ring]
  rw [hb, Memory.regionsEqual, List.all_eq_true]
  simp only [Bool.and_eq_true, Bool.or_eq_true, Bool.not_eq_true', beq_iff_eq]
  constructor
  · intro h t ht
    by_cases h1 : Memory.byteAt m (32 * a + t) = 0#8
    · by_cases h2 : Memory.byteAt m (32 * b + t) = 0#8
      · rw [h1, h2]
      · obtain ⟨x, hx, he⟩ := mem_of_byteAt_ne m _ h2
        have := (h x hx).2
        rw [he, show 32 * b + t - 32 * b = t by omega] at this
        rcases this with h3 | h3
        · rw [Bool.eq_false_iff, Ne, inRegion_iff] at h3
          exact absurd ⟨by omega, by omega⟩ h3
        · exact h3.symm
    · obtain ⟨x, hx, he⟩ := mem_of_byteAt_ne m _ h1
      have := (h x hx).1
      rw [he, show 32 * a + t - 32 * a = t by omega] at this
      rcases this with h3 | h3
      · rw [Bool.eq_false_iff, Ne, inRegion_iff] at h3
        exact absurd ⟨by omega, by omega⟩ h3
      · exact h3
  · intro h x _
    constructor
    · by_cases h1 : inRegion a c x.1 = true
      · rw [inRegion_iff] at h1
        have := h (x.1 - 32 * a) (by omega)
        rw [show 32 * a + (x.1 - 32 * a) = x.1 by omega] at this
        exact Or.inr this
      · exact Or.inl (by simpa using h1)
    · by_cases h1 : inRegion b c x.1 = true
      · rw [inRegion_iff] at h1
        have := h (x.1 - 32 * b) (by omega)
        rw [show 32 * b + (x.1 - 32 * b) = x.1 by omega] at this
        exact Or.inr this.symm
      · exact Or.inl (by simpa using h1)

theorem byteAt_foldl_setByte {α : Type} (l : List α) (addr : α → Nat) (val : Nat → Byte) (m : Memory) (a : Nat) :
    Memory.byteAt (l.foldl (fun acc x => Memory.setByte acc (addr x) (val (addr x))) m) a =
      if ∃ x ∈ l, addr x = a then val a else Memory.byteAt m a := by
  induction l generalizing m with
  | nil => simp
  | cons x l ih =>
    rw [List.foldl_cons, ih, byteAt_setByte]
    by_cases h : ∃ y ∈ l, addr y = a
    · rw [if_pos h, if_pos]
      obtain ⟨y, hy, he⟩ := h
      exact ⟨y, List.mem_cons_of_mem _ hy, he⟩
    · rw [if_neg h]
      by_cases h2 : a = addr x
      · rw [if_pos h2, if_pos ⟨x, List.mem_cons_self, h2.symm⟩, h2]
      · rw [if_neg h2, if_neg]
        rintro ⟨y, hy, he⟩
        rcases List.mem_cons.1 hy with rfl | hy
        · exact h2 he.symm
        · exact h ⟨y, hy, he⟩

/-- XORM's effect, byte by byte: `new[d region] = old[d region] xor old[e region]`, all else kept. -/
theorem byteAt_xorRegion (m : Memory) (d e c a : Nat) :
    Memory.byteAt (Memory.xorRegion m d e c) a =
      if 32 * d ≤ a ∧ a < 32 * (d + c) then Memory.byteAt m a ^^^ Memory.byteAt m (32 * e + (a - 32 * d))
      else Memory.byteAt m a := by
  have hfold : Memory.xorRegion m d e c =
      ((m.filter fun x => inRegion e c x.1).foldl (fun acc x => Memory.setByte acc (32 * d + (x.1 - 32 * e))
        ((fun y => Memory.byteAt m y ^^^ Memory.byteAt m (32 * e + (y - 32 * d))) (32 * d + (x.1 - 32 * e)))) m) := by
    unfold Memory.xorRegion
    refine List.foldl_ext _ _ _ ?_
    intro acc x hx
    obtain ⟨-, hr⟩ := List.mem_filter.1 hx
    rw [inRegion_iff] at hr
    simp only
    rw [show 32 * e + (32 * d + (x.1 - 32 * e) - 32 * d) = x.1 by omega]
  rw [hfold, byteAt_foldl_setByte _ (fun x : Host.Cell => 32 * d + (x.1 - 32 * e))
    (fun y => Memory.byteAt m y ^^^ Memory.byteAt m (32 * e + (y - 32 * d)))]
  by_cases h : 32 * d ≤ a ∧ a < 32 * (d + c)
  · rw [if_pos h]
    split
    · rfl
    · next hn =>
      have : Memory.byteAt m (32 * e + (a - 32 * d)) = 0#8 := by
        by_contra hc
        obtain ⟨x, hx, he⟩ := mem_of_byteAt_ne m _ hc
        exact hn ⟨x, List.mem_filter.2 ⟨hx, (inRegion_iff _ _ _).2 (by omega)⟩, by omega⟩
      rw [this, BitVec.xor_zero]
  · rw [if_neg h, if_neg]
    rintro ⟨x, hx, he⟩
    obtain ⟨-, hr⟩ := List.mem_filter.1 hx
    rw [inRegion_iff] at hr
    omega

/-- XORM's effect, vector by vector (43_lane_arithmetic.md R154). -/
theorem vec_xorRegion (m : Memory) (d e c j : Nat) :
    Memory.vec (Memory.xorRegion m d e c) j =
      if d ≤ j ∧ j < d + c then Memory.vec m j ^^^ Memory.vec m (e + (j - d)) else Memory.vec m j := by
  apply BitVec.eq_of_getLsbD_eq
  intro t ht
  have hb : Memory.bitAt (Memory.xorRegion m d e c) (256 * j + t) =
      if d ≤ j ∧ j < d + c then
        (Memory.bitAt m (256 * j + t)).xor (Memory.bitAt m (256 * (e + (j - d)) + t))
      else Memory.bitAt m (256 * j + t) := by
    simp only [Memory.bitAt]
    rw [byteAt_xorRegion]
    by_cases h : d ≤ j ∧ j < d + c
    · rw [if_pos h, if_pos (by omega), BitVec.getLsbD_xor]
      congr 2 <;> [congr 1; skip] <;> omega
    · rw [if_neg h, if_neg (by omega)]
  rw [getLsbD_vec, hb]
  split <;> simp only [getLsbD_vec, ht, decide_true, Bool.true_and, BitVec.getLsbD_xor]

/-- SRAND's store: granule `g` holds the `g`-th word drawn (41_bitstore.md R121). -/
theorem bitAt_ofDraws (first n k : Nat) :
    Memory.bitAt (Memory.ofDraws first n) k =
      (decide (k < 64 * n) && (Config.rng64 (first + k / 64)).getLsbD (k % 64)) := by
  induction n with
  | zero => simp [Memory.ofDraws]
  | succ n ih =>
    rw [Memory.ofDraws, bitAt_setGranule, ih]
    by_cases h : k / 64 = n
    · rw [if_pos h, h]
      simp [show k < 64 * (n + 1) by omega]
    · rw [if_neg h]
      congr 1
      simp only [decide_eq_decide]
      omega

theorem granule_ofDraws (first n g : Nat) (h : g < n) :
    Memory.granule (Memory.ofDraws first n) g = Config.rng64 (first + g) := by
  apply BitVec.eq_of_getLsbD_eq
  intro t ht
  rw [getLsbD_granule, bitAt_ofDraws]
  simp [ht, show 64 * g + t < 64 * n by omega, show (64 * g + t) / 64 = g by omega,
    show (64 * g + t) % 64 = t by omega]

end Sys2Proof.Laws
end

