-- ==== Sys2Proof/Laws/State.lean ====
section
/-! SUPPORT. One lemma per field per update of the state, true by rfl, and the laws of the register accessors, so that no
proof unfolds a record update. -/

namespace Sys2Proof.Laws

open Sys2Proof.Machine

/-! ### writeS -/

@[simp] theorem writeS_sreg (s : State) (r : SReg) (v : Scalar) : (s.writeS r v).sreg = s.sreg.set r.num.toNat v r.num.isLt := rfl
@[simp] theorem writeS_vreg (s : State) (r : SReg) (v : Scalar) : (s.writeS r v).vreg = s.vreg := rfl
@[simp] theorem writeS_pc (s : State) (r : SReg) (v : Scalar) : (s.writeS r v).pc = s.pc := rfl
@[simp] theorem writeS_runState (s : State) (r : SReg) (v : Scalar) : (s.writeS r v).runState = s.runState := rfl
@[simp] theorem writeS_cause (s : State) (r : SReg) (v : Scalar) : (s.writeS r v).cause = s.cause := rfl
@[simp] theorem writeS_finfo (s : State) (r : SReg) (v : Scalar) : (s.writeS r v).finfo = s.finfo := rfl
@[simp] theorem writeS_fpc (s : State) (r : SReg) (v : Scalar) : (s.writeS r v).fpc = s.fpc := rfl
@[simp] theorem writeS_cap (s : State) (r : SReg) (v : Scalar) : (s.writeS r v).cap = s.cap := rfl
@[simp] theorem writeS_capMax (s : State) (r : SReg) (v : Scalar) : (s.writeS r v).capMax = s.capMax := rfl
@[simp] theorem writeS_store (s : State) (r : SReg) (v : Scalar) : (s.writeS r v).store = s.store := rfl
@[simp] theorem writeS_program (s : State) (r : SReg) (v : Scalar) : (s.writeS r v).program = s.program := rfl
@[simp] theorem writeS_draws (s : State) (r : SReg) (v : Scalar) : (s.writeS r v).draws = s.draws := rfl
@[simp] theorem writeS_readV (s : State) (r : SReg) (v : Scalar) (x : VReg) : (s.writeS r v).readV x = s.readV x := rfl

/-! ### writeV -/

@[simp] theorem writeV_sreg (s : State) (r : VReg) (w : Vec) : (s.writeV r w).sreg = s.sreg := rfl
@[simp] theorem writeV_vreg (s : State) (r : VReg) (w : Vec) : (s.writeV r w).vreg = s.vreg.set r.num.toNat w r.num.isLt := rfl
@[simp] theorem writeV_pc (s : State) (r : VReg) (w : Vec) : (s.writeV r w).pc = s.pc := rfl
@[simp] theorem writeV_runState (s : State) (r : VReg) (w : Vec) : (s.writeV r w).runState = s.runState := rfl
@[simp] theorem writeV_cause (s : State) (r : VReg) (w : Vec) : (s.writeV r w).cause = s.cause := rfl
@[simp] theorem writeV_finfo (s : State) (r : VReg) (w : Vec) : (s.writeV r w).finfo = s.finfo := rfl
@[simp] theorem writeV_fpc (s : State) (r : VReg) (w : Vec) : (s.writeV r w).fpc = s.fpc := rfl
@[simp] theorem writeV_cap (s : State) (r : VReg) (w : Vec) : (s.writeV r w).cap = s.cap := rfl
@[simp] theorem writeV_capMax (s : State) (r : VReg) (w : Vec) : (s.writeV r w).capMax = s.capMax := rfl
@[simp] theorem writeV_store (s : State) (r : VReg) (w : Vec) : (s.writeV r w).store = s.store := rfl
@[simp] theorem writeV_program (s : State) (r : VReg) (w : Vec) : (s.writeV r w).program = s.program := rfl
@[simp] theorem writeV_draws (s : State) (r : VReg) (w : Vec) : (s.writeV r w).draws = s.draws := rfl
@[simp] theorem writeV_readS (s : State) (r : VReg) (w : Vec) (x : SReg) : (s.writeV r w).readS x = s.readS x := rfl

/-! ### setStore -/

@[simp] theorem setStore_sreg (s : State) (m : Memory) : (s.setStore m).sreg = s.sreg := rfl
@[simp] theorem setStore_vreg (s : State) (m : Memory) : (s.setStore m).vreg = s.vreg := rfl
@[simp] theorem setStore_pc (s : State) (m : Memory) : (s.setStore m).pc = s.pc := rfl
@[simp] theorem setStore_runState (s : State) (m : Memory) : (s.setStore m).runState = s.runState := rfl
@[simp] theorem setStore_cause (s : State) (m : Memory) : (s.setStore m).cause = s.cause := rfl
@[simp] theorem setStore_finfo (s : State) (m : Memory) : (s.setStore m).finfo = s.finfo := rfl
@[simp] theorem setStore_fpc (s : State) (m : Memory) : (s.setStore m).fpc = s.fpc := rfl
@[simp] theorem setStore_cap (s : State) (m : Memory) : (s.setStore m).cap = s.cap := rfl
@[simp] theorem setStore_capMax (s : State) (m : Memory) : (s.setStore m).capMax = s.capMax := rfl
@[simp] theorem setStore_store (s : State) (m : Memory) : (s.setStore m).store = m := rfl
@[simp] theorem setStore_program (s : State) (m : Memory) : (s.setStore m).program = s.program := rfl
@[simp] theorem setStore_draws (s : State) (m : Memory) : (s.setStore m).draws = s.draws := rfl
@[simp] theorem setStore_readS (s : State) (m : Memory) (x : SReg) : (s.setStore m).readS x = s.readS x := rfl
@[simp] theorem setStore_readV (s : State) (m : Memory) (x : VReg) : (s.setStore m).readV x = s.readV x := rfl

/-! ### newStore -/

@[simp] theorem newStore_sreg (s : State) (c : Nat) (m : Memory) : (s.newStore c m).sreg = s.sreg := rfl
@[simp] theorem newStore_vreg (s : State) (c : Nat) (m : Memory) : (s.newStore c m).vreg = s.vreg := rfl
@[simp] theorem newStore_pc (s : State) (c : Nat) (m : Memory) : (s.newStore c m).pc = s.pc := rfl
@[simp] theorem newStore_runState (s : State) (c : Nat) (m : Memory) : (s.newStore c m).runState = s.runState := rfl
@[simp] theorem newStore_cause (s : State) (c : Nat) (m : Memory) : (s.newStore c m).cause = s.cause := rfl
@[simp] theorem newStore_finfo (s : State) (c : Nat) (m : Memory) : (s.newStore c m).finfo = s.finfo := rfl
@[simp] theorem newStore_fpc (s : State) (c : Nat) (m : Memory) : (s.newStore c m).fpc = s.fpc := rfl
@[simp] theorem newStore_cap (s : State) (c : Nat) (m : Memory) : (s.newStore c m).cap = BitVec.ofNat 64 c := rfl
@[simp] theorem newStore_capMax (s : State) (c : Nat) (m : Memory) : (s.newStore c m).capMax = s.capMax := rfl
@[simp] theorem newStore_store (s : State) (c : Nat) (m : Memory) : (s.newStore c m).store = m := rfl
@[simp] theorem newStore_program (s : State) (c : Nat) (m : Memory) : (s.newStore c m).program = s.program := rfl
@[simp] theorem newStore_draws (s : State) (c : Nat) (m : Memory) : (s.newStore c m).draws = s.draws := rfl
@[simp] theorem newStore_readS (s : State) (c : Nat) (m : Memory) (x : SReg) : (s.newStore c m).readS x = s.readS x := rfl
@[simp] theorem newStore_readV (s : State) (c : Nat) (m : Memory) (x : VReg) : (s.newStore c m).readV x = s.readV x := rfl

/-! ### drew -/

@[simp] theorem drew_sreg (s : State) (n : Nat) : (s.drew n).sreg = s.sreg := rfl
@[simp] theorem drew_vreg (s : State) (n : Nat) : (s.drew n).vreg = s.vreg := rfl
@[simp] theorem drew_pc (s : State) (n : Nat) : (s.drew n).pc = s.pc := rfl
@[simp] theorem drew_runState (s : State) (n : Nat) : (s.drew n).runState = s.runState := rfl
@[simp] theorem drew_cause (s : State) (n : Nat) : (s.drew n).cause = s.cause := rfl
@[simp] theorem drew_finfo (s : State) (n : Nat) : (s.drew n).finfo = s.finfo := rfl
@[simp] theorem drew_fpc (s : State) (n : Nat) : (s.drew n).fpc = s.fpc := rfl
@[simp] theorem drew_cap (s : State) (n : Nat) : (s.drew n).cap = s.cap := rfl
@[simp] theorem drew_capMax (s : State) (n : Nat) : (s.drew n).capMax = s.capMax := rfl
@[simp] theorem drew_store (s : State) (n : Nat) : (s.drew n).store = s.store := rfl
@[simp] theorem drew_program (s : State) (n : Nat) : (s.drew n).program = s.program := rfl
@[simp] theorem drew_draws (s : State) (n : Nat) : (s.drew n).draws = s.draws + n := rfl
@[simp] theorem drew_readS (s : State) (n : Nat) (x : SReg) : (s.drew n).readS x = s.readS x := rfl
@[simp] theorem drew_readV (s : State) (n : Nat) (x : VReg) : (s.drew n).readV x = s.readV x := rfl

/-! ### advance -/

@[simp] theorem advance_sreg (s : State) : (s.advance).sreg = s.sreg := rfl
@[simp] theorem advance_vreg (s : State) : (s.advance).vreg = s.vreg := rfl
@[simp] theorem advance_pc (s : State) : (s.advance).pc = s.pc + 1#32 := rfl
@[simp] theorem advance_runState (s : State) : (s.advance).runState = s.runState := rfl
@[simp] theorem advance_cause (s : State) : (s.advance).cause = s.cause := rfl
@[simp] theorem advance_finfo (s : State) : (s.advance).finfo = s.finfo := rfl
@[simp] theorem advance_fpc (s : State) : (s.advance).fpc = s.fpc := rfl
@[simp] theorem advance_cap (s : State) : (s.advance).cap = s.cap := rfl
@[simp] theorem advance_capMax (s : State) : (s.advance).capMax = s.capMax := rfl
@[simp] theorem advance_store (s : State) : (s.advance).store = s.store := rfl
@[simp] theorem advance_program (s : State) : (s.advance).program = s.program := rfl
@[simp] theorem advance_draws (s : State) : (s.advance).draws = s.draws := rfl
@[simp] theorem advance_readS (s : State) (x : SReg) : (s.advance).readS x = s.readS x := rfl
@[simp] theorem advance_readV (s : State) (x : VReg) : (s.advance).readV x = s.readV x := rfl

/-! ### halt -/

@[simp] theorem halt_sreg (s : State) : (s.halt).sreg = s.sreg := rfl
@[simp] theorem halt_vreg (s : State) : (s.halt).vreg = s.vreg := rfl
@[simp] theorem halt_pc (s : State) : (s.halt).pc = s.pc := rfl
@[simp] theorem halt_runState (s : State) : (s.halt).runState = .halted := rfl
@[simp] theorem halt_cause (s : State) : (s.halt).cause = s.cause := rfl
@[simp] theorem halt_finfo (s : State) : (s.halt).finfo = s.finfo := rfl
@[simp] theorem halt_fpc (s : State) : (s.halt).fpc = s.fpc := rfl
@[simp] theorem halt_cap (s : State) : (s.halt).cap = s.cap := rfl
@[simp] theorem halt_capMax (s : State) : (s.halt).capMax = s.capMax := rfl
@[simp] theorem halt_store (s : State) : (s.halt).store = s.store := rfl
@[simp] theorem halt_program (s : State) : (s.halt).program = s.program := rfl
@[simp] theorem halt_draws (s : State) : (s.halt).draws = s.draws := rfl
@[simp] theorem halt_readS (s : State) (x : SReg) : (s.halt).readS x = s.readS x := rfl
@[simp] theorem halt_readV (s : State) (x : VReg) : (s.halt).readV x = s.readV x := rfl

/-! ### raise -/

@[simp] theorem raise_sreg (s : State) (c : Cause) (info : BitVec 64) : (s.raise c info).sreg = s.sreg := rfl
@[simp] theorem raise_vreg (s : State) (c : Cause) (info : BitVec 64) : (s.raise c info).vreg = s.vreg := rfl
@[simp] theorem raise_pc (s : State) (c : Cause) (info : BitVec 64) : (s.raise c info).pc = s.pc := rfl
@[simp] theorem raise_runState (s : State) (c : Cause) (info : BitVec 64) : (s.raise c info).runState = .faulted := rfl
@[simp] theorem raise_cause (s : State) (c : Cause) (info : BitVec 64) : (s.raise c info).cause = c := rfl
@[simp] theorem raise_finfo (s : State) (c : Cause) (info : BitVec 64) : (s.raise c info).finfo = info := rfl
@[simp] theorem raise_fpc (s : State) (c : Cause) (info : BitVec 64) : (s.raise c info).fpc = s.pc := rfl
@[simp] theorem raise_cap (s : State) (c : Cause) (info : BitVec 64) : (s.raise c info).cap = s.cap := rfl
@[simp] theorem raise_capMax (s : State) (c : Cause) (info : BitVec 64) : (s.raise c info).capMax = s.capMax := rfl
@[simp] theorem raise_store (s : State) (c : Cause) (info : BitVec 64) : (s.raise c info).store = s.store := rfl
@[simp] theorem raise_program (s : State) (c : Cause) (info : BitVec 64) : (s.raise c info).program = s.program := rfl
@[simp] theorem raise_draws (s : State) (c : Cause) (info : BitVec 64) : (s.raise c info).draws = s.draws := rfl
@[simp] theorem raise_readS (s : State) (c : Cause) (info : BitVec 64) (x : SReg) : (s.raise c info).readS x = s.readS x := rfl
@[simp] theorem raise_readV (s : State) (c : Cause) (info : BitVec 64) (x : VReg) : (s.raise c info).readV x = s.readV x := rfl

/-! ### toRunning -/

@[simp] theorem toRunning_sreg (s : State) : (s.toRunning).sreg = s.sreg := rfl
@[simp] theorem toRunning_vreg (s : State) : (s.toRunning).vreg = s.vreg := rfl
@[simp] theorem toRunning_pc (s : State) : (s.toRunning).pc = 0#32 := rfl
@[simp] theorem toRunning_runState (s : State) : (s.toRunning).runState = .running := rfl
@[simp] theorem toRunning_cause (s : State) : (s.toRunning).cause = s.cause := rfl
@[simp] theorem toRunning_finfo (s : State) : (s.toRunning).finfo = s.finfo := rfl
@[simp] theorem toRunning_fpc (s : State) : (s.toRunning).fpc = s.fpc := rfl
@[simp] theorem toRunning_cap (s : State) : (s.toRunning).cap = s.cap := rfl
@[simp] theorem toRunning_capMax (s : State) : (s.toRunning).capMax = s.capMax := rfl
@[simp] theorem toRunning_store (s : State) : (s.toRunning).store = s.store := rfl
@[simp] theorem toRunning_program (s : State) : (s.toRunning).program = s.program := rfl
@[simp] theorem toRunning_draws (s : State) : (s.toRunning).draws = s.draws := rfl
@[simp] theorem toRunning_readS (s : State) (x : SReg) : (s.toRunning).readS x = s.readS x := rfl
@[simp] theorem toRunning_readV (s : State) (x : VReg) : (s.toRunning).readV x = s.readV x := rfl

/-! ### toReset -/

@[simp] theorem toReset_sreg (s : State) : (s.toReset).sreg = Vector.replicate 16 0#64 := rfl
@[simp] theorem toReset_vreg (s : State) : (s.toReset).vreg = Vector.replicate 16 0#256 := rfl
@[simp] theorem toReset_pc (s : State) : (s.toReset).pc = 0#32 := rfl
@[simp] theorem toReset_runState (s : State) : (s.toReset).runState = .idle := rfl
@[simp] theorem toReset_cause (s : State) : (s.toReset).cause = .none := rfl
@[simp] theorem toReset_finfo (s : State) : (s.toReset).finfo = 0#64 := rfl
@[simp] theorem toReset_fpc (s : State) : (s.toReset).fpc = 0#32 := rfl
@[simp] theorem toReset_cap (s : State) : (s.toReset).cap = 0#64 := rfl
@[simp] theorem toReset_capMax (s : State) : (s.toReset).capMax = s.capMax := rfl
@[simp] theorem toReset_store (s : State) : (s.toReset).store = [] := rfl
@[simp] theorem toReset_program (s : State) : (s.toReset).program = s.program := rfl
@[simp] theorem toReset_draws (s : State) : (s.toReset).draws = s.draws := rfl

/-! ### Register reads -/

theorem SReg.num_toNat_inj (x y : SReg) : x.num.toNat = y.num.toNat ↔ x = y := by
  constructor
  · intro h
    cases x; cases y
    exact congrArg _ (BitVec.eq_of_toNat_eq h)
  · rintro rfl; rfl

theorem VReg.num_toNat_inj (x y : VReg) : x.num.toNat = y.num.toNat ↔ x = y := by
  constructor
  · intro h
    cases x; cases y
    exact congrArg _ (BitVec.eq_of_toNat_eq h)
  · rintro rfl; rfl

/-- Read after write of the scalar registers (10_state.md R20). -/
@[simp] theorem writeS_readS (s : State) (r : SReg) (v : Scalar) (x : SReg) :
    (s.writeS r v).readS x = if x = r then v else s.readS x := by
  have hx : x.num.toNat < 16 := x.num.isLt
  have hr : r.num.toNat < 16 := r.num.isLt
  simp only [State.readS, State.writeS, Vector.getElem_set, SReg.num_toNat_inj, eq_comm]

/-- Read after write of the vector registers (10_state.md R21). -/
@[simp] theorem writeV_readV (s : State) (r : VReg) (w : Vec) (x : VReg) :
    (s.writeV r w).readV x = if x = r then w else s.readV x := by
  have hx : x.num.toNat < 16 := x.num.isLt
  have hr : r.num.toNat < 16 := r.num.isLt
  simp only [State.readV, State.writeV, Vector.getElem_set, VReg.num_toNat_inj, eq_comm]

/-- Every scalar register is zero after reset (10_state.md R37). -/
@[simp] theorem toReset_readS (s : State) (x : SReg) : s.toReset.readS x = 0#64 := by
  simp [State.readS]

/-- Every vector register is zero after reset (10_state.md R37). -/
@[simp] theorem toReset_readV (s : State) (x : VReg) : s.toReset.readV x = 0#256 := by
  simp [State.readV]

/-- The capacity in vectors depends on `CAP` alone. -/
theorem capV_congr (s t : State) (h : t.cap = s.cap) : t.capV = s.capV := by rw [State.capV, State.capV, h]

/-- A state is known by its registers, its store and the rest of its fields. -/
theorem state_ext (s t : State) (hs : ∀ r, t.readS r = s.readS r) (hv : ∀ r, t.readV r = s.readV r)
    (hpc : t.pc = s.pc) (h1 : t.runState = s.runState) (h2 : t.cause = s.cause) (h3 : t.finfo = s.finfo)
    (h4 : t.fpc = s.fpc) (h5 : t.cap = s.cap) (h6 : t.capMax = s.capMax) (h7 : t.store = s.store)
    (h8 : t.program = s.program) (h9 : t.draws = s.draws) : t = s := by
  have e1 : t.sreg = s.sreg := by
    apply Vector.ext
    intro i hi
    have := hs ⟨BitVec.ofNat 4 i⟩
    simpa [State.readS, Nat.mod_eq_of_lt hi] using this
  have e2 : t.vreg = s.vreg := by
    apply Vector.ext
    intro i hi
    have := hv ⟨BitVec.ofNat 4 i⟩
    simpa [State.readV, Nat.mod_eq_of_lt hi] using this
  cases s; cases t
  simp_all

end Sys2Proof.Laws
end

