-- ==== Sys2Proof/Laws/Frames.lean ====
section
/-! SUPPORT. What the shared ways to end a command do: one lemma for each frame of Safety.lean. -/

namespace Sys2Proof.Laws

open Sys2Proof.Machine

/-- A command that ends by writing one scalar register and advancing has that frame. -/
theorem wroteScalar_advance (s : State) (rd : SReg) (v : Scalar) : WroteScalar rd v s (s.writeS rd v).advance where
  value := by simp
  scalars r h := by simp [h]
  vectors _ := rfl
  store _ := rfl
  pc := rfl
  control := ⟨rfl, rfl, rfl, rfl, rfl, rfl, rfl, rfl⟩

/-- A command that ends by writing one vector register and advancing has that frame. -/
theorem wroteVector_advance (s : State) (vd : VReg) (w : Vec) : WroteVector vd w s (s.writeV vd w).advance where
  value := by simp
  vectors r h := by simp [h]
  scalars _ := rfl
  store _ := rfl
  pc := rfl
  control := ⟨rfl, rfl, rfl, rfl, rfl, rfl, rfl, rfl⟩

/-- A command that ends by replacing the store's contents and advancing has that frame. -/
theorem wroteStore_advance (touched : Nat → Prop) (s : State) (m : Memory)
    (h : ∀ a, ¬ touched a → Memory.byteAt m a = Memory.byteAt s.store a) :
    WroteStore touched s (s.setStore m).advance where
  scalars _ := rfl
  vectors _ := rfl
  outside := h
  pc := rfl
  control := ⟨rfl, rfl, rfl, rfl, rfl, rfl, rfl, rfl⟩

/-- Fault entry has its frame (60_exceptions.md R212). -/
theorem tookFault_raise (c : Cause) (info : BitVec 64) (s : State) : TookFault c info s (s.raise c info) where
  cause := rfl
  finfo := rfl
  fpc := rfl
  runState := rfl
  pc := rfl
  scalars _ := rfl
  vectors _ := rfl
  store _ := rfl
  cap := rfl
  capMax := rfl
  program := rfl
  draws := rfl

/-- A command that ends by making a new store of `c` bits and writing `c` to `rd` has that frame. -/
theorem builtStore_advance (s : State) (rd : SReg) (c n : Nat) (m : Memory) (hc : c < 2 ^ 64)
    (hm : ∀ k, c ≤ k → Memory.bitAt m k = false) :
    BuiltStore rd c s (((s.newStore c m).drew n).writeS rd (BitVec.ofNat 64 c)).advance where
  cap := Nat.mod_eq_of_lt hc
  value := by simpa using Nat.mod_eq_of_lt hc
  scalars r h := by simp [h]
  vectors _ := rfl
  beyond := hm
  pc := rfl
  runState := rfl
  cause := rfl
  finfo := rfl
  fpc := rfl
  capMax := rfl
  program := rfl

/-- Drawing no word changes nothing. -/
@[simp] theorem drew_zero (s : State) : s.drew 0 = s := rfl

end Sys2Proof.Laws
end

