-- ==== Sys2Proof/Laws/Operands.lean ====
section
/-! SUPPORT. One spec lemma per shared operand operation: sizes, immediates, lanes, and the moves of bit positions. -/

namespace Sys2Proof.Laws

open Sys2Proof.Machine

/-! ### Checks (20_memory.md R56) -/

theorem hasBit_iff (s : State) (k : Scalar) : s.hasBit k = true ↔ k.toNat < s.cap.toNat :=
  decide_eq_true_iff

theorem hasGranule_iff (s : State) (g : Scalar) : s.hasGranule g = true ↔ g.toNat < s.cap.toNat / 64 :=
  decide_eq_true_iff

theorem hasVec_iff (s : State) (j : Scalar) : s.hasVec j = true ↔ j.toNat < s.cap.toNat / 256 :=
  decide_eq_true_iff

theorem hasRegion_iff (s : State) (base : Scalar) (count : Nat) :
    s.hasRegion base count = true ↔ base.toNat + count ≤ s.cap.toNat / 256 :=
  decide_eq_true_iff

theorem hasBlock_iff (s : State) (base pitch : Scalar) :
    s.hasBlock base pitch = true ↔ base.toNat + 255 * pitch.toNat + 1 ≤ s.cap.toNat / 256 :=
  decide_eq_true_iff

/-! ### Sizes -/

/-- `ceil256(x)` is the smallest multiple of 256 that is not below `x` (40_control_scalar.md R113). -/
theorem ceil256_spec (x : Nat) :
    ceil256 x % 256 = 0 ∧ x ≤ ceil256 x ∧ ∀ m, m % 256 = 0 → x ≤ m → ceil256 x ≤ m := by
  refine ⟨by simp [ceil256], by unfold ceil256; omega, fun m h1 h2 => ?_⟩
  unfold ceil256; omega

theorem ceil256_fits_iff (x : Nat) : ceil256 x < 2 ^ 64 ↔ x ≤ 2 ^ 64 - 256 := by
  unfold ceil256; omega

theorem rootFrom_spec (a i r : Nat) (h1 : r * r ≤ a) (h2 : a < (r + 2 ^ i) * (r + 2 ^ i)) :
    rootFrom a i r * rootFrom a i r ≤ a ∧ a < (rootFrom a i r + 1) * (rootFrom a i r + 1) := by
  induction i generalizing r with
  | zero => exact ⟨h1, by simpa [rootFrom] using h2⟩
  | succ i ih =>
    rw [rootFrom]
    split
    · next h =>
      refine ih _ h ?_
      rw [Nat.add_assoc, ← Nat.two_mul, ← Nat.pow_succ']
      exact h2
    · next h => exact ih _ h1 (by omega)

/-- The side of a square region: the `n` with `n*n = area` and `n mod 256 = 0`, if there is one (45_transpose.md
R192). -/
theorem matrixSide_eq_some (area n : Nat) (ha : area < 2 ^ 64) :
    matrixSide area = some n ↔ n * n = area ∧ n % 256 = 0 := by
  obtain ⟨h1, h2⟩ := rootFrom_spec area 32 0 (by omega) (by norm_num at ha ⊢; omega)
  unfold matrixSide
  simp only
  constructor
  · intro h
    split at h
    · next hc => cases h; exact hc
    · cases h
  · rintro ⟨rfl, hm⟩
    have : rootFrom (n * n) 32 0 = n := by
      apply Nat.le_antisymm
      · by_contra hc; nlinarith
      · by_contra hc; nlinarith
    rw [this, if_pos ⟨rfl, hm⟩]

theorem matrixSide_eq_none (area : Nat) (ha : area < 2 ^ 64) :
    matrixSide area = none ↔ ¬ ∃ n, n * n = area ∧ n % 256 = 0 := by
  rw [Option.eq_none_iff_forall_ne_some]
  constructor
  · rintro h ⟨n, hn⟩; exact h n ((matrixSide_eq_some area n ha).2 hn)
  · intro h n hn; exact h ⟨n, (matrixSide_eq_some area n ha).1 hn⟩

/-! ### Immediates -/

theorem getLsbD_quarterOnly (q : BitVec 2) (imm : BitVec 16) (i : Nat) :
    (quarterOnly q imm).getLsbD i = (decide (i < 64 ∧ 16 * q.toNat ≤ i) && imm.getLsbD (i - 16 * q.toNat)) := by
  have hq := q.isLt
  rw [quarterOnly, BitVec.getLsbD_shiftLeft, BitVec.getLsbD_setWidth]
  by_cases h : i < 64 ∧ 16 * q.toNat ≤ i
  · simp [h.1, h, show i - 16 * q.toNat < 64 by omega, show ¬ i < 16 * q.toNat by omega]
  · by_cases h1 : i < 64
    · simp [h, show i < 16 * q.toNat by omega]
    · simp [h1]

/-- The quarter `q` takes the immediate, the other bits are kept (40_control_scalar.md R112). -/
theorem getLsbD_quarterReplaced (old : Scalar) (q : BitVec 2) (imm : BitVec 16) (i : Nat) (hi : i < 64) :
    (quarterReplaced old q imm).getLsbD i =
      if 16 * q.toNat ≤ i ∧ i < 16 * q.toNat + 16 then imm.getLsbD (i - 16 * q.toNat) else old.getLsbD i := by
  rw [quarterReplaced, BitVec.getLsbD_or, BitVec.getLsbD_and, BitVec.getLsbD_not, getLsbD_quarterOnly,
    getLsbD_quarterOnly]
  have hf : ∀ n, (0xFFFF#16).getLsbD n = decide (n < 16) := by
    intro n
    rw [show (0xFFFF#16) = BitVec.allOnes 16 by decide, BitVec.getLsbD_allOnes]
  rw [hf]
  by_cases h1 : 16 * q.toNat ≤ i
  · by_cases h2 : i < 16 * q.toNat + 16
    · simp [hi, h1, h2, show i - 16 * q.toNat < 16 by omega]
    · rw [BitVec.getLsbD_of_ge imm _ (by omega)]
      simp [hi, h2, show ¬ i - 16 * q.toNat < 16 by omega]
  · simp [hi, h1]

/-! ### Lanes -/

theorem getLsbD_lane (w : Nat) (x : Vec) (j t : Nat) :
    (lane w x j).getLsbD t = (decide (t < w) && x.getLsbD (w * j + t)) := by
  rw [lane, BitVec.getLsbD_extractLsb']

/-- Lane `j` of a vector made of lanes. -/
theorem lane_ofParts {w : Nat} (hw : 0 < w) (f : Nat → BitVec w) (n j : Nat) (hn : w * n = 256) (hj : j < n) :
    lane w (BitVec.ofNat 256 (ofParts f n)) j = f j := by
  apply BitVec.eq_of_getLsbD_eq
  intro t ht
  have h1 : w * j + t < 256 := by
    have : w * (j + 1) ≤ w * n := Nat.mul_le_mul_left _ hj
    rw [Nat.mul_succ] at this; omega
  rw [getLsbD_lane, getLsbD_ofParts hw f n 256 _ hn, Nat.mul_add_div hw, Nat.mul_add_mod, Nat.div_eq_of_lt ht,
    Nat.mod_eq_of_lt ht]
  simp [ht, h1]

theorem vec_eq_of_lanes {w : Nat} (n : Nat) (hw : 0 < w) (hn : w * n = 256) (x y : Vec)
    (h : ∀ j < n, lane w x j = lane w y j) : x = y := by
  apply BitVec.eq_of_getLsbD_eq
  intro t ht
  have hj : t / w < n := by rw [Nat.div_lt_iff_lt_mul hw, Nat.mul_comm, hn]; exact ht
  have := congrArg (fun v : BitVec w => v.getLsbD (t % w)) (h (t / w) hj)
  simpa only [getLsbD_lane, Nat.mod_lt t hw, decide_true, Bool.true_and, Nat.div_add_mod] using this

theorem popcount_le {w : Nat} (v : BitVec w) : popcount v ≤ w := by
  rw [popcount]
  exact le_trans (List.length_filter_le _ _) (by simp)

/-- POPC16's lanes (43_lane_arithmetic.md R150). -/
theorem lane_popcount16 (x : Vec) (j : Nat) (hj : j < 16) :
    lane 16 (popcount16 x) j = BitVec.ofNat 16 (popcount (lane 16 x j)) :=
  lane_ofParts (by omega) _ 16 j rfl hj

/-- MOD4's lanes (43_lane_arithmetic.md R152). -/
theorem lane_mod4Combine (a b c : Vec) (t : Nat) (ht : t < 128) :
    lane 2 (mod4Combine a b c) t = lane 2 a t + lane 2 b t - lane 2 c t :=
  lane_ofParts (by omega) _ 128 t rfl ht

/-! ### Boolean sequences -/

/-- Bit `i` of the packed vector is element `i` (42_packing.md R141). -/
theorem getLsbD_packed (m : Memory) (b i : Nat) (hi : i < 256) :
    (Memory.packed m b).getLsbD i = Memory.element m b i := by
  rw [Memory.packed, getLsbD_ofParts (by omega) _ 256 256 i rfl]
  simp [hi, Nat.mod_one]

theorem byteAt_unpacked (m : Memory) (b : Nat) (w : Vec) (a : Nat) :
    Memory.byteAt (Memory.unpacked m b w) a =
      if 32 * b ≤ a ∧ a < 32 * b + 256 then (if w.getLsbD (a - 32 * b) then 1#8 else 0#8) else Memory.byteAt m a := by
  rw [Memory.unpacked, byteAt_writeBytes]

/-- Element `i` of the unpacked sequence is bit `i` (42_packing.md R142). -/
theorem element_unpacked (m : Memory) (b : Nat) (w : Vec) (i : Nat) (hi : i < 256) :
    Memory.element (Memory.unpacked m b w) b i = w.getLsbD i := by
  rw [Memory.element, byteAt_unpacked, if_pos (by omega), Nat.add_sub_cancel_left]
  cases w.getLsbD i <;> simp

/-! ### Index-bit permutations -/

theorem testBit_foldl_or (l : List Nat) (π : Nat → Nat) (p a j : Nat) :
    (l.foldl (fun acc i => if p.testBit i then acc ||| 2 ^ π i else acc) a).testBit j = true ↔
      a.testBit j = true ∨ ∃ i ∈ l, p.testBit i = true ∧ π i = j := by
  induction l generalizing a with
  | nil => simp
  | cons i l ih =>
    rw [List.foldl_cons, ih]
    by_cases h : p.testBit i
    · simp [h, Nat.testBit_two_pow, or_assoc]
    · simp [h]

/-- Bit `j` of `π*(p)` is set exactly when `π` takes a set bit of `p` there (44_address_permutation.md R171). -/
theorem testBit_permuted (π : Nat → Nat) (p j : Nat) :
    (permuted π p).testBit j = true ↔ ∃ i < 16, p.testBit i = true ∧ π i = j := by
  simp [permuted, testBit_foldl_or]

theorem permuted_lt (π : Nat → Nat) (hπ : ∀ i < 16, π i < 16) (p : Nat) : permuted π p < 65536 := by
  apply Nat.lt_pow_two_of_testBit (n := 16)
  intro j hj
  rw [Bool.eq_false_iff, Ne, testBit_permuted]
  rintro ⟨i, hi, -, rfl⟩
  have := hπ i hi
  omega

theorem testBit_permuted_involutive (π : Nat → Nat) (h1 : ∀ i < 16, π i < 16) (h2 : Function.Involutive π)
    (p j : Nat) (hj : j < 16) : (permuted π p).testBit j = p.testBit (π j) := by
  rw [Bool.eq_iff_iff, testBit_permuted]
  constructor
  · rintro ⟨i, -, hp, rfl⟩; rwa [h2]
  · intro h; exact ⟨π j, h1 j hj, h, h2 j⟩

theorem testBit_high (p : Nat) (hp : p < 65536) (j : Nat) (hj : 16 ≤ j) : p.testBit j = false :=
  Nat.testBit_lt_two_pow (Nat.lt_of_lt_of_le hp (Nat.pow_le_pow_right (by omega) hj : 2 ^ 16 ≤ 2 ^ j))

theorem position_ext (p q : Nat) (hp : p < 65536) (hq : q < 65536) (h : ∀ j < 16, p.testBit j = q.testBit j) :
    p = q := by
  apply Nat.eq_of_testBit_eq
  intro j
  by_cases hj : j < 16
  · exact h j hj
  · rw [testBit_high p hp j (by omega), testBit_high q hq j (by omega)]

theorem levelSwap_lt (k : Nat) (hk : k < 8) (i : Nat) (hi : i < 16) : levelSwap k i < 16 := by
  unfold levelSwap; split <;> [skip; split] <;> omega

theorem levelSwap_involutive (k : Nat) : Function.Involutive (levelSwap k) := by
  intro i; unfold levelSwap; grind

theorem permuted_levelSwap_lt (k : Nat) (hk : k < 8) (p : Nat) : permuted (levelSwap k) p < 65536 :=
  permuted_lt _ (levelSwap_lt k hk) p

/-- `π_k*` undoes itself (44_address_permutation.md R172). -/
theorem permuted_levelSwap_involutive (k : Nat) (hk : k < 8) (p : Nat) (hp : p < 65536) :
    permuted (levelSwap k) (permuted (levelSwap k) p) = p := by
  apply position_ext _ _ (permuted_levelSwap_lt k hk _) hp
  intro j hj
  rw [testBit_permuted_involutive _ (levelSwap_lt k hk) (levelSwap_involutive k) _ _ hj,
    testBit_permuted_involutive _ (levelSwap_lt k hk) (levelSwap_involutive k) _ _ (levelSwap_lt k hk j hj),
    levelSwap_involutive]

theorem testBit_transposed (p : Nat) (hp : p < 65536) (j : Nat) (hj : j < 16) :
    (transposed p).testBit j = p.testBit (if j < 8 then 8 + j else j - 8) := by
  have h1 : p / 256 < 2 ^ 8 := by omega
  have hd : ∀ i, (p / 256).testBit i = p.testBit (8 + i) := fun i => by
    rw [Nat.add_comm 8 i, show (256 : Nat) = 2 ^ 8 by norm_num, Nat.testBit_div_two_pow]
  have hm : ∀ i < 8, (p % 256).testBit i = p.testBit i := fun i hi => by
    rw [show (256 : Nat) = 2 ^ 8 by norm_num, Nat.testBit_mod_two_pow]; simp [hi]
  rw [transposed, show (256 : Nat) * (p % 256) = 2 ^ 8 * (p % 256) by norm_num, Nat.testBit_two_pow_mul_add _ h1]
  by_cases h : j < 8
  · rw [if_pos h, if_pos h, hd]
  · rw [if_neg h, if_neg h, hm _ (by omega)]

theorem transposed_lt (p : Nat) (hp : p < 65536) : transposed p < 65536 := by unfold transposed; omega

theorem transposed_involutive (p : Nat) (hp : p < 65536) : transposed (transposed p) = p := by
  unfold transposed; omega

/-! ### Moves of a block -/

/-- What a move of one block does to the bit at row `r`, column `c` of the block. -/
theorem blockMove_inside (base pitch : Nat) (hp : 0 < pitch) (f : Nat → Nat) (r c : Nat) (hr : r < 256) (hc : c < 256) :
    blockMove base pitch f (256 * (base + r * pitch) + c) =
      256 * (base + f (256 * r + c) / 256 * pitch) + f (256 * r + c) % 256 := by
  have h1 : (256 * (base + r * pitch) + c) / 256 = base + r * pitch := by omega
  have h2 : (256 * (base + r * pitch) + c) % 256 = c := by omega
  unfold blockMove
  simp only
  rw [h1, h2, Nat.add_sub_cancel_left, Nat.mul_mod_left, Nat.mul_div_cancel _ hp,
    if_pos ⟨Nat.le_add_right _ _, rfl, hr⟩]

/-- A bit is inside the block exactly when it has a row and a column there. -/
theorem inside_iff (base pitch : Nat) (hp : 0 < pitch) (x : Nat) :
    (base ≤ x / 256 ∧ (x / 256 - base) % pitch = 0 ∧ (x / 256 - base) / pitch < 256) ↔
      ∃ r < 256, ∃ c < 256, x = 256 * (base + r * pitch) + c := by
  constructor
  · rintro ⟨h1, h2, h3⟩
    refine ⟨_, h3, x % 256, Nat.mod_lt _ (by omega), ?_⟩
    rw [Nat.div_mul_cancel (Nat.dvd_of_mod_eq_zero h2)]
    omega
  · rintro ⟨r, hr, c, hc, rfl⟩
    rw [show (256 * (base + r * pitch) + c) / 256 = base + r * pitch by omega, Nat.add_sub_cancel_left,
      Nat.mul_mod_left, Nat.mul_div_cancel _ hp]
    exact ⟨Nat.le_add_right _ _, rfl, hr⟩

/-- A bit outside the block stays. -/
theorem blockMove_outside (base pitch : Nat) (hp : 0 < pitch) (f : Nat → Nat) (x : Nat)
    (h : ¬ ∃ r < 256, ∃ c < 256, x = 256 * (base + r * pitch) + c) : blockMove base pitch f x = x := by
  rw [← inside_iff base pitch hp] at h
  unfold blockMove
  simp only
  rw [if_neg h]

/-- A move of the block undoes itself when the move of positions does. -/
theorem blockMove_involutive (base pitch : Nat) (hp : 0 < pitch) (f : Nat → Nat) (h1 : ∀ p < 65536, f p < 65536)
    (h2 : ∀ p < 65536, f (f p) = p) : Function.Involutive (blockMove base pitch f) := by
  intro x
  by_cases h : ∃ r < 256, ∃ c < 256, x = 256 * (base + r * pitch) + c
  · obtain ⟨r, hr, c, hc, rfl⟩ := h
    have hlt := h1 (256 * r + c) (by omega)
    rw [blockMove_inside base pitch hp f r c hr hc,
      blockMove_inside base pitch hp f _ _ (by omega) (Nat.mod_lt _ (by omega)), Nat.div_add_mod,
      h2 _ (by omega), show (256 * r + c) / 256 = r by omega, show (256 * r + c) % 256 = c by omega]
  · rw [blockMove_outside base pitch hp f x h, blockMove_outside base pitch hp f x h]

/-! ### Moves of a matrix -/

/-- Element `(j, i)` goes to element `(i, j)` (45_transpose.md R193). -/
theorem matrixMove_inside (base n i j : Nat) (hi : i < n) (hj : j < n) :
    matrixMove base n (256 * base + (j * n + i)) = 256 * base + (i * n + j) := by
  have hlt : j * n + i < n * n := by
    have : (j + 1) * n ≤ n * n := Nat.mul_le_mul_right _ hj
    rw [Nat.add_mul, Nat.one_mul] at this; omega
  rw [matrixMove, if_pos (by omega), Nat.add_sub_cancel_left, Nat.mul_comm j n, Nat.mul_add_mod,
    Nat.mod_eq_of_lt hi, Nat.mul_add_div (by omega), Nat.div_eq_of_lt hi, Nat.add_zero, Nat.add_assoc]

theorem matrixMove_outside (base n x : Nat) (h : ¬ (256 * base ≤ x ∧ x < 256 * base + n * n)) :
    matrixMove base n x = x := by
  rw [matrixMove, if_neg h]

theorem matrix_position (base n x : Nat) (h : 256 * base ≤ x ∧ x < 256 * base + n * n) :
    ∃ j < n, ∃ i < n, x = 256 * base + (j * n + i) := by
  have hn : 0 < n := by
    rcases Nat.eq_zero_or_pos n with rfl | hn
    · omega
    · exact hn
  refine ⟨(x - 256 * base) / n, ?_, (x - 256 * base) % n, Nat.mod_lt _ hn, ?_⟩
  · rw [Nat.div_lt_iff_lt_mul hn]; omega
  · rw [Nat.mul_comm _ n, Nat.div_add_mod]; omega

theorem matrixMove_involutive (base n : Nat) : Function.Involutive (matrixMove base n) := by
  intro x
  by_cases h : 256 * base ≤ x ∧ x < 256 * base + n * n
  · obtain ⟨j, hj, i, hi, rfl⟩ := matrix_position base n x h
    rw [matrixMove_inside base n i j hi hj, matrixMove_inside base n j i hj hi]
  · rw [matrixMove_outside base n x h, matrixMove_outside base n x h]

/-- Row `i` of block `(bc, br)` goes to row `i` of block `(br, bc)`, bit for bit (45_transpose.md R192). -/
theorem blockExchange_inside (base side br bc i c : Nat) (hbr : br < side) (hbc : bc < side) (hi : i < 256)
    (hc : c < 256) :
    blockExchange base side (256 * (base + ((256 * bc + i) * side + br)) + c) =
      256 * (base + ((256 * br + i) * side + bc)) + c := by
  have hlt : (256 * bc + i) * side + br < 256 * side * side := by
    have : (256 * bc + i + 1) * side ≤ 256 * side * side := Nat.mul_le_mul_right _ (by omega)
    rw [Nat.add_mul _ 1, Nat.one_mul] at this; omega
  unfold blockExchange
  simp only
  rw [show (256 * (base + ((256 * bc + i) * side + br)) + c) / 256 = base + ((256 * bc + i) * side + br) by omega,
    show (256 * (base + ((256 * bc + i) * side + br)) + c) % 256 = c by omega, if_pos (by omega),
    Nat.add_sub_cancel_left, Nat.mul_comm (256 * bc + i) side, Nat.mul_add_mod, Nat.mod_eq_of_lt hbr,
    Nat.mul_add_div (by omega), Nat.div_eq_of_lt hbr, Nat.add_zero, show (256 * bc + i) % 256 = i by omega,
    show (256 * bc + i) / 256 = bc by omega, Nat.add_assoc]

theorem blockExchange_outside (base side x : Nat)
    (h : ¬ (base ≤ x / 256 ∧ x / 256 < base + 256 * side * side)) : blockExchange base side x = x := by
  unfold blockExchange
  simp only
  rw [if_neg h]

theorem exchange_position (base side x : Nat) (h : base ≤ x / 256 ∧ x / 256 < base + 256 * side * side) :
    ∃ br < side, ∃ bc < side, ∃ i < 256, ∃ c < 256, x = 256 * (base + ((256 * bc + i) * side + br)) + c := by
  have hs : 0 < side := by
    rcases Nat.eq_zero_or_pos side with rfl | hs
    · omega
    · exact hs
  have hrow : (x / 256 - base) / side < 256 * side := by rw [Nat.div_lt_iff_lt_mul hs]; omega
  refine ⟨(x / 256 - base) % side, Nat.mod_lt _ hs, (x / 256 - base) / side / 256, by omega,
    (x / 256 - base) / side % 256, Nat.mod_lt _ (by omega), x % 256, Nat.mod_lt _ (by omega), ?_⟩
  rw [Nat.div_add_mod, Nat.mul_comm ((x / 256 - base) / side) side, Nat.div_add_mod]
  omega

theorem blockExchange_involutive (base side : Nat) : Function.Involutive (blockExchange base side) := by
  intro x
  by_cases h : base ≤ x / 256 ∧ x / 256 < base + 256 * side * side
  · obtain ⟨br, hbr, bc, hbc, i, hi, c, hc, rfl⟩ := exchange_position base side x h
    rw [blockExchange_inside base side br bc i c hbr hbc hi hc, blockExchange_inside base side bc br i c hbc hbr hi hc]
  · rw [blockExchange_outside base side x h, blockExchange_outside base side x h]

end Sys2Proof.Laws
end

