-- ==== Sys2Proof/Laws/Exec.lean ====
section
/-! SUPPORT. Everything a command can do, said once: the six ways in which `exec` ends, with the checks that led there. -/

namespace Sys2Proof.Laws

open Sys2Proof.Machine

/-! ### Which bytes an operation of the store can change -/

/-- A relocation keeps a byte none of whose bits it moves. -/
theorem byteAt_relocate_fixed (move : Nat → Nat) (h : Function.Involutive move) (m : Memory) (a : Nat)
    (hf : ∀ i < 8, move (8 * a + i) = 8 * a + i) : Memory.byteAt (Memory.relocate move m) a = Memory.byteAt m a :=
  byteAt_eq_of_bits _ _ _ fun i hi => by rw [bitAt_relocate_involutive move h, hf i hi]

theorem byteAt_setBit_other (m : Memory) (k : Nat) (x : Bool) (a : Nat) (h : a ≠ k / 8) :
    Memory.byteAt (Memory.setBit m k x) a = Memory.byteAt m a := by
  rw [Memory.setBit, byteAt_setByte, if_neg h]

theorem byteAt_setGranule_other (m : Memory) (g : Nat) (v : Scalar) (a : Nat) (h : a / 8 ≠ g) :
    Memory.byteAt (Memory.setGranule m g v) a = Memory.byteAt m a := by
  rw [Memory.setGranule, byteAt_writeBytes, if_neg (by omega)]

theorem byteAt_setVec_other (m : Memory) (j : Nat) (w : Vec) (a : Nat) (h : a / 32 ≠ j) :
    Memory.byteAt (Memory.setVec m j w) a = Memory.byteAt m a := by
  rw [Memory.setVec, byteAt_writeBytes, if_neg (by omega)]

theorem byteAt_unpacked_other (m : Memory) (b : Nat) (w : Vec) (a : Nat) (h : ¬ RegionBytes b 8 a) :
    Memory.byteAt (Memory.unpacked m b w) a = Memory.byteAt m a := by
  rw [Memory.unpacked, byteAt_writeBytes, if_neg (by unfold RegionBytes at h; omega)]

theorem byteAt_xorRegion_other (m : Memory) (d e c a : Nat) (h : ¬ RegionBytes d c a) :
    Memory.byteAt (Memory.xorRegion m d e c) a = Memory.byteAt m a := by
  rw [byteAt_xorRegion, if_neg (by unfold RegionBytes at h; omega)]

/-- A move of a block keeps every byte outside the block's rows. -/
theorem byteAt_blockMove_other (base pitch : Nat) (hp : 0 < pitch) (f : Nat → Nat) (h1 : ∀ p < 65536, f p < 65536)
    (h2 : ∀ p < 65536, f (f p) = p) (m : Memory) (a : Nat) (h : ¬ BlockBytes base pitch a) :
    Memory.byteAt (Memory.relocate (blockMove base pitch f) m) a = Memory.byteAt m a := by
  refine byteAt_relocate_fixed _ (blockMove_involutive base pitch hp f h1 h2) m a fun i hi =>
    blockMove_outside base pitch hp f _ ?_
  rintro ⟨r, hr, c, hc, he⟩
  exact h ⟨r, hr, by omega⟩

/-- With pitch 1 the rows of a block are 256 consecutive vectors. -/
theorem blockBytes_one (base a : Nat) : BlockBytes base 1 a ↔ RegionBytes base 256 a := by
  unfold BlockBytes RegionBytes
  constructor
  · rintro ⟨r, hr, h⟩; omega
  · intro h; exact ⟨a / 32 - base, by omega, by omega⟩

theorem byteAt_exchange_other (base side : Nat) (m : Memory) (a : Nat)
    (h : ¬ RegionBytes base (256 * side * side) a) :
    Memory.byteAt (Memory.relocate (blockExchange base side) m) a = Memory.byteAt m a := by
  refine byteAt_relocate_fixed _ (blockExchange_involutive base side) m a fun i hi => blockExchange_outside base side _ ?_
  unfold RegionBytes at h
  omega

/-- The area of a square of side `n`, a multiple of 256, is a whole number of vectors. -/
theorem area_div (n : Nat) (h : n % 256 = 0) : 256 * (n * n / 256) = n * n :=
  Nat.mul_div_cancel' (Nat.dvd_trans (Nat.dvd_of_mod_eq_zero h) (Nat.dvd_mul_right n n))

theorem byteAt_matrixMove_other (base n : Nat) (hn : n % 256 = 0) (m : Memory) (a : Nat)
    (h : ¬ RegionBytes base (n * n / 256) a) :
    Memory.byteAt (Memory.relocate (matrixMove base n) m) a = Memory.byteAt m a := by
  refine byteAt_relocate_fixed _ (matrixMove_involutive base n) m a fun i hi => matrixMove_outside base n _ ?_
  have := area_div n hn
  unfold RegionBytes at h
  omega

/-! ### The six ends of a command -/

/-- `m` can follow the contents of the store of `s`: it is canonical when they are, and agrees with them from the capacity
on. -/
structure Follows (s : State) (m : Memory) : Prop where
  wf : Memory.wf s.store → Memory.wf m
  beyond : ∀ a, s.cap.toNat ≤ 8 * a → Memory.byteAt m a = Memory.byteAt s.store a

/-- What command `i` can make of state `s`. -/
inductive Did (i : Instr) (s : State) : State → Prop where
  | halted (h : i = .halt) : Did i s s.halt
  | scalar (rd : SReg) (v : Scalar) (h : i ≠ .halt) : Did i s (s.writeS rd v).advance
  | vector (vd : VReg) (w : Vec) (h : i ≠ .halt) : Did i s (s.writeV vd w).advance
  | store (m : Memory) (h : i ≠ .halt) (hm : Follows s m) : Did i s (s.setStore m).advance
  | built (rd : SReg) (c n : Nat) (m : Memory) (h : ∃ ra, (i = .sinit rd ra ∧ n = 0) ∨ i = .srand rd ra)
      (hc : c ≤ s.capMax.toNat) (ha : c % 256 = 0) (hm : Memory.wf m) (hb : ∀ k, c ≤ k → Memory.bitAt m k = false) :
      Did i s (((s.newStore c m).drew n).writeS rd (BitVec.ofNat 64 c)).advance
  | fault (c : Cause) (info : BitVec 64) (h : i ≠ .halt) (hc : c ∈ causesOf i) : Did i s (s.raise c info)

theorem follows_relocate_block (s : State) (base pitch : Nat) (hp : 0 < pitch) (f : Nat → Nat)
    (h1 : ∀ p < 65536, f p < 65536) (h2 : ∀ p < 65536, f (f p) = p) (h : base + 255 * pitch + 1 ≤ s.cap.toNat / 256) :
    Follows s (Memory.relocate (blockMove base pitch f) s.store) where
  wf _ := wf_relocate _ _
  beyond a ha := byteAt_blockMove_other base pitch hp f h1 h2 s.store a fun ⟨r, hr, he⟩ => by
    have : r * pitch ≤ 255 * pitch := Nat.mul_le_mul_right _ (by omega)
    omega

/-- Every command answers a next state, in one of the six ways. -/
theorem exec_did (i : Instr) (s : State) : ∃ t, exec i s = .next t ∧ Did i s t := by
  cases i with
  | halt => exact ⟨_, rfl, .halted rfl⟩
  | li rd q imm => exact ⟨_, rfl, .scalar _ _ (by simp)⟩
  | lik rd q imm => exact ⟨_, rfl, .scalar _ _ (by simp)⟩
  | popc16 vd va => exact ⟨_, rfl, .vector _ _ (by simp)⟩
  | popsum rd va => exact ⟨_, rfl, .scalar _ _ (by simp)⟩
  | mod4 vd va vb vc => exact ⟨_, rfl, .vector _ _ (by simp)⟩
  | ceil256 rd ra =>
    simp only [exec, execCeil256]
    split
    · exact ⟨_, rfl, .fault _ _ (by simp) (by simp [causesOf])⟩
    · exact ⟨_, rfl, .scalar _ _ (by simp)⟩
  | sinit rd ra =>
    simp only [exec, execSinit]
    split
    · exact ⟨_, rfl, .fault _ _ (by simp) (by simp [causesOf])⟩
    · exact ⟨_, rfl, .built rd _ 0 [] ⟨ra, .inl ⟨rfl, rfl⟩⟩ (by omega) (ceil256_spec _).1 wf_nil (by simp)⟩
  | srand rd ra =>
    simp only [exec, execSrand]
    split
    · exact ⟨_, rfl, .fault _ _ (by simp) (by simp [causesOf])⟩
    · refine ⟨_, rfl, .built rd _ _ _ ⟨ra, .inr rfl⟩ (by omega) (ceil256_spec _).1 (wf_ofDraws _ _) fun k hk => ?_⟩
      rw [bitAt_ofDraws, decide_eq_false (by omega), Bool.false_and]
  | getb rd ra =>
    simp only [exec, execGetb]
    split
    · exact ⟨_, rfl, .scalar _ _ (by simp)⟩
    · exact ⟨_, rfl, .fault _ _ (by simp) (by simp [causesOf])⟩
  | setb ra rb =>
    simp only [exec, execSetb]
    split
    next h =>
      refine ⟨_, rfl, .store _ (by simp) ⟨wf_setBit _ _ _, fun a ha => byteAt_setBit_other _ _ _ a ?_⟩⟩
      rw [hasBit_iff] at h
      omega
    · exact ⟨_, rfl, .fault _ _ (by simp) (by simp [causesOf])⟩
  | getw rd ra =>
    simp only [exec, execGetw]
    split
    · exact ⟨_, rfl, .scalar _ _ (by simp)⟩
    · exact ⟨_, rfl, .fault _ _ (by simp) (by simp [causesOf])⟩
  | setw ra rb =>
    simp only [exec, execSetw]
    split
    next h =>
      refine ⟨_, rfl, .store _ (by simp) ⟨wf_setGranule _ _ _, fun a ha => byteAt_setGranule_other _ _ _ a ?_⟩⟩
      rw [hasGranule_iff] at h
      omega
    · exact ⟨_, rfl, .fault _ _ (by simp) (by simp [causesOf])⟩
  | vld vd ra =>
    simp only [exec, execVld]
    split
    · exact ⟨_, rfl, .vector _ _ (by simp)⟩
    · exact ⟨_, rfl, .fault _ _ (by simp) (by simp [causesOf])⟩
  | vst ra vb =>
    simp only [exec, execVst]
    split
    next h =>
      refine ⟨_, rfl, .store _ (by simp) ⟨wf_setVec _ _ _, fun a ha => byteAt_setVec_other _ _ _ a ?_⟩⟩
      rw [hasVec_iff] at h
      omega
    · exact ⟨_, rfl, .fault _ _ (by simp) (by simp [causesOf])⟩
  | seq rd ra rb rc =>
    simp only [exec, execSeq]
    split
    · exact ⟨_, rfl, .fault _ _ (by simp) (by simp [causesOf])⟩
    split
    · exact ⟨_, rfl, .fault _ _ (by simp) (by simp [causesOf])⟩
    · exact ⟨_, rfl, .scalar _ _ (by simp)⟩
  | pack vd ra rb =>
    simp only [exec, execPack]
    split
    · exact ⟨_, rfl, .fault _ _ (by simp) (by simp [causesOf])⟩
    split
    · exact ⟨_, rfl, .fault _ _ (by simp) (by simp [causesOf])⟩
    · exact ⟨_, rfl, .vector _ _ (by simp)⟩
  | unpack ra vb =>
    simp only [exec, execUnpack]
    split
    next h =>
      refine ⟨_, rfl, .store _ (by simp) ⟨wf_unpacked _ _ _, fun a ha => byteAt_unpacked_other _ _ _ a ?_⟩⟩
      rw [hasRegion_iff] at h
      unfold RegionBytes
      omega
    · exact ⟨_, rfl, .fault _ _ (by simp) (by simp [causesOf])⟩
  | xorm ra rb rc =>
    simp only [exec, execXorm]
    split
    · exact ⟨_, rfl, .fault _ _ (by simp) (by simp [causesOf])⟩
    split
    · exact ⟨_, rfl, .fault _ _ (by simp) (by simp [causesOf])⟩
    split
    · exact ⟨_, rfl, .fault _ _ (by simp) (by simp [causesOf])⟩
    next h _ _ =>
      refine ⟨_, rfl, .store _ (by simp) ⟨wf_xorRegion _ _ _ _, fun a ha => byteAt_xorRegion_other _ _ _ _ a ?_⟩⟩
      simp only [Bool.not_eq_true', Bool.not_eq_false, hasRegion_iff] at h
      unfold RegionBytes
      omega
  | anynz rd ra rb =>
    simp only [exec, execAnynz]
    split
    · exact ⟨_, rfl, .scalar _ _ (by simp)⟩
    · exact ⟨_, rfl, .fault _ _ (by simp) (by simp [causesOf])⟩
  | swapk ra k =>
    have hk : k.toNat < 8 := k.isLt
    simp only [exec, execSwapk]
    split
    next h =>
      rw [hasRegion_iff] at h
      exact ⟨_, rfl, .store _ (by simp) (follows_relocate_block s _ 1 (by omega) _
        (fun p _ => permuted_levelSwap_lt _ hk p) (permuted_levelSwap_involutive _ hk) (by omega))⟩
    · exact ⟨_, rfl, .fault _ _ (by simp) (by simp [causesOf])⟩
  | swaps ra rb k =>
    have hk : k.toNat < 8 := k.isLt
    simp only [exec, execSwaps]
    split
    · exact ⟨_, rfl, .fault _ _ (by simp) (by simp [causesOf])⟩
    split
    · exact ⟨_, rfl, .fault _ _ (by simp) (by simp [causesOf])⟩
    next h0 h =>
      simp only [Bool.not_eq_true', Bool.not_eq_false, hasBlock_iff] at h
      have hp : 0 < (s.readS rb).toNat := Nat.pos_of_ne_zero fun e => h0 (BitVec.eq_of_toNat_eq e)
      exact ⟨_, rfl, .store _ (by simp) (follows_relocate_block s _ _ hp _
        (fun p _ => permuted_levelSwap_lt _ hk p) (permuted_levelSwap_involutive _ hk) h)⟩
  | tblk ra =>
    simp only [exec, execTblk]
    split
    next h =>
      rw [hasRegion_iff] at h
      exact ⟨_, rfl, .store _ (by simp) (follows_relocate_block s _ 1 (by omega) _ transposed_lt transposed_involutive
        (by omega))⟩
    · exact ⟨_, rfl, .fault _ _ (by simp) (by simp [causesOf])⟩
  | tblks ra rb =>
    simp only [exec, execTblks]
    split
    · exact ⟨_, rfl, .fault _ _ (by simp) (by simp [causesOf])⟩
    split
    · exact ⟨_, rfl, .fault _ _ (by simp) (by simp [causesOf])⟩
    next h0 h =>
      simp only [Bool.not_eq_true', Bool.not_eq_false, hasBlock_iff] at h
      have hp : 0 < (s.readS rb).toNat := Nat.pos_of_ne_zero fun e => h0 (BitVec.eq_of_toNat_eq e)
      exact ⟨_, rfl, .store _ (by simp) (follows_relocate_block s _ _ hp _ transposed_lt transposed_involutive h)⟩
  | rblk ra rb =>
    simp only [exec, execRblk]
    split
    · exact ⟨_, rfl, .fault _ _ (by simp) (by simp [causesOf])⟩
    next n hn =>
      split
      next h =>
        rw [hasRegion_iff] at h
        refine ⟨_, rfl, .store _ (by simp) ⟨fun _ => wf_relocate _ _, fun a ha => byteAt_exchange_other _ _ _ a ?_⟩⟩
        obtain ⟨h1, h2⟩ := (matrixSide_eq_some _ n (s.readS rb).isLt).1 hn
        have hd : n = 256 * (n / 256) := by omega
        have := area_div n h2
        rw [h1] at this
        have : n * n = 256 * (256 * (n / 256) * (n / 256)) := by
          conv => lhs; rw [hd]
          ring
        unfold RegionBytes
        omega
      · exact ⟨_, rfl, .fault _ _ (by simp) (by simp [causesOf])⟩
  | tmat ra rb =>
    simp only [exec, execTmat]
    split
    · exact ⟨_, rfl, .fault _ _ (by simp) (by simp [causesOf])⟩
    split
    · exact ⟨_, rfl, .fault _ _ (by simp) (by simp [causesOf])⟩
    next h0 h =>
      simp only [Bool.not_eq_true', Bool.not_eq_false, hasRegion_iff] at h
      refine ⟨_, rfl, .store _ (by simp) ⟨fun _ => wf_relocate _ _,
        fun a ha => byteAt_matrixMove_other _ _ (not_not.1 h0) _ a ?_⟩⟩
      unfold RegionBytes
      omega

end Sys2Proof.Laws
end

