-- ==== Sys2Proof/Laws/PerInstr.lean ====
section
/-! SUPPORT. The families of statements made per command. -/

namespace Sys2Proof.Laws.Encoded

/-- The word of a command is legal, whatever its operands (30_encoding.md R88). -/
def Statement (i : Instr) : Prop := WellFormed.word (encode i) = true

theorem halt : Statement .halt :=
  word_encodeR _ _ _ _ _ _ _ _ _ _ (shapeOf_encodeR _ _ _ _ _) (.inr rfl) (.inr rfl) (.inr rfl) (.inr rfl) (fun h => nomatch h)

theorem li (rd : SReg) (q : BitVec 2) (imm16 : BitVec 16) : Statement (.li rd q imm16) :=
  word_encodeI _ _ _ _ _ _ _ _ (shapeOf_encodeI _ _ _ _)

theorem lik (rd : SReg) (q : BitVec 2) (imm16 : BitVec 16) : Statement (.lik rd q imm16) :=
  word_encodeI _ _ _ _ _ _ _ _ (shapeOf_encodeI _ _ _ _)

theorem ceil256 (rd : SReg) (ra : SReg) : Statement (.ceil256 rd ra) :=
  word_encodeR _ _ _ _ _ _ _ _ _ _ (shapeOf_encodeR _ _ _ _ _) (.inl rfl) (.inl rfl) (.inr rfl) (.inr rfl) (fun h => nomatch h)

theorem sinit (rd : SReg) (ra : SReg) : Statement (.sinit rd ra) :=
  word_encodeR _ _ _ _ _ _ _ _ _ _ (shapeOf_encodeR _ _ _ _ _) (.inl rfl) (.inl rfl) (.inr rfl) (.inr rfl) (fun h => nomatch h)

theorem srand (rd : SReg) (ra : SReg) : Statement (.srand rd ra) :=
  word_encodeR _ _ _ _ _ _ _ _ _ _ (shapeOf_encodeR _ _ _ _ _) (.inl rfl) (.inl rfl) (.inr rfl) (.inr rfl) (fun h => nomatch h)

theorem getb (rd : SReg) (ra : SReg) : Statement (.getb rd ra) :=
  word_encodeR _ _ _ _ _ _ _ _ _ _ (shapeOf_encodeR _ _ _ _ _) (.inl rfl) (.inl rfl) (.inr rfl) (.inr rfl) (fun h => nomatch h)

theorem setb (ra : SReg) (rb : SReg) : Statement (.setb ra rb) :=
  word_encodeR _ _ _ _ _ _ _ _ _ _ (shapeOf_encodeR _ _ _ _ _) (.inl rfl) (.inl rfl) (.inr rfl) (.inr rfl) (fun h => nomatch h)

theorem getw (rd : SReg) (ra : SReg) : Statement (.getw rd ra) :=
  word_encodeR _ _ _ _ _ _ _ _ _ _ (shapeOf_encodeR _ _ _ _ _) (.inl rfl) (.inl rfl) (.inr rfl) (.inr rfl) (fun h => nomatch h)

theorem setw (ra : SReg) (rb : SReg) : Statement (.setw ra rb) :=
  word_encodeR _ _ _ _ _ _ _ _ _ _ (shapeOf_encodeR _ _ _ _ _) (.inl rfl) (.inl rfl) (.inr rfl) (.inr rfl) (fun h => nomatch h)

theorem vld (vd : VReg) (ra : SReg) : Statement (.vld vd ra) :=
  word_encodeR _ _ _ _ _ _ _ _ _ _ (shapeOf_encodeR _ _ _ _ _) (.inl rfl) (.inl rfl) (.inr rfl) (.inr rfl) (fun h => nomatch h)

theorem vst (ra : SReg) (vb : VReg) : Statement (.vst ra vb) :=
  word_encodeR _ _ _ _ _ _ _ _ _ _ (shapeOf_encodeR _ _ _ _ _) (.inl rfl) (.inl rfl) (.inr rfl) (.inr rfl) (fun h => nomatch h)

theorem seq (rd : SReg) (ra : SReg) (rb : SReg) (rc : SReg) : Statement (.seq rd ra rb rc) :=
  word_encodeR _ _ _ _ _ _ _ _ _ _ (shapeOf_encodeR _ _ _ _ _) (.inl rfl) (.inl rfl) (.inl rfl) (.inl rfl) (fun h => nomatch h)

theorem pack (vd : VReg) (ra : SReg) (rb : SReg) : Statement (.pack vd ra rb) :=
  word_encodeR _ _ _ _ _ _ _ _ _ _ (shapeOf_encodeR _ _ _ _ _) (.inl rfl) (.inl rfl) (.inl rfl) (.inr rfl) (fun h => nomatch h)

theorem unpack (ra : SReg) (vb : VReg) : Statement (.unpack ra vb) :=
  word_encodeR _ _ _ _ _ _ _ _ _ _ (shapeOf_encodeR _ _ _ _ _) (.inl rfl) (.inl rfl) (.inr rfl) (.inr rfl) (fun h => nomatch h)

theorem popc16 (vd : VReg) (va : VReg) : Statement (.popc16 vd va) :=
  word_encodeR _ _ _ _ _ _ _ _ _ _ (shapeOf_encodeR _ _ _ _ _) (.inl rfl) (.inl rfl) (.inr rfl) (.inr rfl) (fun h => nomatch h)

theorem popsum (rd : SReg) (va : VReg) : Statement (.popsum rd va) :=
  word_encodeR _ _ _ _ _ _ _ _ _ _ (shapeOf_encodeR _ _ _ _ _) (.inl rfl) (.inl rfl) (.inr rfl) (.inr rfl) (fun h => nomatch h)

theorem mod4 (vd : VReg) (va : VReg) (vb : VReg) (vc : VReg) : Statement (.mod4 vd va vb vc) :=
  word_encodeR _ _ _ _ _ _ _ _ _ _ (shapeOf_encodeR _ _ _ _ _) (.inl rfl) (.inl rfl) (.inl rfl) (.inl rfl) (fun h => nomatch h)

theorem xorm (ra : SReg) (rb : SReg) (rc : SReg) : Statement (.xorm ra rb rc) :=
  word_encodeR _ _ _ _ _ _ _ _ _ _ (shapeOf_encodeR _ _ _ _ _) (.inl rfl) (.inl rfl) (.inl rfl) (.inr rfl) (fun h => nomatch h)

theorem anynz (rd : SReg) (ra : SReg) (rb : SReg) : Statement (.anynz rd ra rb) :=
  word_encodeR _ _ _ _ _ _ _ _ _ _ (shapeOf_encodeR _ _ _ _ _) (.inl rfl) (.inl rfl) (.inl rfl) (.inr rfl) (fun h => nomatch h)

theorem swapk (ra : SReg) (k : BitVec 3) : Statement (.swapk ra k) :=
  word_encodeR _ _ _ _ _ _ _ _ _ _ (shapeOf_encodeR _ _ _ _ _) (.inl rfl) (.inr rfl) (.inr rfl) (.inl rfl) (fun _ => levelField_high _)

theorem swaps (ra : SReg) (rb : SReg) (k : BitVec 3) : Statement (.swaps ra rb k) :=
  word_encodeR _ _ _ _ _ _ _ _ _ _ (shapeOf_encodeR _ _ _ _ _) (.inl rfl) (.inl rfl) (.inr rfl) (.inl rfl) (fun _ => levelField_high _)

theorem tblk (ra : SReg) : Statement (.tblk ra) :=
  word_encodeR _ _ _ _ _ _ _ _ _ _ (shapeOf_encodeR _ _ _ _ _) (.inl rfl) (.inr rfl) (.inr rfl) (.inr rfl) (fun h => nomatch h)

theorem tblks (ra : SReg) (rb : SReg) : Statement (.tblks ra rb) :=
  word_encodeR _ _ _ _ _ _ _ _ _ _ (shapeOf_encodeR _ _ _ _ _) (.inl rfl) (.inl rfl) (.inr rfl) (.inr rfl) (fun h => nomatch h)

theorem rblk (ra : SReg) (rb : SReg) : Statement (.rblk ra rb) :=
  word_encodeR _ _ _ _ _ _ _ _ _ _ (shapeOf_encodeR _ _ _ _ _) (.inl rfl) (.inl rfl) (.inr rfl) (.inr rfl) (fun h => nomatch h)

theorem tmat (ra : SReg) (rb : SReg) : Statement (.tmat ra rb) :=
  word_encodeR _ _ _ _ _ _ _ _ _ _ (shapeOf_encodeR _ _ _ _ _) (.inl rfl) (.inl rfl) (.inr rfl) (.inr rfl) (fun h => nomatch h)

end Sys2Proof.Laws.Encoded
end

