-- ==== Sys2Proof/Laws/Step.lean ====
section
/-! SUPPORT. What one step and several steps do, from what one command does (Exec.lean). -/

namespace Sys2Proof.Laws

open Sys2Proof.Machine

/-- A next state of a command is one of the six ends. -/
theorem did_of_exec {i : Instr} {s t : State} (h : exec i s = .next t) : Did i s t := by
  obtain ⟨t', h', hd⟩ := exec_did i s
  rw [h] at h'; cases h'; exact hd

/-- No command raises the cause `none`. -/
theorem none_notMem_causesOf (i : Instr) : Cause.none ∉ causesOf i := by cases i <;> simp [causesOf]

/-- No command raises the two causes of fetch and decode. -/
theorem fetch_notMem_causesOf (i : Instr) : Cause.illegalCommand ∉ causesOf i ∧ Cause.fetchRange ∉ causesOf i := by
  cases i <;> simp [causesOf]

/-- Everything a step can do (70_reset_and_hazards.md R242). -/
theorem step_cases (s : State) : ∃ t, step s = .next t ∧
    ((s.runState ≠ .running ∧ t = s) ∨
     (s.runState = .running ∧ s.program.length ≤ s.pc.toNat ∧ t = s.raiseFetchRange) ∨
     (s.runState = .running ∧ ∃ w, s.program[s.pc.toNat]? = some w ∧
       (((∃ e, decode w = .error e) ∧ t = s.raiseIllegal w) ∨ ∃ i, decode w = .ok i ∧ Did i s t))) := by
  unfold step
  cases hr : s.runState <;> simp
  cases hf : s.fetch with
  | none => simp only [State.fetch, List.getElem?_eq_none_iff] at hf; simp [hf]
  | some w =>
    simp only [State.fetch] at hf
    simp only [hf]
    cases hd : decode w with
    | error e => simp [hd]
    | ok i =>
      obtain ⟨t, h, hd'⟩ := exec_did i s
      exact ⟨t, h, .inr ⟨w, rfl, .inr ⟨i, hd, hd'⟩⟩⟩

/-- A run goes on from the next state of its first step. -/
theorem run_next (M : Host.Core) (n : Nat) (s t : M.State) (h : M.step s = .next t) : M.run (n + 1) s = M.run n t := by
  simp only [Host.Core.run, h]

/-- Outside RUNNING a run stays where it is. -/
theorem run_rest (n : Nat) (s : State) (h : s.runState ≠ .running) : Host.Core.run core n s = .next s := by
  induction n with
  | zero => rfl
  | succ n ih =>
    obtain ⟨t, ht, ⟨-, rfl⟩ | ⟨h', -⟩ | ⟨h', -⟩⟩ := step_cases s
    · exact (run_next core n t t ht).trans ih
    · exact absurd h' h
    · exact absurd h' h

/-- No byte beyond the capacity exists in what follows a store in which none exists. -/
theorem Follows.inside {s : State} {m : Memory} (h : Follows s m) (hwf : Memory.wf s.store)
    (hi : ∀ x ∈ s.store, 8 * x.1 < s.cap.toNat) : ∀ x ∈ m, 8 * x.1 < s.cap.toNat := by
  intro x hx
  by_contra hc
  have h1 := h.beyond x.1 (by omega)
  rw [byteAt_of_mem m (h.wf hwf) x hx, byteAt_of_notMem s.store x.1 (fun y hy he => hc (he ▸ hi y hy))] at h1
  exact (h.wf hwf).2 x hx h1

/-- The numeric form of a word of format R is the encoder's. -/
theorem wordR_eq_encodeR (op : BitVec 8) (a b c d : BitVec 4) : wordR op.toNat a b c d = encodeR op a b c d := by
  apply BitVec.eq_of_toNat_eq
  have := op.isLt; have := a.isLt; have := b.isLt; have := c.isLt; have := d.isLt
  simp only [wordR, encodeR, toNat_append_add, BitVec.toNat_ofNat]
  omega

/-- The numeric form of a word of format I is the encoder's. -/
theorem wordI_eq_encodeI (op : BitVec 8) (a : BitVec 4) (q : BitVec 2) (imm16 : BitVec 16) :
    wordI op.toNat a q imm16 = encodeI op a q imm16 := by
  apply BitVec.eq_of_toNat_eq
  have := op.isLt; have := a.isLt; have := q.isLt; have := imm16.isLt
  simp only [wordI, encodeI, toNat_append_add, BitVec.toNat_ofNat]
  omega

end Sys2Proof.Laws
end

