-- ==== Sys2Proof/Tests/Slice0.lean ====
section
/-! SUPPORT. Tests of the model. The expected results are those of 95_test_vectors.md and of the worked encodings of
30_encoding.md section 6; the number of the vector stands in the comment of each test. After them, for every statement
with hypotheses, a concrete input that meets them, clause by clause. -/

/- One theorem at a time: many small theorems elaborated at once, each on a thread of its own, ask for more memory for
the threads' stacks than the package's check allows. -/
set_option Elab.async false

namespace Sys2Proof.Tests

open Sys2Proof.Machine Sys2Proof.Laws

/-! ### Small states -/

/-- An engine in RUNNING about to run the word `w`, with capacity `cap`, store `m`, and the listed registers set. -/
def machine (w : CmdWord) (cap : Nat) (m : Memory) (s : List (BitVec 4 × Nat)) (v : List (BitVec 4 × Vec) := []) :
    State :=
  v.foldl (fun t x => t.writeV ⟨x.1⟩ x.2) (s.foldl (fun t x => t.writeS ⟨x.1⟩ (BitVec.ofNat 64 x.2))
    { State.powerOn 0x100000#64 [w] with cap := BitVec.ofNat 64 cap, store := m, runState := .running })

/-- The store with the listed bits set. -/
def bits (ks : List Nat) : Memory := ks.foldl (fun m k => Memory.setBit m k true) []

/-- The state after one step. -/
def after (s : State) : State :=
  match step s with
  | .next t => t
  | .fault _ => s
  | .refused _ => s

/-- The fault that one step takes: cause, recorded value, recorded pc. -/
def faultAfter (s : State) : Option (Nat × Nat × Nat) :=
  let t := after s
  if t.runState = .faulted then some (t.cause.code.toNat, t.finfo.toNat, t.fpc.toNat) else none

/-! ### Well-formedness: one ill-formed term for each check (30_encoding.md R88 and section 6) -/

theorem test_smoke_op_unassigned : WellFormed.opAssigned 0x05000000#32 = false ∧ WellFormed.word 0x05000000#32 = false := by
  decide
theorem test_smoke_z_byte : WellFormed.zByteZero ⟨.R, false, false, false, false, false⟩ 0x01000001#32 = false ∧
    WellFormed.word 0x01000001#32 = false := by decide
theorem test_smoke_unused_field : WellFormed.unusedFieldsZero ⟨.R, true, false, false, false, false⟩ 0x48410000#32 = false ∧
    WellFormed.word 0x48410000#32 = false := by decide
theorem test_smoke_y_bits : WellFormed.yBitsZero ⟨.I, true, false, false, false, false⟩ 0x02140000#32 = false ∧
    WellFormed.word 0x02140000#32 = false := by decide
theorem test_smoke_level : WellFormed.levelInRange ⟨.R, true, false, false, true, true⟩ 0x40500800#32 = false ∧
    WellFormed.word 0x40500800#32 = false := by decide
theorem test_smoke_program_without_halt : WellFormed.program [0x02100001#32] = false := by decide
theorem test_smoke_program_illegal_word : WellFormed.program [0x01000001#32, 0x01000000#32] = false := by decide
theorem test_smoke_program_too_long : WellFormed.program (List.replicate (2 ^ 32) WellFormed.haltWord) = false := by
  simp only [WellFormed.program, List.length_replicate, Nat.lt_irrefl, decide_false, Bool.false_and]
theorem test_smoke_legal : WellFormed.word 0x40500700#32 = true ∧
    WellFormed.program [0x02100001#32, 0x01000000#32] = true := by decide

/-! ### Decoding: a word of every command, written out from the encoding (30_encoding.md R81, R82, R86) -/

theorem test_decode_control :
    decode (0b00000001_0000_0000_0000_0000_00000000#32) = .ok .halt ∧
    decode (0b00000010_0001_00_11_1111111111111111#32) = .ok (.li ⟨1#4⟩ 3#2 0xFFFF#16) ∧
    decode (0b00000011_0001_00_10_0001001000110100#32) = .ok (.lik ⟨1#4⟩ 2#2 0x1234#16) ∧
    decode (0b00000100_1001_1000_0000_0000_00000000#32) = .ok (.ceil256 ⟨9#4⟩ ⟨8#4⟩) := by decide

theorem test_decode_store :
    decode (0b00010000_0010_0001_0000_0000_00000000#32) = .ok (.sinit ⟨2#4⟩ ⟨1#4⟩) ∧
    decode (0b00010001_0000_0001_0000_0000_00000000#32) = .ok (.srand ⟨0#4⟩ ⟨1#4⟩) ∧
    decode (0b00010010_1000_0111_0000_0000_00000000#32) = .ok (.getb ⟨8#4⟩ ⟨7#4⟩) ∧
    decode (0b00010011_0011_0100_0000_0000_00000000#32) = .ok (.setb ⟨3#4⟩ ⟨4#4⟩) ∧
    decode (0b00010100_1001_0101_0000_0000_00000000#32) = .ok (.getw ⟨9#4⟩ ⟨5#4⟩) ∧
    decode (0b00010101_0101_0110_0000_0000_00000000#32) = .ok (.setw ⟨5#4⟩ ⟨6#4⟩) ∧
    decode (0b00010110_0011_0101_0000_0000_00000000#32) = .ok (.vld ⟨3#4⟩ ⟨5#4⟩) ∧
    decode (0b00010111_0101_0011_0000_0000_00000000#32) = .ok (.vst ⟨5#4⟩ ⟨3#4⟩) ∧
    decode (0b00011000_1101_1010_1011_1100_00000000#32) = .ok (.seq ⟨13#4⟩ ⟨10#4⟩ ⟨11#4⟩ ⟨12#4⟩) := by decide

theorem test_decode_lanes :
    decode (0b00100000_0001_0100_0101_0000_00000000#32) = .ok (.pack ⟨1#4⟩ ⟨4#4⟩ ⟨5#4⟩) ∧
    decode (0b00100001_0110_0001_0000_0000_00000000#32) = .ok (.unpack ⟨6#4⟩ ⟨1#4⟩) ∧
    decode (0b00101000_0010_0001_0000_0000_00000000#32) = .ok (.popc16 ⟨2#4⟩ ⟨1#4⟩) ∧
    decode (0b00101001_0011_0001_0000_0000_00000000#32) = .ok (.popsum ⟨3#4⟩ ⟨1#4⟩) ∧
    decode (0b00101010_0100_0001_0010_0011_00000000#32) = .ok (.mod4 ⟨4#4⟩ ⟨1#4⟩ ⟨2#4⟩ ⟨3#4⟩) ∧
    decode (0b00110000_0001_0010_0011_0000_00000000#32) = .ok (.xorm ⟨1#4⟩ ⟨2#4⟩ ⟨3#4⟩) ∧
    decode (0b00110001_0100_0010_0011_0000_00000000#32) = .ok (.anynz ⟨4#4⟩ ⟨2#4⟩ ⟨3#4⟩) := by decide

theorem test_decode_moves :
    decode (0b01000000_0010_0000_0000_0011_00000000#32) = .ok (.swapk ⟨2#4⟩ 3#3) ∧
    decode (0b01000001_0010_0011_0000_0100_00000000#32) = .ok (.swaps ⟨2#4⟩ ⟨3#4⟩ 4#3) ∧
    decode (0b01001000_0100_0000_0000_0000_00000000#32) = .ok (.tblk ⟨4#4⟩) ∧
    decode (0b01001001_0010_0011_0000_0000_00000000#32) = .ok (.tblks ⟨2#4⟩ ⟨3#4⟩) ∧
    decode (0b01001010_0010_0011_0000_0000_00000000#32) = .ok (.rblk ⟨2#4⟩ ⟨3#4⟩) ∧
    decode (0b01001011_0010_0011_0000_0000_00000000#32) = .ok (.tmat ⟨2#4⟩ ⟨3#4⟩) := by decide

/-- Vectors 2.7: the unassigned neighbours of assigned opcodes, and non-zero unused fields. -/
theorem test_decode_illegal : [0x00000000#32, 0xFFFFFFFF#32, 0x05000000#32, 0x19000000#32, 0x3F000000#32,
    0x4C000000#32, 0x01000001#32, 0x01100000#32, 0x48410000#32, 0x02140000#32, 0x40500800#32, 0x4B450001#32,
    0x2A311201#32, 0x30477100#32, 0x20145100#32].all
      (fun w => faultAfter (machine w 262144 [] []) == some (1, w.toNat, 0)) = true := by
  decide +kernel

/-- The encoder writes the same words (30_encoding.md section 6). -/
theorem test_encode : encode (.seq ⟨10#4⟩ ⟨4#4⟩ ⟨5#4⟩ ⟨5#4⟩) = 0x18A45500#32 ∧
    encode (.swaps ⟨2#4⟩ ⟨3#4⟩ 4#3) = 0x41230400#32 ∧ encode (.li ⟨1#4⟩ 0#2 300#16) = 0x0210012C#32 := by decide

theorem test_table_word : decodeTableWord 32 0x13340000 = some (.setb ⟨3#4⟩ ⟨4#4⟩) ∧
    decodeTableWord 32 0x05000000 = none := by decide

/-- The first instruction after reset is the one placed: 2.1.1. -/
theorem test_fetch_word : (after (State.reset.withFetchWord 32 0x0210BEEF)).readS ⟨1#4⟩ = 0xBEEF#64 := by
  decide +kernel

/-! ### Control and scalar commands (2.1) -/

/-- 2.1.3. -/
theorem test_li : (after (machine 0x0213FFFF#32 0 [] [(1, 0x000012340000BEEF)])).readS ⟨1#4⟩ = 0xFFFF000000000000#64 := by
  decide +kernel
/-- 2.1.2. -/
theorem test_lik : (after (machine 0x03121234#32 0 [] [(1, 0xBEEF)])).readS ⟨1#4⟩ = 0x000012340000BEEF#64 := by
  decide +kernel
/-- 2.1.6 and 2.1.7. -/
theorem test_ceil256 : ∀ x ∈ [(0, 0), (1, 0x100), (0xFF, 0x100), (0x100, 0x100), (0x101, 0x200), (0x200, 0x200),
    (0xFFFFFFFFFFFFFF00, 0xFFFFFFFFFFFFFF00)],
    ((after (machine 0x04650000#32 0 [] [(5, x.1)])).readS ⟨6#4⟩).toNat = x.2 := by decide +kernel
/-- 2.1.8. -/
theorem test_ceil256_capacity :
    faultAfter (machine 0x04650000#32 0 [] [(5, 0xFFFFFFFFFFFFFF01)]) = some (4, 0xFFFFFFFFFFFFFF01, 0) := by
  decide +kernel
/-- 2.1.10. -/
theorem test_halt : (after (machine 0x01000000#32 0 [] [])).runState = .halted ∧
    (after (machine 0x01000000#32 0 [] [])).pc = 0#32 := by decide +kernel
/-- 2.1.12. -/
theorem test_fetch_past_end : faultAfter { machine 0x01000000#32 0 [] [] with program := [] } = some (6, 0, 0) := by
  decide +kernel

/-! ### Bit-store commands (2.2) -/

/-- 2.2.18. -/
theorem test_sinit : let t := after { machine 0x10010000#32 0 [] [(1, 769)] with capMax := 1024#64 }
    t.cap = 1024#64 ∧ t.readS ⟨0#4⟩ = 0x400#64 ∧ t.store = [] := by decide +kernel
/-- 2.2.17. -/
theorem test_sinit_capacity : let s := { machine 0x10010000#32 512 (bits [3]) [(1, 1025)] with capMax := 1024#64 }
    faultAfter s = some (4, 1025, 0) ∧ (after s).cap = 512#64 ∧ (after s).store = bits [3] := by decide +kernel
/-- 2.2.20, with the words of the port free. -/
theorem test_srand : let t := after (machine 0x11010000#32 0 [] [(1, 257)])
    t.cap = 512#64 ∧ t.readS ⟨0#4⟩ = 0x200#64 ∧ t.draws = 8 ∧ t.pc = 1#32 := by decide +kernel
/-- 2.2.20: granule 3 holds the fourth word drawn. -/
theorem test_srand_order : Memory.granule (Memory.ofDraws 0 8) 3 = Config.rng64 3 := granule_ofDraws 0 8 3 (by decide)
/-- 2.2.5. -/
theorem test_getb : (after (machine 0x12870000#32 512 [(56, 0xEF#8)] [(7, 448)])).readS ⟨8#4⟩ = 1#64 := by decide +kernel
/-- 2.2.6. -/
theorem test_getb_zero : (after (machine 0x12870000#32 512 [(56, 0xEF#8)] [(7, 452), (8, 9)])).readS ⟨8#4⟩ = 0#64 := by
  decide +kernel
/-- 2.2.1 and 2.2.3. -/
theorem test_setb : (after (machine 0x13340000#32 512 [] [(3, 511), (4, 0xFFFFFFFFFFFFFFFF)])).store = [(63, 0x80#8)] ∧
    (after (machine 0x13340000#32 512 [(63, 0x80#8)] [(3, 511), (4, 0)])).store = [] := by decide +kernel
/-- 2.2.2. -/
theorem test_setb_range : faultAfter (machine 0x13340000#32 512 [] [(3, 512), (4, 1)]) = some (2, 512, 0) := by
  decide +kernel
/-- 2.2.4 read back. -/
theorem test_getw : (after (machine 0x14950000#32 512 [(56, 0xEF#8), (57, 0xCD#8), (63, 0x01#8)] [(5, 7)])).readS ⟨9#4⟩ =
    0x010000000000CDEF#64 := by decide +kernel
/-- 2.2.8. -/
theorem test_getw_range : faultAfter (machine 0x14950000#32 512 [] [(5, 8)]) = some (2, 8, 0) := by decide +kernel
/-- 2.2.4. -/
theorem test_setw : Memory.vec (after (machine 0x15560000#32 512 [] [(5, 7), (6, 0x0123456789ABCDEF)])).store 1 =
    0x0123456789ABCDEF000000000000000000000000000000000000000000000000#256 := by decide +kernel
/-- 2.2.7. -/
theorem test_setw_range : faultAfter (machine 0x15560000#32 512 [] [(5, 8)]) = some (2, 8, 0) := by decide +kernel
/-- 2.2.9. -/
theorem test_vld : (after (machine 0x16350000#32 512 [(32, 0x12#8), (63, 0x34#8)] [(5, 1)])).readV ⟨3#4⟩ =
    0x3400000000000000000000000000000000000000000000000000000000000012#256 := by decide +kernel
/-- 2.2.11. -/
theorem test_vld_range : faultAfter (machine 0x16350000#32 512 [] [(5, 2)]) = some (2, 2, 0) := by decide +kernel
/-- 2.2.10. -/
theorem test_vst : (after (machine 0x17530000#32 512 [(5, 7#8)] [(5, 0)] [(3, 0x1200000000000000000000000000000000#256)])).store
    = [(16, 0x12#8)] := by decide +kernel
/-- 2.2.11. -/
theorem test_vst_range : faultAfter (machine 0x17530000#32 512 [] [(5, 2)]) = some (2, 2, 0) := by decide +kernel
/-- 2.2.12, 2.2.13, 2.2.14. -/
theorem test_seq :
    (after (machine 0x18DABC00#32 512 [(3, 5#8), (35, 5#8)] [(10, 0), (11, 1), (12, 1)])).readS ⟨13#4⟩ = 1#64 ∧
    (after (machine 0x18DABC00#32 512 [(0, 32#8), (3, 5#8), (35, 5#8)] [(10, 0), (11, 1), (12, 1)])).readS ⟨13#4⟩ = 0#64 ∧
    (after (machine 0x18DABC00#32 512 [(0, 32#8)] [(10, 0), (11, 1), (12, 0)])).readS ⟨13#4⟩ = 1#64 := by decide +kernel
/-- 2.2.15, 2.2.16. -/
theorem test_seq_range :
    faultAfter (machine 0x18DABC00#32 512 [] [(10, 0), (11, 1), (12, 2)]) = some (2, 1, 0) ∧
    faultAfter (machine 0x18DABC00#32 512 [] [(10, 2), (11, 3), (12, 0)]) = some (2, 3, 0) := by decide +kernel

/-! ### Packing commands (2.3) -/

/-- 2.3.1. -/
theorem test_pack :
    (after (machine 0x20145000#32 8192 [(0, 1#8), (1, 0xFF#8), (2, 0x80#8), (16, 1#8), (255, 1#8)] [(4, 0), (5, 256)])).readV
      ⟨1#4⟩ = 0x8000000000000000000000000000000000000000000000000000000000010007#256 := by decide +kernel
/-- 2.3.5, 2.3.6. -/
theorem test_pack_faults : faultAfter (machine 0x20145000#32 8192 [] [(4, 1000), (5, 257)]) = some (3, 257, 0) ∧
    faultAfter (machine 0x20145000#32 8192 [] [(4, 25), (5, 256)]) = some (2, 25, 0) ∧
    faultAfter (machine 0x20145000#32 8192 [] [(4, 24), (5, 256)]) = none := by decide +kernel
/-- 2.3.2. -/
theorem test_unpack : (after (machine 0x21610000#32 8192 [(300, 9#8)] [(6, 8)]
    [(1, 0x8000000000000000000000000000000000000000000000000000000000010007#256)])).store =
    [(256, 1#8), (257, 1#8), (258, 1#8), (272, 1#8), (511, 1#8)] := by decide +kernel
/-- 2.3.7. -/
theorem test_unpack_range : faultAfter (machine 0x21610000#32 8192 [] [(6, 25)]) = some (2, 25, 0) := by decide +kernel

/-! ### Lane arithmetic (2.4) -/

/-- 2.4.1. -/
theorem test_popc16 : (after (machine 0x28210000#32 0 [] []
    [(1, 0xCAFEBEEF12340100FFFE7FFFAAAA5555FFFF80000F0F00FF0003000200010000#256)])).readV ⟨2#4⟩ =
    0x000B000D00050001000F000F0008000800100001000800080002000100010000#256 := by decide +kernel
/-- 2.4.1. -/
theorem test_popsum : (after (machine 0x29310000#32 0 [] []
    [(1, 0xCAFEBEEF12340100FFFE7FFFAAAA5555FFFF80000F0F00FF0003000200010000#256)])).readS ⟨3#4⟩ = 113#64 := by
  decide +kernel
/-- 2.4.1. -/
theorem test_popsum_all : (after (machine 0x29310000#32 0 [] [] [(1, BitVec.allOnes 256)])).readS ⟨3#4⟩ = 256#64 := by
  decide +kernel
/-- 2.4.3: all 64 lane cases in one vector. -/
theorem test_mod4 : (after (machine 0x2A412300#32 0 [] []
    [(1, 0x00000000000000000000000000000000FFFFFFFFAAAAAAAA5555555500000000#256),
     (2, 0x00000000000000000000000000000000FFAA5500FFAA5500FFAA5500FFAA5500#256),
     (3, 0x00000000000000000000000000000000E4E4E4E4E4E4E4E4E4E4E4E4E4E4E4E4#256)])).readV ⟨4#4⟩ =
    0x00000000000000000000000000000000C6B16C1BB16C1BC66C1BC6B11BC6B16C#256 := by decide +kernel
/-- 2.4.4 a, e, h. -/
theorem test_xorm :
    Memory.vec (after (machine 0x30123000#32 1024 [(0, 0xF0#8), (1, 0xF0#8), (32, 0xFF#8), (64, 0xAA#8), (65, 0xAA#8)]
      [(1, 0), (2, 2), (3, 2)])).store 0 = 0x5A5A#256 ∧
    (after (machine 0x30123000#32 1024 [(0, 0xF0#8), (32, 0xFF#8), (64, 0xAA#8)] [(1, 1), (2, 1), (3, 2)])).store =
      [(0, 0xF0#8)] ∧
    faultAfter (machine 0x30123000#32 1024 [] [(1, 4), (2, 4), (3, 0)]) = none := by decide +kernel
/-- 2.4.4 c, d, f, g, i. -/
theorem test_xorm_faults : ∀ x ∈ [(0, 1, 2, 5, 1), (1, 0, 2, 5, 0), (3, 0, 2, 2, 3), (0, 3, 2, 2, 3), (5, 0, 0, 2, 5)],
    faultAfter (machine 0x30123000#32 1024 [] [(1, x.1), (2, x.2.1), (3, x.2.2.1)]) = some (x.2.2.2.1, x.2.2.2.2, 0) := by
  decide +kernel
/-- 2.4.5. -/
theorem test_anynz : ∀ x ∈ [(0, 3, 0), (0, 4, 1), (3, 1, 1), (3, 0, 0), (4, 0, 0), (0, 0, 0)],
    ((after (machine 0x31423000#32 1024 (bits [1023]) [(2, x.1), (3, x.2.1)])).readS ⟨4#4⟩).toNat = x.2.2 := by
  decide +kernel
/-- 2.4.5. -/
theorem test_anynz_range : faultAfter (machine 0x31423000#32 1024 (bits [1023]) [(2, 2), (3, 3)]) = some (2, 2, 0) ∧
    faultAfter (machine 0x31423000#32 1024 [] [(2, 5), (3, 0)]) = some (2, 5, 0) := by decide +kernel

/-! ### Address-bit permutations (2.5) -/

/-- 2.5.1, the column `p = 0x03C8`. -/
theorem test_swapk : ∀ x ∈ [(0, 0x02C9), (1, 0x01CA), (2, 0x03C8), (3, 0x0BC0), (6, 0x4388), (7, 0x8348)],
    Memory.onesOf (after (machine (0x40200000#32 + BitVec.ofNat 32 (256 * x.1)) 65536 (bits [0x03C8]) [(2, 0)])).store =
      [x.2] := by decide +kernel
/-- 2.5.3, last lines. -/
theorem test_swapk_range : faultAfter (machine 0x40200300#32 262144 [] [(2, 769)]) = some (2, 769, 0) ∧
    faultAfter (machine 0x40200300#32 262144 [] [(2, 768)]) = none := by decide +kernel
/-- 2.5.3. -/
theorem test_swaps : ∀ x ∈ [(0, 3345, 4112), (4, 3345, 15617), (2, 3345, 277), (7, 196096, 97920)],
    Memory.onesOf (after (machine (0x41230000#32 + BitVec.ofNat 32 (256 * x.1)) 196608 (bits [x.2.1])
      [(2, 1), (3, 3)])).store = [x.2.2] := by decide +kernel
/-- 2.5.3. -/
theorem test_swaps_faults : faultAfter (machine 0x41230700#32 196608 [] [(2, 3), (3, 3)]) = some (2, 3, 0) ∧
    faultAfter (machine 0x41230700#32 196608 [] [(2, 1), (3, 0)]) = some (3, 0, 0) ∧
    faultAfter (machine 0x41230700#32 196608 [] [(2, 0xFFFFFFFFFFFFFFFF), (3, 0xFFFFFFFFFFFFFFFF)]) =
      some (2, 0xFFFFFFFFFFFFFFFF, 0) := by decide +kernel

/-! ### Transposes (2.6) -/

/-- 2.6.1. -/
theorem test_tblk : ∀ x ∈ [(968, 51203), (65280, 255), (4369, 4369)],
    Memory.onesOf (after (machine 0x48400000#32 65536 (bits [x.1]) [(4, 0)])).store = [x.2] := by decide +kernel
/-- 2.6.1. -/
theorem test_tblk_range : faultAfter (machine 0x48400000#32 0 [] [(4, 0)]) = some (2, 0, 0) := by decide +kernel
/-- Program P3 at pitch 2 (45_transpose.md R191 by hand): row 3, column 200 of the block at vector 1. -/
theorem test_tblks : Memory.onesOf (after (machine 0x49230000#32 262144 (bits [256 * 7 + 200]) [(2, 1), (3, 2)])).store =
    [256 * 401 + 3] := by decide +kernel
/-- 2.6.2. -/
theorem test_tblks_faults : faultAfter (machine 0x49230000#32 262144 [] [(2, 0), (3, 0)]) = some (3, 0, 0) ∧
    faultAfter (machine 0x49230000#32 262144 [] [(2, 3), (3, 4)]) = none ∧
    faultAfter (machine 0x49230000#32 262144 [] [(2, 4), (3, 4)]) = some (2, 4, 0) := by decide +kernel
/-- 2.6.2, the marked vectors. -/
theorem test_rblk : ∀ x ∈ [(1, 768), (17, 1551), (2302, 1535), (790, 790)],
    (after (machine 0x4A230000#32 589824 [(32 * x.1, 0xBC#8), (32 * x.1 + 1, 0x0A#8)] [(2, 0), (3, 589824)])).store =
      [(32 * x.2, 0xBC#8), (32 * x.2 + 1, 0x0A#8)] := by decide +kernel
/-- 2.6.2. -/
theorem test_rblk_faults : (∀ a ∈ [131072, 262143, 90000, 65535],
      faultAfter (machine 0x4A230000#32 262144 [] [(2, 0), (3, a)]) = some (3, a, 0)) ∧
    (∀ a ∈ [0, 65536, 262144], faultAfter (machine 0x4A230000#32 262144 [] [(2, 0), (3, a)]) = none) ∧
    (∀ a ∈ [589824, 2 ^ 62], faultAfter (machine 0x4A230000#32 262144 [] [(2, 0), (3, a)]) = some (2, 0, 0)) ∧
    faultAfter (machine 0x4A230000#32 262144 [] [(2, 1), (3, 262144)]) = some (2, 1, 0) := by decide +kernel
/-- 2.6.3. -/
theorem test_tmat : ∀ x ∈ [(767, 589056), (4140, 230405), (392704, 197119), (589823, 589823), (196608, 256)],
    Memory.onesOf (after (machine 0x4B230000#32 589824 (bits [x.1]) [(2, 0), (3, 768)])).store = [x.2] := by decide +kernel
/-- 2.6.3. -/
theorem test_tmat_faults :
    (∀ x ∈ [(0, 0), (0, 256), (0, 512), (768, 256)],
      faultAfter (machine 0x4B230000#32 262144 [] [(2, x.1), (3, x.2)]) = none) ∧
    (∀ x ∈ [(0, 768), (0, 2 ^ 63), (0, 2 ^ 64 - 256), (769, 256)],
      faultAfter (machine 0x4B230000#32 262144 [] [(2, x.1), (3, x.2)]) = some (2, x.1, 0)) ∧
    (∀ n ∈ [255, 1, 257], faultAfter (machine 0x4B230000#32 262144 [] [(2, 0), (3, n)]) = some (3, n, 0)) := by
  decide +kernel

/-! ### Assembler (30_encoding.md R90, R91, section 6) -/

theorem test_assemble : assemble ["LI s1, 300 ; n".toList, "  SINIT s2, s1".toList, [], "LIK s1, 2, 0x1234".toList,
    "SWAPS s2, s3, 4".toList, "HALT".toList] =
    some [0x0210012C#32, 0x10210000#32, 0x03121234#32, 0x41230400#32, 0x01000000#32] := by decide +kernel
theorem test_assemble_wide : assemble ["LI64 s3, 0xFFFF00000000BEEF".toList, "LI64 s3, 0".toList] =
    some [0x0230BEEF#32, 0x0333FFFF#32, 0x02300000#32] := by decide +kernel
theorem test_assemble_rejects : assemble ["LI s16, 1".toList] = none ∧ assemble ["SWAPK s1, 8".toList] = none ∧
    assemble ["NOP".toList] = none := by decide +kernel
theorem test_command_text : commandText (.swaps ⟨2#4⟩ ⟨3#4⟩ 4#3) = "SWAPS s2, s3, 4".toList ∧
    assembleLine (commandText (.mod4 ⟨3#4⟩ ⟨1#4⟩ ⟨1#4⟩ ⟨15#4⟩)) = some [.mod4 ⟨3#4⟩ ⟨1#4⟩ ⟨1#4⟩ ⟨15#4⟩] := by
  decide +kernel

/-! ### Host port (70_reset_and_hazards.md R246) -/

theorem test_port_start : port .start State.reset = .next State.reset.toRunning := rfl
theorem test_port_csr : portReadCsr (after (machine 0x12870000#32 512 [] [(7, 512)])) 3 = some 512#64 ∧
    portReadCsr (machine 0x12870000#32 512 [] []) 3 = none := by decide +kernel

/-! ### Witnesses: concrete inputs that meet the hypotheses of the statements, at the ends of their ranges -/

/-- An engine of 262144 bits at most, in RUNNING at a HALT, with capacity `cap` and the registers `s1`, `s2`, `s3`. -/
def sample (cap s1 s2 s3 : Nat) : State :=
  { machine 0x01000000#32 cap [] [(1, s1), (2, s2), (3, s3)] with capMax := 262144#64 }

/-- What a step answers. -/
theorem next_after (s : State) : step s = .next (after s) := by
  obtain ⟨t, h, -⟩ := step_cases s
  rw [after, h]

/-- The state after one command. -/
def ran (i : Instr) (s : State) : State :=
  match exec i s with
  | .next t => t
  | .fault _ => s
  | .refused _ => s

/-- What a command answers. -/
theorem exec_ran (i : Instr) (s : State) : exec i s = .next (ran i s) := by
  obtain ⟨t, h, -⟩ := exec_did i s
  rw [ran, h]

/-- The sample with another run state. -/
def rested (r : RunState) : State := { sample 512 0 0 0 with runState := r }

theorem witness_EncodeOfDecode : decode 0x4B450000#32 = .ok (.tmat ⟨4#4⟩ ⟨5#4⟩) := by decide

theorem witness_OpcodeMapUnambiguous :
    (∃ r ∈ opRows, 0x40500700#32 &&& r.mask = r.val) ∧ (∀ r ∈ opRows, 0x40500800#32 &&& r.mask ≠ r.val) := by decide

theorem witness_IllegalWordsFault :
    (let s := machine 0x40500800#32 0 [] [];
      s.runState = .running ∧ s.program[s.pc.toNat]? = some 0x40500800#32 ∧ WellFormed.word 0x40500800#32 = false) ∧
    (let s := machine 0x40500700#32 0 [] [];
      s.runState = .running ∧ s.program[s.pc.toNat]? = some 0x40500700#32 ∧ WellFormed.word 0x40500700#32 = true) := by
  decide

theorem witness_WideLoadExpansion : (⟨0#4⟩ : SReg) ≠ ⟨15#4⟩ := by decide

theorem witness_StepRunsTheDecodedCommand :
    let s := machine 0x13340000#32 0 [] []
    s.runState = .running ∧ s.program[s.pc.toNat]? = some 0x13340000#32 ∧
      decode 0x13340000#32 = .ok (.setb ⟨3#4⟩ ⟨4#4⟩) := by decide

theorem witness_FetchPastTheEndFaults :
    let s := { sample 0 0 0 0 with pc := 1#32 }
    s.runState = .running ∧ s.program.length ≤ s.pc.toNat := by decide

theorem witness_EngineRestsOutsideRunning : (rested .idle).runState = .idle ∧ (rested .halted).runState = .halted ∧
    (rested .faulted).runState = .faulted := by decide

theorem witness_EveryRunEnds : (sample 512 0 0 0).runState = .running ∧ (sample 512 0 0 0).program.length < 2 ^ 32 := by
  decide

theorem witness_WellFormedProgramsFetchSafely :
    let s := { sample 512 0 0 0 with program := [0x12870000#32, 0x01000000#32] }
    s.runState = .running ∧ s.pc = 0#32 ∧ s.cause = .none ∧ WellFormed.program s.program = true := by decide

theorem witness_FaultEntryIsPrecise :
    ∃ t, step (machine 0x12870000#32 512 [] [(7, 512)]) = .next t ∧ t.runState = .faulted :=
  ⟨_, next_after _, by decide +kernel⟩

theorem witness_FaultsAreSticky : (rested .faulted).runState = .faulted ∧
    ∃ t, PortOp.writeS ⟨1#4⟩ 7#64 ≠ .reset ∧ port (.writeS ⟨1#4⟩ 7#64) (rested .faulted) = .next t :=
  ⟨by decide, _, by decide, rfl⟩

theorem witness_FaultsIgnoreStoreAndVectors : ∃ t, exec (.getb ⟨2#4⟩ ⟨1#4⟩) (sample 512 512 0 0) = .next t ∧
    t.runState = .faulted := ⟨_, exec_ran _ _, by decide +kernel⟩

theorem witness_CapacityWritersAreFew :
    (∃ t, exec (.sinit ⟨2#4⟩ ⟨1#4⟩) (sample 512 1000 0 0) = .next t ∧ t.cap ≠ (sample 512 1000 0 0).cap) ∧
    (∃ t, port .reset (sample 512 0 0 0) = .next t ∧ t.cap ≠ (sample 512 0 0 0).cap) ∧
    (∃ t, port (.writeCommand 0 0#32) (rested .idle) = .next t ∧ t.program ≠ (rested .idle).program) :=
  ⟨⟨_, exec_ran _ _, by decide +kernel⟩, ⟨_, rfl, by decide⟩, ⟨_, rfl, by decide⟩⟩

theorem witness_OnlySrandDraws : (∀ rd ra, Instr.sinit ⟨2#4⟩ ⟨1#4⟩ ≠ .srand rd ra) ∧
    ∃ t, exec (.sinit ⟨2#4⟩ ⟨1#4⟩) (sample 512 1000 0 0) = .next t := ⟨by simp, _, exec_ran _ _⟩

theorem witness_CeilRoundsUpOrFaults :
    ((sample 0 0xFFFFFFFFFFFFFF00 0 0).readS ⟨1#4⟩).toNat ≤ 2 ^ 64 - 256 ∧
    2 ^ 64 - 256 < ((sample 0 0xFFFFFFFFFFFFFF01 0 0).readS ⟨1#4⟩).toNat := by decide

/-- The bounds of SINIT and SRAND, and a granule of the new store. -/
theorem witness_SinitConstructsZeroStore_SrandFillsFromThePort :
    (let s := sample 512 262144 0 0;
      256 * (((s.readS ⟨1#4⟩).toNat + 255) / 256) ≤ s.capMax.toNat ∧
      64 * 4095 < 256 * (((s.readS ⟨1#4⟩).toNat + 255) / 256)) ∧
    (let s := sample 512 262145 0 0;
      s.capMax.toNat < 256 * (((s.readS ⟨1#4⟩).toNat + 255) / 256)) := by decide

theorem witness_GetbReadsOneBit_SetbWritesOneBit :
    ((sample 512 511 0 0).readS ⟨1#4⟩).toNat < (sample 512 511 0 0).cap.toNat ∧
    (sample 512 512 0 0).cap.toNat ≤ ((sample 512 512 0 0).readS ⟨1#4⟩).toNat := by decide

theorem witness_GetwReadsOneGranule_SetwWritesOneGranule :
    ((sample 512 7 0 0).readS ⟨1#4⟩).toNat < (sample 512 7 0 0).cap.toNat / 64 ∧
    (sample 512 8 0 0).cap.toNat / 64 ≤ ((sample 512 8 0 0).readS ⟨1#4⟩).toNat := by decide

theorem witness_VldLoadsOneVector_VstStoresOneVector :
    ((sample 512 1 0 0).readS ⟨1#4⟩).toNat < (sample 512 1 0 0).cap.toNat / 256 ∧
    (sample 512 2 0 0).cap.toNat / 256 ≤ ((sample 512 2 0 0).readS ⟨1#4⟩).toNat := by decide

theorem witness_SeqComparesTwoRegions :
    (let s := sample 1024 2 0 2;
      (s.readS ⟨1#4⟩).toNat + (s.readS ⟨3#4⟩).toNat ≤ s.cap.toNat / 256 ∧
      (s.readS ⟨2#4⟩).toNat + (s.readS ⟨3#4⟩).toNat ≤ s.cap.toNat / 256) ∧
    (let s := sample 1024 3 3 2;
      s.cap.toNat / 256 < (s.readS ⟨1#4⟩).toNat + (s.readS ⟨3#4⟩).toNat) ∧
    (let s := sample 1024 2 3 2;
      (s.readS ⟨1#4⟩).toNat + (s.readS ⟨3#4⟩).toNat ≤ s.cap.toNat / 256 ∧
      s.cap.toNat / 256 < (s.readS ⟨2#4⟩).toNat + (s.readS ⟨3#4⟩).toNat) := by decide

theorem witness_PackGathersBooleans :
    (let s := sample 8192 24 256 0;
      s.readS ⟨2#4⟩ = 256#64 ∧ (s.readS ⟨1#4⟩).toNat + 8 ≤ s.cap.toNat / 256) ∧
    (sample 8192 1000 257 0).readS ⟨2#4⟩ ≠ 256#64 ∧
    (let s := sample 8192 25 256 0;
      s.readS ⟨2#4⟩ = 256#64 ∧ s.cap.toNat / 256 < (s.readS ⟨1#4⟩).toNat + 8) := by decide

theorem witness_UnpackSpreadsBits :
    (let s := sample 8192 24 0 0;
      (s.readS ⟨1#4⟩).toNat + 8 ≤ s.cap.toNat / 256) ∧
    (let s := sample 8192 25 0 0;
      s.cap.toNat / 256 < (s.readS ⟨1#4⟩).toNat + 8) := by decide

/-- Both directions; for the bytes, the two values they may have. -/
theorem witness_PackUnpackRoundTrip :
    let s := { sample 8192 0 256 24 with store := [(0, 1#8)] }
    s.readS ⟨2#4⟩ = 256#64 ∧ (s.readS ⟨1#4⟩).toNat + 8 ≤ s.cap.toNat / 256 ∧
      (s.readS ⟨3#4⟩).toNat + 8 ≤ s.cap.toNat / 256 ∧
      Memory.byteAt s.store (32 * (s.readS ⟨1#4⟩).toNat + 0) = 0x01#8 ∧
      Memory.byteAt s.store (32 * (s.readS ⟨1#4⟩).toNat + 255) = 0x00#8 := by decide

theorem witness_TotalPopulationCount : ∃ u, exec (.popc16 ⟨1#4⟩ ⟨1#4⟩) (sample 512 0 0 0) = .next u :=
  ⟨_, exec_ran _ _⟩

theorem witness_XormCombinesRegions :
    (let s := sample 1024 3 0 2;
      s.cap.toNat / 256 < (s.readS ⟨1#4⟩).toNat + (s.readS ⟨3#4⟩).toNat) ∧
    (let s := sample 1024 0 3 2;
      (s.readS ⟨1#4⟩).toNat + (s.readS ⟨3#4⟩).toNat ≤ s.cap.toNat / 256 ∧
      s.cap.toNat / 256 < (s.readS ⟨2#4⟩).toNat + (s.readS ⟨3#4⟩).toNat) ∧
    (let s := sample 1024 1 2 2;
      (s.readS ⟨1#4⟩).toNat + (s.readS ⟨3#4⟩).toNat ≤ s.cap.toNat / 256 ∧
      (s.readS ⟨2#4⟩).toNat + (s.readS ⟨3#4⟩).toNat ≤ s.cap.toNat / 256 ∧
      0 < (s.readS ⟨3#4⟩).toNat ∧ (s.readS ⟨1#4⟩).toNat ≠ (s.readS ⟨2#4⟩).toNat ∧
      (s.readS ⟨1#4⟩).toNat < (s.readS ⟨2#4⟩).toNat + (s.readS ⟨3#4⟩).toNat ∧
      (s.readS ⟨2#4⟩).toNat < (s.readS ⟨1#4⟩).toNat + (s.readS ⟨3#4⟩).toNat) ∧
    (let s := sample 1024 2 2 2;
      (s.readS ⟨1#4⟩).toNat + (s.readS ⟨3#4⟩).toNat ≤ s.cap.toNat / 256 ∧
      (s.readS ⟨2#4⟩).toNat + (s.readS ⟨3#4⟩).toNat ≤ s.cap.toNat / 256 ∧
      (s.readS ⟨1#4⟩).toNat = (s.readS ⟨2#4⟩).toNat) ∧
    (let s := sample 1024 2 0 2;
      (s.readS ⟨1#4⟩).toNat + (s.readS ⟨3#4⟩).toNat ≤ s.cap.toNat / 256 ∧
      (s.readS ⟨2#4⟩).toNat + (s.readS ⟨3#4⟩).toNat ≤ (s.readS ⟨1#4⟩).toNat) := by decide

theorem witness_XormLaws :
    (let s := sample 1024 2 0 2;
      (s.readS ⟨1#4⟩).toNat + (s.readS ⟨3#4⟩).toNat ≤ s.cap.toNat / 256 ∧
      (s.readS ⟨2#4⟩).toNat + (s.readS ⟨3#4⟩).toNat ≤ s.cap.toNat / 256 ∧
      (s.readS ⟨2#4⟩).toNat + (s.readS ⟨3#4⟩).toNat ≤ (s.readS ⟨1#4⟩).toNat ∧
      ∀ i < (s.readS ⟨3#4⟩).toNat, Memory.vec s.store ((s.readS ⟨2#4⟩).toNat + i) = 0#256) ∧
    (let s := sample 1024 2 2 2;
      (s.readS ⟨1#4⟩).toNat + (s.readS ⟨3#4⟩).toNat ≤ s.cap.toNat / 256 ∧ s.readS ⟨1#4⟩ = s.readS ⟨2#4⟩) := by
  decide +kernel

theorem witness_AnynzReducesARegion :
    (let s := sample 1024 0 4 0;
      (s.readS ⟨1#4⟩).toNat + (s.readS ⟨2#4⟩).toNat ≤ s.cap.toNat / 256) ∧
    (let s := sample 1024 5 0 0;
      s.cap.toNat / 256 < (s.readS ⟨1#4⟩).toNat + (s.readS ⟨2#4⟩).toNat) := by decide

theorem witness_LevelPermutationForm : 7 < 8 ∧ 65535 < 65536 := by decide

theorem witness_SwapkExchangesOneLevel_TblkTransposesABlock :
    (let s := sample 262144 768 0 0;
      (s.readS ⟨1#4⟩).toNat + 256 ≤ s.cap.toNat / 256) ∧
    (let s := sample 262144 769 0 0;
      s.cap.toNat / 256 < (s.readS ⟨1#4⟩).toNat + 256) := by decide

theorem witness_SwapsExchangesOneLevelAtStride_TblksTransposesAStridedBlock_SwapByRegisterOperations :
    (let s := sample 262144 3 4 0;
      s.readS ⟨2#4⟩ ≠ 0#64 ∧ (s.readS ⟨1#4⟩).toNat + 255 * (s.readS ⟨2#4⟩).toNat + 1 ≤ s.cap.toNat / 256 ∧
      Nat.testBit 127 7 = false) ∧
    (sample 262144 3 0 0).readS ⟨2#4⟩ = 0#64 ∧
    (let s := sample 262144 4 4 0;
      s.readS ⟨2#4⟩ ≠ 0#64 ∧ s.cap.toNat / 256 < (s.readS ⟨1#4⟩).toNat + 255 * (s.readS ⟨2#4⟩).toNat + 1) := by decide

/-- A block in which exactly the last bit is set. -/
theorem witness_SingleBitContract :
    (let s := { sample 65536 0 0 0 with store := bits [65535] };
      65535 < 65536 ∧ (s.readS ⟨1#4⟩).toNat + 256 ≤ s.cap.toNat / 256 ∧
        ∀ q < 65536, Memory.bitAt s.store (256 * (s.readS ⟨1#4⟩).toNat + q) = decide (q = 65535)) ∧
    (let s := { sample 262144 3 4 0 with store := bits [262143] };
      s.readS ⟨2#4⟩ ≠ 0#64 ∧ (s.readS ⟨1#4⟩).toNat + 255 * (s.readS ⟨2#4⟩).toNat + 1 ≤ s.cap.toNat / 256 ∧
        ∀ r < 256, ∀ c < 256, (Memory.vec s.store ((s.readS ⟨1#4⟩).toNat + r * (s.readS ⟨2#4⟩).toNat)).getLsbD c =
          decide (256 * r + c = 65535)) := by
  refine ⟨⟨by decide, by decide, fun q _ => ?_⟩, by decide, by decide, fun r _ c hc => ?_⟩
  · have e : (bits [65535]) = Memory.setBit [] 65535 true := rfl
    show Memory.bitAt (bits [65535]) (256 * 0 + q) = _
    rw [e, bitAt_setBit, bitAt_nil]
    by_cases h : q = 65535 <;> simp [h]
  · have e : (bits [262143]) = Memory.setBit [] 262143 true := rfl
    show (Memory.vec (bits [262143]) (3 + r * 4)).getLsbD c = _
    rw [getLsbD_vec, e, bitAt_setBit, bitAt_nil, decide_eq_true hc, Bool.true_and]
    by_cases h : 256 * (3 + r * 4) + c = 262143
    · rw [if_pos h]; exact (decide_eq_true (by omega)).symm
    · rw [if_neg h]; exact (decide_eq_false (by omega)).symm

/-- The order of the levels of 2.5.2. -/
theorem witness_BlockTransposeIsEightLevels :
    [5#3, 2#3, 7#3, 0#3, 3#3, 1#3, 6#3, 4#3].Perm [0#3, 1#3, 2#3, 3#3, 4#3, 5#3, 6#3, 7#3] ∧
    (let s := sample 262144 3 4 0;
      (s.readS ⟨1#4⟩).toNat + 256 ≤ s.cap.toNat / 256 ∧ s.readS ⟨2#4⟩ ≠ 0#64 ∧
      (s.readS ⟨1#4⟩).toNat + 255 * (s.readS ⟨2#4⟩).toNat + 1 ≤ s.cap.toNat / 256) := by decide

theorem witness_RblkExchangesBlocks :
    (let s := sample 262144 0 262144 0;
      256 * 2 * (256 * 2) = (s.readS ⟨2#4⟩).toNat ∧ (s.readS ⟨1#4⟩).toNat + 256 * 2 * 2 ≤ s.cap.toNat / 256) ∧
    (let s := sample 262144 1 262144 0;
      256 * 2 * (256 * 2) = (s.readS ⟨2#4⟩).toNat ∧ s.cap.toNat / 256 < (s.readS ⟨1#4⟩).toNat + 256 * 2 * 2) ∧
    ∀ side, 256 * side * (256 * side) ≠ ((sample 262144 0 131072 0).readS ⟨2#4⟩).toNat := by
  refine ⟨by decide, by decide, fun side h => ?_⟩
  have e : ((sample 262144 0 131072 0).readS ⟨2#4⟩).toNat = 131072 := by decide
  rw [e] at h
  rcases Nat.lt_or_ge side 2 with h1 | h1
  · interval_cases side <;> omega
  · nlinarith

theorem witness_TmatTransposesAMatrix_TmatIsAnInvolution :
    (let s := sample 262144 0 512 0;
      (s.readS ⟨2#4⟩).toNat % 256 = 0 ∧
      (s.readS ⟨1#4⟩).toNat + (s.readS ⟨2#4⟩).toNat * (s.readS ⟨2#4⟩).toNat / 256 ≤ s.cap.toNat / 256 ∧
      Memory.wf s.store) ∧
    ((sample 262144 0 257 0).readS ⟨2#4⟩).toNat % 256 ≠ 0 ∧
    (let s := sample 262144 1 512 0;
      (s.readS ⟨2#4⟩).toNat % 256 = 0 ∧
      s.cap.toNat / 256 < (s.readS ⟨1#4⟩).toNat + (s.readS ⟨2#4⟩).toNat * (s.readS ⟨2#4⟩).toNat / 256) := by decide

/-- The order of program P4, and another. -/
theorem witness_TwoPhaseTranspose_TwoPhaseExchangeAnywhere :
    512 % 256 = 0 ∧ 0 + 512 * 512 / 256 ≤ (sample 262144 0 0 0).cap.toNat / 256 ∧
    [Phase.block 1 1, .block 0 1, .block 0 0, .block 1 0].Perm (blockPhases (512 / 256)) ∧
    ([Phase.block 0 0, .block 0 1] ++ [Phase.block 1 0, .block 1 1]).Perm (blockPhases (512 / 256)) := by decide

theorem witness_HostReadsControlRegisters : (sample 512 0 0 0).runState = .running ∧ 7 ≠ 0 ∧
    (rested .faulted).runState ≠ .running := by decide

theorem witness_HostPortFollowsItsTable :
    (rested .idle).runState = .idle ∧ (rested .halted).runState = .halted ∧ (sample 512 0 0 0).runState = .running ∧
    (rested .faulted).runState = .faulted ∧ (rested .idle).runState ≠ .running ∧
    1 < (rested .idle).cap.toNat / 256 ∧ 0 < (rested .idle).program.length ∧
    (rested .idle).cap.toNat / 256 ≤ 2 ∧ (rested .idle).program.length ≤ 1 := by decide

theorem witness_ResetMeetsTheInvariant : [0x01000000#32].length < 2 ^ 32 := by decide

/-- An engine in the middle of a run, with a store that is not empty. -/
theorem witness_StepKeepsTheInvariant :
    (machine 0x12870000#32 512 [(63, 0x80#8)] [(7, 511)]).Inv ∧
    (∃ t, step (machine 0x12870000#32 512 [(63, 0x80#8)] [(7, 511)]) = .next t) ∧
    (∃ t, port .start (machine 0x12870000#32 512 [(63, 0x80#8)] [(7, 511)]) = .next t) ∧
    (rested .idle).Inv ∧ ∃ t, port (.writeM 1 5#256) (rested .idle) = .next t :=
  ⟨⟨by decide, by decide, by decide, by decide, by decide, by decide, by decide, by decide, by decide, by decide⟩,
    ⟨_, next_after _⟩, ⟨_, rfl⟩,
    ⟨by decide, by decide, by decide, by decide, by decide, by decide, by decide, by decide, by decide, by decide⟩, _, rfl⟩

theorem witness_ReachableStatesMeetTheInvariant :
    Reachable (State.powerOn (4#56 ++ 0#8) [0x01000000#32]).toRunning :=
  .port .start (.powerOn 4#56 [0x01000000#32] (by decide)) rfl

end Sys2Proof.Tests
end

section
/-! The host's reset and start as operations of the port (70_reset_and_hazards.md R246), and what reset leaves
(10_state.md R37). -/

namespace Sys2Proof.Proofs

open Sys2Proof.Machine Sys2Proof.Laws

/-! ### The port's reset and start -/

/-- Reset acts in every run state (70_reset_and_hazards.md R240). -/
@[simp] theorem port_reset (s : State) : port .reset s = .next s.toReset := rfl

theorem port_start_of_resting {s : State} (h : s.runState = .idle ∨ s.runState = .halted) :
    port .start s = .next s.toRunning := if_pos h

/-- The state that reset leaves is IDLE, so `start` acts on it. -/
theorem port_start_toReset (s : State) : port .start s.toReset = .next s.toReset.toRunning :=
  port_start_of_resting (.inl (toReset_runState s))

/-! ### The store and `IDR` -/

/-- `IDR` reads its constant in every state (10_state.md R32). -/
theorem csr_idr (s : State) : s.csr 7 = some 0x424D5401#64 := rfl

/-- Reset leaves the empty store, whose bits all read zero (10_state.md R37; log 7). -/
theorem toReset_bitAt (s : State) (k : Nat) : Memory.bitAt s.toReset.store k = false := by
  rw [toReset_store, bitAt_nil]

/-- Settles O54: the state that reset answers is `State.toReset`, read field by field. -/
theorem resetLeavesTheStatedValues : Obligations.ResetLeavesTheStatedValues := by
  intro s
  have entered : ∃ u, port .start s.toReset = .next u ∧ u.pc = 0#32 ∧ u.runState = .running :=
    ⟨_, port_start_toReset s, toRunning_pc _, toRunning_runState _⟩
  exact ⟨s.toReset, port_reset s, toReset_readS s, toReset_readV s, toReset_pc s, toReset_runState s, toReset_cause s,
    toReset_finfo s, toReset_fpc s, toReset_cap s, toReset_bitAt s, toReset_capMax s, csr_idr _, toReset_program s, entered⟩

end Sys2Proof.Proofs
end

section
/-! The store at its four widths: one storage, the least significant part first (20_memory.md R51, R52). -/

namespace Sys2Proof.Proofs

open Sys2Proof.Machine Sys2Proof.Laws

/-- Byte `i` of a granule is byte `8g + i` of the store: both show the same eight bits (20_memory.md R52). -/
theorem extractLsb'_granule (m : Memory) (g i : Nat) (hi : i < 8) :
    (Memory.granule m g).extractLsb' (8 * i) 8 = Memory.byteAt m (8 * g + i) := by
  apply BitVec.eq_of_getLsbD_eq
  intro t ht
  have index : 64 * g + (8 * i + t) = 8 * (8 * g + i) + t := by omega
  have inside : 8 * i + t < 64 := by omega
  rw [BitVec.getLsbD_extractLsb', getLsbD_granule, getLsbD_byteAt _ _ _ ht, index]
  simp [ht, inside]

/-- Quarter `q` of vector `j` is granule `4j + q` (20_memory.md R51). -/
theorem extractLsb'_vec (m : Memory) (j q : Nat) (hq : q < 4) :
    (Memory.vec m j).extractLsb' (64 * q) 64 = Memory.granule m (4 * j + q) := by
  apply BitVec.eq_of_getLsbD_eq
  intro t ht
  have index : 256 * j + (64 * q + t) = 64 * (4 * j + q) + t := by omega
  have inside : 64 * q + t < 256 := by omega
  rw [BitVec.getLsbD_extractLsb', getLsbD_vec, getLsbD_granule, index]
  simp [ht, inside]

theorem granule_eq_quarter (m : Memory) (g : Nat) :
    Memory.granule m g = (Memory.vec m (g / 4)).extractLsb' (64 * (g % 4)) 64 := by
  rw [extractLsb'_vec m (g / 4) (g % 4) (Nat.mod_lt g (by decide)), Nat.div_add_mod]

/-- A 256-bit value is its four quarters, the first lowest. -/
theorem eq_append_quarters (w : Vec) :
    w = w.extractLsb' (64 * 3) 64 ++ w.extractLsb' (64 * 2) 64 ++ w.extractLsb' (64 * 1) 64 ++
      w.extractLsb' (64 * 0) 64 := by
  rw [BitVec.extractLsb'_append_extractLsb'_eq_extractLsb' (show 64 * 3 = 64 * 2 + 64 from rfl),
    BitVec.extractLsb'_append_extractLsb'_eq_extractLsb' (show 64 * 2 = 64 * 1 + 64 from rfl),
    BitVec.extractLsb'_append_extractLsb'_eq_extractLsb' (show 64 * 1 = 64 * 0 + 64 from rfl)]
  exact BitVec.extractLsb'_eq_self.symm

theorem vec_eq_append_granules (m : Memory) (j : Nat) :
    Memory.vec m j = Memory.granule m (4 * j + 3) ++ Memory.granule m (4 * j + 2) ++ Memory.granule m (4 * j + 1) ++
      Memory.granule m (4 * j) := by
  have quarters := eq_append_quarters (Memory.vec m j)
  rwa [extractLsb'_vec m j 3 (by decide), extractLsb'_vec m j 2 (by decide), extractLsb'_vec m j 1 (by decide),
    extractLsb'_vec m j 0 (by decide)] at quarters

/-- Settles O30: each width shows the bits of the store in its own cut, and equal bits are equal values. -/
theorem viewsNameOneStorage : Obligations.ViewsNameOneStorage := by
  intro m g j b
  have granuleBits : ∀ i < 64, (Memory.granule m g).getLsbD i = Memory.bitAt m (64 * g + i) := fun i hi => by
    rw [getLsbD_granule, decide_eq_true hi, Bool.true_and]
  have vecBits : ∀ i < 256, (Memory.vec m j).getLsbD i = Memory.bitAt m (256 * j + i) := fun i hi => by
    rw [getLsbD_vec, decide_eq_true hi, Bool.true_and]
  exact ⟨getLsbD_byteAt m b, granuleBits, vecBits, extractLsb'_granule m g, granule_eq_quarter m g,
    vec_eq_append_granules m j⟩

end Sys2Proof.Proofs
end

section
/-! Legal words are the words that decode (30_encoding.md R87, R88): the mask of an opcode row is the opcode byte together
with the bits that the five clauses say must be zero. -/

namespace Sys2Proof.Proofs

open Sys2Proof.Machine Sys2Proof.Laws

/-! ### The bits that the clauses of R88 say must be zero -/

/-- Bits `i + n - 1` down to `i` of a word. -/
def bitsFrom (i n : Nat) : CmdWord := (BitVec.allOnes n).setWidth 32 <<< i

theorem getLsbD_bitsFrom (i n t : Nat) : (bitsFrom i n).getLsbD t = decide (t < 32 ∧ i ≤ t ∧ t < i + n) := by
  rw [bitsFrom, BitVec.getLsbD_shiftLeft, BitVec.getLsbD_setWidth, BitVec.getLsbD_allOnes]
  grind

/-- A word has no bit in a field's mask exactly when the field is zero. -/
theorem and_bitsFrom_eq_zero_iff (w : CmdWord) (i n : Nat) (h : i + n ≤ 32) :
    w &&& bitsFrom i n = 0#32 ↔ w.extractLsb' i n = 0#n := by
  simp only [BitVec.eq_of_getLsbD_eq_iff, BitVec.getLsbD_and, getLsbD_bitsFrom, BitVec.getLsbD_extractLsb',
    BitVec.getLsbD_zero]
  constructor
  · intro outside t ht
    have bit := outside (i + t) (by omega)
    rw [decide_eq_true (by omega : i + t < 32 ∧ i ≤ i + t ∧ i + t < i + n), Bool.and_true] at bit
    rw [bit, Bool.and_false]
  · intro inside t ht
    by_cases within : i ≤ t ∧ t < i + n
    · have bit := inside (t - i) (by omega)
      rw [Nat.add_sub_cancel' within.1, decide_eq_true (by omega : t - i < n), Bool.true_and] at bit
      rw [bit, Bool.false_and]
    · simp [within]

/-- The mask of clause 3 for one operand field: nothing when the command uses the field. -/
def unusedMask (used : Bool) (i : Nat) : CmdWord := if used then 0#32 else bitsFrom i 4

theorem and_unusedMask_eq_zero_iff (w : CmdWord) (used : Bool) (i : Nat) (h : i + 4 ≤ 32) :
    w &&& unusedMask used i = 0#32 ↔ used = true ∨ w.extractLsb' i 4 = 0#4 := by
  cases used
  · simp [unusedMask, and_bitsFrom_eq_zero_iff w i 4 h]
  · simp [unusedMask]

/-- The mask of clauses 2, 3 and 4. -/
def formatMask (sh : WellFormed.Shape) : CmdWord :=
  match sh.format with
  | .R => bitsFrom 0 8 ||| (unusedMask sh.usesA 20 ||| unusedMask sh.usesB 16 ||| unusedMask sh.usesC 12 |||
      unusedMask sh.usesD 8)
  | .I => bitsFrom 18 2

/-- The mask of clause 5. -/
def levelBitMask (sh : WellFormed.Shape) : CmdWord := if sh.level then bitsFrom 11 1 else 0#32

/-- A word has no bit where two masks have one exactly when it has none in either. -/
theorem and_or_eq_zero_iff (w m m' : CmdWord) : w &&& (m ||| m') = 0#32 ↔ w &&& m = 0#32 ∧ w &&& m' = 0#32 := by
  rw [BitVec.and_or_distrib_left, BitVec.or_eq_zero_iff]

theorem and_formatMask_eq_zero_iff (sh : WellFormed.Shape) (w : CmdWord) :
    w &&& formatMask sh = 0#32 ↔
      (WellFormed.zByteZero sh w && WellFormed.unusedFieldsZero sh w && WellFormed.yBitsZero sh w) = true := by
  cases hf : sh.format
  · simp [formatMask, hf, and_or_eq_zero_iff, and_bitsFrom_eq_zero_iff, and_unusedMask_eq_zero_iff,
      WellFormed.zByteZero, WellFormed.unusedFieldsZero, WellFormed.yBitsZero, and_assoc]
  · simp [formatMask, hf, and_bitsFrom_eq_zero_iff,
      WellFormed.zByteZero, WellFormed.unusedFieldsZero, WellFormed.yBitsZero]

theorem and_levelBitMask_eq_zero_iff (sh : WellFormed.Shape) (w : CmdWord) :
    w &&& levelBitMask sh = 0#32 ↔ WellFormed.levelInRange sh w = true := by
  have bit11 : w.extractLsb' 11 1 = 0#1 ↔ w.getLsbD 11 = false := by
    simp [BitVec.eq_of_getLsbD_eq_iff]
  cases hl : sh.level
  · simp [levelBitMask, hl, WellFormed.levelInRange]
  · simp [levelBitMask, hl, WellFormed.levelInRange, and_bitsFrom_eq_zero_iff, bit11]

/-! ### The opcode map and the field table say the same -/

/-- A row of the opcode map is that of the opcode byte `op` and the shape `sh` of the field table: its match is the byte,
and its mask is the byte and the bits of clauses 2 to 5. -/
abbrev SameCommand (r : OpRow) (op : Nat) (sh : WellFormed.Shape) : Prop :=
  op < 256 ∧ r.val = BitVec.ofNat 8 op ++ 0#24 ∧ r.mask = bitsFrom 24 8 ||| (formatMask sh ||| levelBitMask sh)

/-- The 26 rows of R86, in both forms. -/
theorem opRows_sameCommand : List.Forall₂ (fun r entry => SameCommand r entry.1 entry.2) opRows
    (WellFormed.storeShapes ++ WellFormed.laneShapes) := by
  decide

/-- Under the mask of the opcode byte a word is its opcode byte alone. -/
theorem and_opByte (w : CmdWord) : w &&& bitsFrom 24 8 = opField w ++ 0#24 := by
  apply BitVec.eq_of_getLsbD_eq
  intro t ht
  rw [BitVec.getLsbD_and, getLsbD_bitsFrom, BitVec.getLsbD_append, opField, BitVec.getLsbD_extractLsb']
  by_cases low : t < 24
  · simp [low]
  · simp [low, ht, show 24 ≤ t by omega, show 24 + (t - 24) = t by omega, show t - 24 < 8 by omega]

theorem opField_append (op : BitVec 8) (low : BitVec 24) : opField (op ++ low) = op := by
  rw [opField, extractLsb'_append_high _ _ _ _ (Nat.le_refl 24), extractLsb'_whole]

/-- Each opcode byte has a row in both tables or in neither, and the two rows are of one command. -/
theorem find?_rel_lookup (w : CmdWord) {rows : List OpRow} {entries : List (Nat × WellFormed.Shape)}
    (same : List.Forall₂ (fun r entry => SameCommand r entry.1 entry.2) rows entries) :
    Option.Rel (fun r sh => SameCommand r (opField w).toNat sh)
      (rows.find? fun r => opField r.val == opField w) (entries.lookup (opField w).toNat) := by
  induction same with
  | nil => exact .none
  | @cons r entry rows entries hr _ ih =>
    obtain ⟨op, sh⟩ := entry
    obtain ⟨small, hval, hmask⟩ := hr
    have sameByte : (opField r.val == opField w) = ((opField w).toNat == op) := by
      rw [hval, opField_append, Bool.beq_comm, Bool.eq_iff_iff, beq_iff_eq, beq_iff_eq, ← BitVec.toNat_inj,
        BitVec.toNat_ofNat, Nat.mod_eq_of_lt small]
    rw [List.find?_cons, List.lookup_cons, sameByte]
    by_cases hop : (opField w).toNat = op
    · subst hop
      simpa using Option.Rel.some ⟨small, hval, hmask⟩
    · rw [beq_false_of_ne hop]
      exact ih

/-- The opcode byte alone breaks none of the clauses 2 to 5: their masks do not meet it. -/
theorem opByte_and_zeroMask (sh : WellFormed.Shape) : bitsFrom 24 8 &&& (formatMask sh ||| levelBitMask sh) = 0#32 := by
  rw [and_or_eq_zero_iff, and_formatMask_eq_zero_iff, and_levelBitMask_eq_zero_iff,
    show bitsFrom 24 8 = 0xFF000000#32 from rfl]
  simp [WellFormed.zByteZero, WellFormed.unusedFieldsZero, WellFormed.yBitsZero, WellFormed.levelInRange]

/-- Under a mask of two parts that do not meet, a word keeps the bits of the first part alone exactly when it has no bit
in the second. -/
theorem and_or_eq_and_left_iff (w m z : CmdWord) (disjoint : m &&& z = 0#32) :
    w &&& (m ||| z) = w &&& m ↔ w &&& z = 0#32 := by
  constructor
  · intro h
    calc w &&& z = (w &&& (m ||| z)) &&& z := by
          rw [BitVec.and_assoc, BitVec.and_or_distrib_right, disjoint, BitVec.zero_or, BitVec.and_self]
      _ = w &&& (m &&& z) := by rw [h, BitVec.and_assoc]
      _ = 0#32 := by rw [disjoint, BitVec.and_zero]
  · intro h
    rw [BitVec.and_or_distrib_left, h, BitVec.or_zero]

/-- A word with a row's opcode byte matches the row exactly when clauses 2 to 5 do not hold of it. -/
theorem and_mask_eq_val_iff_clauses (w : CmdWord) (r : OpRow) (sh : WellFormed.Shape) (same : SameCommand r (opField w).toNat sh) :
    w &&& r.mask = r.val ↔ (WellFormed.zByteZero sh w && WellFormed.unusedFieldsZero sh w && WellFormed.yBitsZero sh w &&
      WellFormed.levelInRange sh w) = true := by
  obtain ⟨-, hval, hmask⟩ := same
  rw [hmask, hval, BitVec.ofNat_toNat, BitVec.setWidth_eq, Bool.and_eq_true, ← and_formatMask_eq_zero_iff,
    ← and_levelBitMask_eq_zero_iff, ← and_or_eq_zero_iff, ← and_opByte, and_or_eq_and_left_iff _ _ _ (opByte_and_zeroMask sh)]

/-- A word decodes exactly when none of the five clauses of R88 holds of it. -/
theorem decode_ok_iff_word (w : CmdWord) : (∃ i, decode w = .ok i) ↔ WellFormed.word w = true := by
  have tables : Option.Rel _ _ (WellFormed.shapeOf w) := find?_rel_lookup w opRows_sameCommand
  unfold decode WellFormed.word
  generalize opRows.find? _ = row, WellFormed.shapeOf w = shape at tables ⊢
  cases tables with
  | none => simp
  | @some r sh same =>
    rw [← and_mask_eq_val_iff_clauses w r sh same]
    by_cases hm : w &&& r.mask = r.val <;> simp [hm]

theorem step_of_decode_error {s : State} {w : CmdWord} {e : Reject} (hrun : s.runState = .running)
    (hw : s.program[s.pc.toNat]? = some w) (he : decode w = .error e) : step s = .next (s.raiseIllegal w) := by
  simp only [step, hrun, State.fetch, hw, he]

/-- Settles O4: a word decodes exactly when it is legal, and the step of a word that does not decode is fault entry. -/
theorem illegalWordsFault : Obligations.IllegalWordsFault := by
  intro s w hrun hw
  refine ⟨fun illegal => ?_, (decode_ok_iff_word w).2⟩
  cases hd : decode w with
  | error e =>
    refine ⟨_, step_of_decode_error hrun hw hd, ?_⟩
    rw [BitVec.ofNat_toNat]
    exact tookFault_raise .illegalCommand (w.setWidth 64) s
  | ok i =>
    have legal := (decode_ok_iff_word w).1 ⟨i, hd⟩
    rw [illegal] at legal
    exact absurd legal Bool.false_ne_true

end Sys2Proof.Proofs
end

section
/-! The pseudo-instructions expand as 30_encoding.md R91 says, and the expansion of LI64 loads its constant. -/

namespace Sys2Proof.Proofs

open Sys2Proof.Machine Sys2Proof.Laws

/-! ### The value that a list of LIKs builds -/

/-- The LIKs that put the quarters `qs` of a constant in place, one each. -/
def quarterLoads (rd : SReg) (imm64 : Scalar) (qs : List Nat) : List Instr :=
  qs.map fun q => .lik rd (BitVec.ofNat 2 q) (quarterOf imm64 q)

/-- The value `old` after the quarters `qs` of a constant were put in place, one after the other. -/
def withQuarters (imm64 old : Scalar) (qs : List Nat) : Scalar :=
  qs.foldl (fun v q => quarterReplaced v (BitVec.ofNat 2 q) (quarterOf imm64 q)) old

/-- The quarters of a constant that need a LIK (30_encoding.md R91). -/
def nonzeroQuarters (imm64 : Scalar) : List Nat := [1, 2, 3].filter fun q => quarterOf imm64 q != 0#16

theorem pseudoLi64_eq_quarterLoads (rd : SReg) (imm64 : Scalar) :
    pseudoLi64 rd imm64 = .li rd 0#2 (quarterOf imm64 0) :: quarterLoads rd imm64 (nonzeroQuarters imm64) := rfl

theorem getLsbD_quarterOf (imm64 : Scalar) (q t : Nat) (ht : t < 16) :
    (quarterOf imm64 q).getLsbD t = imm64.getLsbD (16 * q + t) := by
  simp [quarterOf, ht]

/-- A bit is the constant's when its quarter was put in place, and the old one otherwise. -/
theorem getLsbD_withQuarters (imm64 old : Scalar) (qs : List Nat) (hqs : ∀ q ∈ qs, q < 4) (i : Nat) (hi : i < 64) :
    (withQuarters imm64 old qs).getLsbD i = if i / 16 ∈ qs then imm64.getLsbD i else old.getLsbD i := by
  induction qs generalizing old with
  | nil => simp [withQuarters]
  | cons q qs ih =>
    have small : (BitVec.ofNat 2 q).toNat = q := Nat.mod_eq_of_lt (hqs q List.mem_cons_self)
    have here : 16 * q ≤ i ∧ i < 16 * q + 16 ↔ i / 16 = q := by omega
    rw [withQuarters, List.foldl_cons, ← withQuarters, ih _ fun p hp => hqs p (List.mem_cons_of_mem q hp),
      getLsbD_quarterReplaced _ _ _ _ hi, small]
    simp only [List.mem_cons, here]
    by_cases now : i / 16 = q
    · have bit : (quarterOf imm64 q).getLsbD (i - 16 * q) = imm64.getLsbD i := by
        rw [getLsbD_quarterOf _ _ _ (by omega), Nat.add_sub_cancel' (by omega)]
      simp [now, bit]
    · simp [now]

/-- The LI clears the register, so the quarters that are zero need no LIK. -/
theorem withQuarters_nonzeroQuarters (imm64 : Scalar) :
    withQuarters imm64 (quarterOnly 0#2 (quarterOf imm64 0)) (nonzeroQuarters imm64) = imm64 := by
  apply BitVec.eq_of_getLsbD_eq
  intro i hi
  have small : ∀ q ∈ nonzeroQuarters imm64, q < 4 := by simp [nonzeroQuarters]
  rw [getLsbD_withQuarters _ _ _ small i hi, getLsbD_quarterOnly]
  split
  · rfl
  next absent =>
    by_cases lowest : i < 16
    · simp [hi, getLsbD_quarterOf _ _ _ lowest]
    · have zero : quarterOf imm64 (i / 16) = 0#16 := by
        have one_to_three : i / 16 = 1 ∨ i / 16 = 2 ∨ i / 16 = 3 := by omega
        simpa [nonzeroQuarters, one_to_three] using absent
      have bit := getLsbD_quarterOf imm64 (i / 16) (i % 16) (by omega)
      rw [zero, Nat.div_add_mod, BitVec.getLsbD_zero] at bit
      rw [← bit, BitVec.getLsbD_of_ge _ _ (by simpa using lowest), Bool.and_false]

/-! ### The run of the expansion -/

/-- The state in which register `rd` has the value `v` and `n` commands have completed since `s`. -/
def loaded (s : State) (rd : SReg) (v : Scalar) (n : Nat) : State :=
  { s.writeS rd v with pc := s.pc + BitVec.ofNat 32 n }

theorem loaded_readS (s : State) (rd : SReg) (v : Scalar) (n : Nat) (r : SReg) :
    (loaded s rd v n).readS r = if r = rd then v else s.readS r :=
  writeS_readS s rd v r

theorem exec_li_loaded (s : State) (rd : SReg) (q : BitVec 2) (imm16 : BitVec 16) :
    exec (.li rd q imm16) s = .next (loaded s rd (quarterOnly q imm16) 1) := rfl

theorem exec_lik_loaded (s : State) (rd : SReg) (v : Scalar) (n : Nat) (q : BitVec 2) (imm16 : BitVec 16) :
    exec (.lik rd q imm16) (loaded s rd v n) = .next (loaded s rd (quarterReplaced v q imm16) (n + 1)) := by
  simp [exec, execLik, loaded, State.writeS, State.advance, State.readS, BitVec.ofNat_add, BitVec.add_assoc]

theorem execAll_quarterLoads (s : State) (rd : SReg) (imm64 v : Scalar) (n : Nat) (qs : List Nat) :
    execAll (quarterLoads rd imm64 qs) (loaded s rd v n) =
      .next (loaded s rd (withQuarters imm64 v qs) (n + qs.length)) := by
  induction qs generalizing v n with
  | nil => rfl
  | cons q qs ih =>
    rw [quarterLoads, List.map_cons, ← quarterLoads, execAll, exec_lik_loaded]
    simp only [ih, List.length_cons, withQuarters, List.foldl_cons]
    rw [Nat.add_right_comm, Nat.add_assoc]

theorem length_pseudoLi64 (rd : SReg) (imm64 : Scalar) :
    (pseudoLi64 rd imm64).length = 1 + (nonzeroQuarters imm64).length := by
  rw [pseudoLi64_eq_quarterLoads, List.length_cons, quarterLoads, List.length_map, Nat.add_comm]

/-- The expansion is one to four commands (30_encoding.md R91). -/
theorem length_pseudoLi64_bounds (rd : SReg) (imm64 : Scalar) :
    1 ≤ (pseudoLi64 rd imm64).length ∧ (pseudoLi64 rd imm64).length ≤ 4 := by
  have few : (nonzeroQuarters imm64).length ≤ 3 := List.length_filter_le _ [1, 2, 3]
  rw [length_pseudoLi64]
  omega

theorem execAll_pseudoLi64 (s : State) (rd : SReg) (imm64 : Scalar) :
    execAll (pseudoLi64 rd imm64) s = .next (loaded s rd imm64 (pseudoLi64 rd imm64).length) := by
  rw [length_pseudoLi64, pseudoLi64_eq_quarterLoads, execAll, exec_li_loaded]
  simp only [execAll_quarterLoads, withQuarters_nonzeroQuarters]

/-! ### The expansion written out -/

theorem quarterLoads_nil (rd : SReg) (imm64 : Scalar) : quarterLoads rd imm64 [] = [] := rfl

/-- A quarter has its LIK exactly when it is not zero. -/
theorem quarterLoads_filter_cons (rd : SReg) (imm64 : Scalar) (q : Nat) (qs : List Nat) :
    quarterLoads rd imm64 ((q :: qs).filter fun q => quarterOf imm64 q != 0#16) =
      (if quarterOf imm64 q = 0#16 then [] else [.lik rd (BitVec.ofNat 2 q) (quarterOf imm64 q)]) ++
        quarterLoads rd imm64 (qs.filter fun q => quarterOf imm64 q != 0#16) := by
  by_cases zero : quarterOf imm64 q = 0#16 <;> simp [quarterLoads, zero]

theorem pseudoLi64_expansion (rd : SReg) (imm64 : Scalar) : pseudoLi64 rd imm64 =
    .li rd 0#2 (imm64.extractLsb' 0 16) ::
      ((if imm64.extractLsb' 16 16 = 0#16 then [] else [.lik rd 1#2 (imm64.extractLsb' 16 16)]) ++
       (if imm64.extractLsb' 32 16 = 0#16 then [] else [.lik rd 2#2 (imm64.extractLsb' 32 16)]) ++
       (if imm64.extractLsb' 48 16 = 0#16 then [] else [.lik rd 3#2 (imm64.extractLsb' 48 16)])) := by
  rw [pseudoLi64_eq_quarterLoads, nonzeroQuarters, quarterLoads_filter_cons, quarterLoads_filter_cons,
    quarterLoads_filter_cons, List.filter_nil, quarterLoads_nil, List.append_nil, List.append_assoc]
  rfl

/-- Settles O6: each command of the expansion adds its quarter to the register that the LI cleared. -/
theorem wideLoadExpansion : Obligations.WideLoadExpansion := by
  refine ⟨pseudoLi64_expansion, fun rd imm64 s => ?_, fun _ => rfl, fun _ _ => rfl⟩
  have value : (loaded s rd imm64 (pseudoLi64 rd imm64).length).readS rd = imm64 := by rw [loaded_readS, if_pos rfl]
  have others : ∀ r, r ≠ rd → (loaded s rd imm64 (pseudoLi64 rd imm64).length).readS r = s.readS r :=
    fun r other => by rw [loaded_readS, if_neg other]
  exact ⟨_, execAll_pseudoLi64 s rd imm64, value, others, fun _ => rfl, fun _ => rfl,
    ⟨rfl, rfl, rfl, rfl, rfl, rfl, rfl, rfl⟩, rfl, length_pseudoLi64_bounds rd imm64⟩

end Sys2Proof.Proofs
end

section
/-! The control and scalar commands: the decoding of their words (30_encoding.md R87) and what each of them computes
(40_control_scalar.md). -/

namespace Sys2Proof.Proofs

open Sys2Proof.Machine Sys2Proof.Laws

/-! ### Decoding a word of a known opcode -/

/-- The word of format R that the number is decodes to the command its opcode's row builds from the fields. -/
theorem decode_wordR {op : BitVec 8} {a b c d : BitVec 4} {r : OpRow} {i : Instr}
    (row : opRows.find? (fun r => opField r.val == op) = some r) (matching : encodeR op a b c d &&& r.mask = r.val)
    (built : r.build (encodeR op a b c d) = i) : decode (wordR op.toNat a b c d) = .ok i := by
  have opcode : opField (encodeR op a b c d) = op := op_encodeR op a b c d
  rw [wordR_eq_encodeR, decode_of_row _ r (by rw [opcode, row]) matching, built]

/-- The word of format I that the number is decodes to the command its opcode's row builds from the fields. -/
theorem decode_wordI {op : BitVec 8} {a : BitVec 4} {q : BitVec 2} {imm16 : BitVec 16} {r : OpRow} {i : Instr}
    (row : opRows.find? (fun r => opField r.val == op) = some r) (matching : encodeI op a q imm16 &&& r.mask = r.val)
    (built : r.build (encodeI op a q imm16) = i) : decode (wordI op.toNat a q imm16) = .ok i := by
  have opcode : opField (encodeI op a q imm16) = op := op_encodeI op a q imm16
  rw [wordI_eq_encodeI, decode_of_row _ r (by rw [opcode, row]) matching, built]

theorem decode_word_halt : decode (wordR 0x01 0 0 0 0) = .ok .halt := by decide

theorem decode_word_li (rd : SReg) (q : BitVec 2) (imm16 : BitVec 16) :
    decode (wordI 0x02 rd.num q imm16) = .ok (.li rd q imm16) :=
  decode_wordI (op := 0x02#8) rfl (by simp only [and_encodeI, BitVec.reduceExtractLsb', BitVec.reduceAnd, BitVec.and_zero]; rfl)
    (by simp [fieldA, fieldQ, fieldImm])

theorem decode_word_lik (rd : SReg) (q : BitVec 2) (imm16 : BitVec 16) :
    decode (wordI 0x03 rd.num q imm16) = .ok (.lik rd q imm16) :=
  decode_wordI (op := 0x03#8) rfl (by simp only [and_encodeI, BitVec.reduceExtractLsb', BitVec.reduceAnd, BitVec.and_zero]; rfl)
    (by simp [fieldA, fieldQ, fieldImm])

theorem decode_word_ceil256 (rd ra : SReg) : decode (wordR 0x04 rd.num ra.num 0 0) = .ok (.ceil256 rd ra) :=
  decode_wordR (op := 0x04#8) rfl (by simp only [and_encodeR, BitVec.reduceExtractLsb', BitVec.and_zero]; rfl)
    (by simp [fieldA, fieldB])

/-! ### HALT (40_control_scalar.md R110) -/

/-- Settles O18: HALT answers `State.halt`, which writes the run state alone. -/
theorem haltEndsTheRun : Obligations.HaltEndsTheRun := by
  intro s
  have answer : exec .halt s = .next s.halt := rfl
  exact ⟨decode_word_halt, s.halt, answer, halt_runState s, halt_runState s, halt_pc s, halt_readS s, halt_readV s,
    fun _ => rfl, halt_cap s, halt_capMax s, halt_cause s, halt_finfo s, halt_fpc s, halt_program s, halt_draws s⟩

/-! ### LI and LIK (40_control_scalar.md R111, R112) -/

theorem exec_li (rd : SReg) (q : BitVec 2) (imm16 : BitVec 16) (s : State) :
    exec (.li rd q imm16) s = .next (s.writeS rd (quarterOnly q imm16)).advance := rfl

theorem exec_lik (rd : SReg) (q : BitVec 2) (imm16 : BitVec 16) (s : State) :
    exec (.lik rd q imm16) s = .next (s.writeS rd (quarterReplaced (s.readS rd) q imm16)).advance := rfl

/-- The immediate in quarter `q` is its multiple by `2^(16q)`: the highest quarter still fits 64 bits. -/
theorem toNat_quarterOnly (q : BitVec 2) (imm16 : BitVec 16) :
    (quarterOnly q imm16).toNat = imm16.toNat * 2 ^ (16 * q.toNat) := by
  have fits : imm16.toNat * 2 ^ (16 * q.toNat) < 2 ^ 64 :=
    calc imm16.toNat * 2 ^ (16 * q.toNat)
        < 2 ^ 16 * 2 ^ (16 * q.toNat) := Nat.mul_lt_mul_of_pos_right imm16.isLt (Nat.two_pow_pos _)
      _ = 2 ^ (16 + 16 * q.toNat) := (Nat.pow_add 2 16 _).symm
      _ ≤ 2 ^ 64 := Nat.pow_le_pow_right (by decide) (by omega)
  rw [quarterOnly, BitVec.toNat_shiftLeft, BitVec.toNat_setWidth_of_le (by decide), Nat.shiftLeft_eq,
    Nat.mod_eq_of_lt fits]

/-- Settles O19: LI writes the immediate shifted to its quarter, LIK the old value with that quarter replaced. -/
theorem immediatesLoadOneQuarter : Obligations.ImmediatesLoadOneQuarter := fun rd q imm16 s =>
  ⟨decode_word_li rd q imm16, decode_word_lik rd q imm16,
    ⟨_, _, exec_li rd q imm16 s, wroteScalar_advance s rd _, toNat_quarterOnly q imm16⟩,
    ⟨_, _, exec_lik rd q imm16 s, wroteScalar_advance s rd _, getLsbD_quarterReplaced (s.readS rd) q imm16⟩⟩

/-! ### CEIL256 (40_control_scalar.md R113) -/

theorem exec_ceil256_of_fits {rd ra : SReg} {s : State} (fits : ceil256 (s.readS ra).toNat < 2 ^ 64) :
    exec (.ceil256 rd ra) s = .next (s.writeS rd (BitVec.ofNat 64 (ceil256 (s.readS ra).toNat))).advance :=
  if_neg (Nat.not_le_of_lt fits)

theorem exec_ceil256_of_not_fits {rd ra : SReg} {s : State} (large : ¬ ceil256 (s.readS ra).toNat < 2 ^ 64) :
    exec (.ceil256 rd ra) s = .next (s.raise .capacity (s.readS ra)) :=
  if_pos (Nat.le_of_not_lt large)

/-- Settles O20: the multiple of 256 that CEIL256 computes fits 64 bits exactly when the operand is at most
`2^64 - 256`. -/
theorem ceilRoundsUpOrFaults : Obligations.CeilRoundsUpOrFaults := by
  intro rd ra s
  refine ⟨decode_word_ceil256 rd ra, fun small => ?_, fun large => ?_⟩
  · have fits : ceil256 (s.readS ra).toNat < 2 ^ 64 := (ceil256_fits_iff _).2 small
    refine ⟨_, _, exec_ceil256_of_fits fits, wroteScalar_advance s rd _, ?_⟩
    rw [BitVec.toNat_ofNat, Nat.mod_eq_of_lt fits]
    exact ceil256_spec _
  · have tooLarge : ¬ ceil256 (s.readS ra).toNat < 2 ^ 64 := fun fits =>
      Nat.not_le_of_lt large ((ceil256_fits_iff _).1 fits)
    exact ⟨_, exec_ceil256_of_not_fits tooLarge, tookFault_raise .capacity (s.readS ra) s⟩

end Sys2Proof.Proofs
end

section
/-! The bit-store commands SINIT, GETB, SETB, GETW, SETW, VLD, VST and SEQ (41_bitstore.md): their words decode
(30_encoding.md R87), each completes exactly when its checks hold, and what it then reads or writes. -/

namespace Sys2Proof.Proofs

open Sys2Proof.Machine Sys2Proof.Laws

/-! ### Decoding the words of the bit-store commands -/

/-- The word of a command that uses the fields A and B alone decodes to what its opcode's row builds from them
(30_encoding.md R86). -/
theorem decode_word_of_two_fields {op : BitVec 8} {val : CmdWord} (build : BitVec 4 → BitVec 4 → Instr)
    (row : opRows.find? (fun r => opField r.val == op) =
      some ⟨0xFF00FFFF#32, val, fun w => build (fieldA w) (fieldB w)⟩)
    (opcode : val = encodeR op 0 0 0 0) (a b : BitVec 4) : decode (wordR op.toNat a b 0 0) = .ok (build a b) := by
  have matching : encodeR op a b 0 0 &&& 0xFF00FFFF#32 = encodeR op 0 0 0 0 := by
    rw [and_encodeR]
    simp only [BitVec.reduceExtractLsb', BitVec.ofNat_eq_ofNat, BitVec.and_zero, BitVec.zero_and]
    rw [show (255#8) = BitVec.allOnes 8 from rfl, BitVec.and_allOnes]
  exact decode_wordR row (matching.trans opcode.symm) (by simp [fieldA, fieldB])

theorem decode_word_sinit (rd ra : SReg) : decode (wordR 0x10 rd.num ra.num 0 0) = .ok (.sinit rd ra) :=
  decode_word_of_two_fields (op := 0x10#8) (fun a b => .sinit ⟨a⟩ ⟨b⟩) rfl rfl rd.num ra.num

theorem decode_word_getb (rd ra : SReg) : decode (wordR 0x12 rd.num ra.num 0 0) = .ok (.getb rd ra) :=
  decode_word_of_two_fields (op := 0x12#8) (fun a b => .getb ⟨a⟩ ⟨b⟩) rfl rfl rd.num ra.num

theorem decode_word_setb (ra rb : SReg) : decode (wordR 0x13 ra.num rb.num 0 0) = .ok (.setb ra rb) :=
  decode_word_of_two_fields (op := 0x13#8) (fun a b => .setb ⟨a⟩ ⟨b⟩) rfl rfl ra.num rb.num

theorem decode_word_getw (rd ra : SReg) : decode (wordR 0x14 rd.num ra.num 0 0) = .ok (.getw rd ra) :=
  decode_word_of_two_fields (op := 0x14#8) (fun a b => .getw ⟨a⟩ ⟨b⟩) rfl rfl rd.num ra.num

theorem decode_word_setw (ra rb : SReg) : decode (wordR 0x15 ra.num rb.num 0 0) = .ok (.setw ra rb) :=
  decode_word_of_two_fields (op := 0x15#8) (fun a b => .setw ⟨a⟩ ⟨b⟩) rfl rfl ra.num rb.num

theorem decode_word_vld (vd : VReg) (ra : SReg) : decode (wordR 0x16 vd.num ra.num 0 0) = .ok (.vld vd ra) :=
  decode_word_of_two_fields (op := 0x16#8) (fun a b => .vld ⟨a⟩ ⟨b⟩) rfl rfl vd.num ra.num

theorem decode_word_vst (ra : SReg) (vb : VReg) : decode (wordR 0x17 ra.num vb.num 0 0) = .ok (.vst ra vb) :=
  decode_word_of_two_fields (op := 0x17#8) (fun a b => .vst ⟨a⟩ ⟨b⟩) rfl rfl ra.num vb.num

theorem decode_word_seq (rd ra rb rc : SReg) :
    decode (wordR 0x18 rd.num ra.num rb.num rc.num) = .ok (.seq rd ra rb rc) :=
  decode_wordR (op := 0x18#8) rfl (by simp only [and_encodeR, BitVec.reduceExtractLsb', BitVec.and_zero]; rfl)
    (by simp [fieldA, fieldB, fieldC, fieldD])

/-! ### SINIT (41_bitstore.md R120) -/

/-- Every vector of a store with no cell is zero (41_bitstore.md R120; log 7). -/
theorem vec_nil (j : Nat) : Memory.vec [] j = 0#256 := by
  apply BitVec.eq_of_getLsbD_eq
  intro t _
  rw [getLsbD_vec, bitAt_nil, Bool.and_false, BitVec.getLsbD_zero]

theorem exec_sinit (rd ra : SReg) (s : State) : exec (.sinit rd ra) s =
    if s.capMax.toNat < ceil256 (s.readS ra).toNat then .next (s.raise .capacity (s.readS ra))
    else .next ((s.newStore (ceil256 (s.readS ra).toNat) []).writeS rd
      (BitVec.ofNat 64 (ceil256 (s.readS ra).toNat))).advance := rfl

/-- Settles O21: a capacity that `CAPMAX` admits fits 64 bits, and the store SINIT builds has no cell. -/
theorem sinitConstructsZeroStore : Obligations.SinitConstructsZeroStore := by
  intro rd ra s
  have answer := exec_sinit rd ra s
  refine ⟨decode_word_sinit rd ra, fun (admitted : ceil256 (s.readS ra).toNat ≤ s.capMax.toNat) => ?_,
    fun (tooLarge : s.capMax.toNat < ceil256 (s.readS ra).toNat) => ?_⟩
  · have fits : ceil256 (s.readS ra).toNat < 2 ^ 64 := Nat.lt_of_le_of_lt admitted s.capMax.isLt
    rw [if_neg (Nat.not_lt.2 admitted)] at answer
    exact ⟨_, answer, builtStore_advance s rd _ 0 [] fits fun k _ => bitAt_nil k, vec_nil, rfl⟩
  · rw [if_pos tooLarge] at answer
    exact ⟨_, answer, tookFault_raise .capacity (s.readS ra) s⟩

/-! ### Commands with one index check (20_memory.md R56)

GETB, SETB, GETW, SETW, VLD and VST check that an index `x` is below a limit, then complete in one state or raise
`StoreRange` with `x`. -/

section IndexCheck

variable {i : Instr} {s t : State} {x : Scalar} {limit : Nat} {check : Bool}

theorem exec_of_index_inside (answer : exec i s = if check then .next t else .next (s.raise .storeRange x))
    (limits : check = true ↔ x.toNat < limit) (inside : x.toNat < limit) : exec i s = .next t := by
  rw [answer, if_pos (limits.2 inside)]

theorem fault_of_index_outside (answer : exec i s = if check then .next t else .next (s.raise .storeRange x))
    (limits : check = true ↔ x.toNat < limit) (outside : limit ≤ x.toNat) :
    ∃ u, exec i s = .next u ∧ TookFault .storeRange x s u := by
  have fails : ¬ check = true := fun holds => Nat.not_le_of_lt (limits.1 holds) outside
  exact ⟨_, by rw [answer, if_neg fails], tookFault_raise .storeRange x s⟩

end IndexCheck

theorem exec_getb (rd ra : SReg) (s : State) : exec (.getb rd ra) s =
    if s.hasBit (s.readS ra) then
      .next (s.writeS rd (boolResult (Memory.bitAt s.store (s.readS ra).toNat))).advance
    else .next (s.raise .storeRange (s.readS ra)) := rfl

theorem exec_setb (ra rb : SReg) (s : State) : exec (.setb ra rb) s =
    if s.hasBit (s.readS ra) then
      .next (s.setStore (Memory.setBit s.store (s.readS ra).toNat (boolOperand (s.readS rb)))).advance
    else .next (s.raise .storeRange (s.readS ra)) := rfl

theorem exec_getw (rd ra : SReg) (s : State) : exec (.getw rd ra) s =
    if s.hasGranule (s.readS ra) then .next (s.writeS rd (Memory.granule s.store (s.readS ra).toNat)).advance
    else .next (s.raise .storeRange (s.readS ra)) := rfl

theorem exec_setw (ra rb : SReg) (s : State) : exec (.setw ra rb) s =
    if s.hasGranule (s.readS ra) then
      .next (s.setStore (Memory.setGranule s.store (s.readS ra).toNat (s.readS rb))).advance
    else .next (s.raise .storeRange (s.readS ra)) := rfl

theorem exec_vld (vd : VReg) (ra : SReg) (s : State) : exec (.vld vd ra) s =
    if s.hasVec (s.readS ra) then .next (s.writeV vd (Memory.vec s.store (s.readS ra).toNat)).advance
    else .next (s.raise .storeRange (s.readS ra)) := rfl

theorem exec_vst (ra : SReg) (vb : VReg) (s : State) : exec (.vst ra vb) s =
    if s.hasVec (s.readS ra) then
      .next (s.setStore (Memory.setVec s.store (s.readS ra).toNat (s.readV vb))).advance
    else .next (s.raise .storeRange (s.readS ra)) := rfl

/-! ### GETB and SETB (41_bitstore.md R122, R123, R129) -/

/-- Settles O23: inside the capacity GETB writes the addressed bit as a Boolean result. -/
theorem getbReadsOneBit : Obligations.GetbReadsOneBit := fun rd ra s =>
  have answer := exec_getb rd ra s
  have limits := hasBit_iff s (s.readS ra)
  ⟨decode_word_getb rd ra,
    fun inside => ⟨_, exec_of_index_inside answer limits inside, wroteScalar_advance s rd _⟩,
    fun outside => fault_of_index_outside answer limits outside⟩

/-- Every operand but 0 is true (41_bitstore.md R129). -/
theorem boolOperand_eq_decide (x : Scalar) : boolOperand x = decide (x ≠ 0#64) := by
  rw [boolOperand, Bool.eq_iff_iff, bne_iff_ne, decide_eq_true_iff]

/-- Settles O24: the write of one bit keeps every other bit, so every byte but the addressed bit's own. -/
theorem setbWritesOneBit : Obligations.SetbWritesOneBit := fun ra rb s =>
  have answer := exec_setb ra rb s
  have limits := hasBit_iff s (s.readS ra)
  ⟨decode_word_setb ra rb,
    fun inside => ⟨_, exec_of_index_inside answer limits inside,
      wroteStore_advance _ s _ (byteAt_setBit_other s.store _ _),
      fun k => by rw [advance_store, setStore_store, bitAt_setBit, boolOperand_eq_decide]⟩,
    fun outside => fault_of_index_outside answer limits outside⟩

/-! ### GETW and SETW (41_bitstore.md R124, R125) -/

/-- Settles O25: a granule shows the 64 bits of the store from its index on. -/
theorem getwReadsOneGranule : Obligations.GetwReadsOneGranule := fun rd ra s =>
  have answer := exec_getw rd ra s
  have limits := hasGranule_iff s (s.readS ra)
  ⟨decode_word_getw rd ra,
    fun inside => ⟨_, _, exec_of_index_inside answer limits inside, wroteScalar_advance s rd _,
      fun i hi => by rw [getLsbD_granule, decide_eq_true hi, Bool.true_and]⟩,
    fun outside => fault_of_index_outside answer limits outside⟩

/-- Read after write of a granule. -/
theorem granule_setGranule_same (m : Memory) (g : Nat) (v : Scalar) :
    Memory.granule (Memory.setGranule m g v) g = v := by
  apply BitVec.eq_of_getLsbD_eq
  intro t ht
  have granuleIndex : (64 * g + t) / 64 = g := by omega
  have bitIndex : (64 * g + t) % 64 = t := by omega
  rw [getLsbD_granule, decide_eq_true ht, Bool.true_and, bitAt_setGranule, if_pos granuleIndex, bitIndex]

/-- Settles O26: the write of one granule keeps every byte outside it, and the granule reads back. -/
theorem setwWritesOneGranule : Obligations.SetwWritesOneGranule := fun ra rb s =>
  have answer := exec_setw ra rb s
  have limits := hasGranule_iff s (s.readS ra)
  ⟨decode_word_setw ra rb,
    fun inside => ⟨_, exec_of_index_inside answer limits inside,
      wroteStore_advance _ s _ (byteAt_setGranule_other s.store _ _), granule_setGranule_same s.store _ _⟩,
    fun outside => fault_of_index_outside answer limits outside⟩

/-! ### VLD and VST (41_bitstore.md R126, R127) -/

/-- Settles O27: a vector shows the 256 bits of the store from its index on. -/
theorem vldLoadsOneVector : Obligations.VldLoadsOneVector := fun vd ra s =>
  have answer := exec_vld vd ra s
  have limits := hasVec_iff s (s.readS ra)
  ⟨decode_word_vld vd ra,
    fun inside => ⟨_, _, exec_of_index_inside answer limits inside, wroteVector_advance s vd _,
      fun i hi => by rw [getLsbD_vec, decide_eq_true hi, Bool.true_and]⟩,
    fun outside => fault_of_index_outside answer limits outside⟩

/-- Read after write of a vector of the store. -/
theorem vec_setVec_same (m : Memory) (j : Nat) (w : Vec) : Memory.vec (Memory.setVec m j w) j = w := by
  apply BitVec.eq_of_getLsbD_eq
  intro t ht
  have vecIndex : (256 * j + t) / 256 = j := by omega
  have bitIndex : (256 * j + t) % 256 = t := by omega
  rw [getLsbD_vec, decide_eq_true ht, Bool.true_and, bitAt_setVec, if_pos vecIndex, bitIndex]

/-- Settles O28: the write of one vector keeps every byte outside it and every register, and the vector reads back. -/
theorem vstStoresOneVector : Obligations.VstStoresOneVector := fun ra vb s =>
  have answer := exec_vst ra vb s
  have limits := hasVec_iff s (s.readS ra)
  ⟨decode_word_vst ra vb,
    fun inside => ⟨_, exec_of_index_inside answer limits inside,
      wroteStore_advance _ s _ (byteAt_setVec_other s.store _ _), vec_setVec_same s.store _ _⟩,
    fun outside => fault_of_index_outside answer limits outside⟩

/-! ### SEQ (41_bitstore.md R128) -/

theorem boolResult_eq_one_iff (x : Bool) : boolResult x = 1#64 ↔ x = true := by
  cases x <;> decide

theorem boolResult_one_or_zero (x : Bool) : boolResult x = 1#64 ∨ boolResult x = 0#64 := by
  cases x
  · exact .inr rfl
  · exact .inl rfl

theorem not_hasRegion_iff (s : State) (base : Scalar) (count : Nat) :
    (!s.hasRegion base count) = true ↔ s.cap.toNat / 256 < base.toNat + count := by
  rw [Bool.not_eq_true', Bool.eq_false_iff, Ne, hasRegion_iff, Nat.not_le]

theorem exec_seq (rd ra rb rc : SReg) (s : State) : exec (.seq rd ra rb rc) s =
    if !s.hasRegion (s.readS ra) (s.readS rc).toNat then .next (s.raise .storeRange (s.readS ra))
    else if !s.hasRegion (s.readS rb) (s.readS rc).toNat then .next (s.raise .storeRange (s.readS rb))
    else .next (s.writeS rd (boolResult
      (Memory.regionsEqual s.store (s.readS ra).toNat (s.readS rb).toNat (s.readS rc).toNat))).advance := rfl

/-- Settles O29: SEQ checks the first region, then the second, and inside the store its comparison of bytes is equality
vector by vector. -/
theorem seqComparesTwoRegions : Obligations.SeqComparesTwoRegions := by
  intro rd ra rb rc s
  have answer := exec_seq rd ra rb rc s
  simp only [not_hasRegion_iff] at answer
  refine ⟨decode_word_seq rd ra rb rc, fun firstFits secondFits => ?_, fun firstOutside => ?_,
    fun firstFits secondOutside => ?_⟩
  · rw [if_neg (Nat.not_lt.2 firstFits), if_neg (Nat.not_lt.2 secondFits)] at answer
    exact ⟨_, _, answer, wroteScalar_advance s rd _, boolResult_one_or_zero _,
      (boolResult_eq_one_iff _).trans (regionsEqual_iff s.store _ _ _)⟩
  · rw [if_pos firstOutside] at answer
    exact ⟨_, answer, tookFault_raise .storeRange (s.readS ra) s⟩
  · rw [if_neg (Nat.not_lt.2 firstFits), if_pos secondOutside] at answer
    exact ⟨_, answer, tookFault_raise .storeRange (s.readS rb) s⟩

end Sys2Proof.Proofs
end

section
/-! The packing commands PACK and UNPACK (42_packing.md): their words decode (30_encoding.md R87), each completes exactly
when its checks hold, and what it then gathers or spreads. -/

namespace Sys2Proof.Proofs

open Sys2Proof.Machine Sys2Proof.Laws

/-! ### Decoding the words of the packing commands -/

/-- The word of a command that uses the fields A, B and C alone decodes to what its opcode's row builds from them
(30_encoding.md R86). -/
theorem decode_word_of_three_fields {op : BitVec 8} {val : CmdWord} (build : BitVec 4 → BitVec 4 → BitVec 4 → Instr)
    (row : opRows.find? (fun r => opField r.val == op) =
      some ⟨0xFF000FFF#32, val, fun w => build (fieldA w) (fieldB w) (fieldC w)⟩)
    (opcode : val = encodeR op 0 0 0 0) (a b c : BitVec 4) :
    decode (wordR op.toNat a b c 0) = .ok (build a b c) := by
  have matching : encodeR op a b c 0 &&& 0xFF000FFF#32 = encodeR op 0 0 0 0 := by
    rw [and_encodeR]
    simp only [BitVec.reduceExtractLsb', BitVec.ofNat_eq_ofNat, BitVec.and_zero, BitVec.zero_and]
    rw [show (255#8) = BitVec.allOnes 8 from rfl, BitVec.and_allOnes]
  exact decode_wordR row (matching.trans opcode.symm) (by simp [fieldA, fieldB, fieldC])

theorem decode_word_pack (vd : VReg) (ra rb : SReg) :
    decode (wordR 0x20 vd.num ra.num rb.num 0) = .ok (.pack vd ra rb) :=
  decode_word_of_three_fields (op := 0x20#8) (fun a b c => .pack ⟨a⟩ ⟨b⟩ ⟨c⟩) rfl rfl vd.num ra.num rb.num

theorem decode_word_unpack (ra : SReg) (vb : VReg) : decode (wordR 0x21 ra.num vb.num 0 0) = .ok (.unpack ra vb) :=
  decode_word_of_two_fields (op := 0x21#8) (fun a b => .unpack ⟨a⟩ ⟨b⟩) rfl rfl ra.num vb.num

/-! ### PACK (42_packing.md R141) -/

theorem exec_pack (vd : VReg) (ra rb : SReg) (s : State) : exec (.pack vd ra rb) s =
    if (s.readS rb).toNat ≠ 256 then .next (s.raise .sizeContract (s.readS rb))
    else if !s.hasRegion (s.readS ra) 8 then .next (s.raise .storeRange (s.readS ra))
    else .next (s.writeV vd (Memory.packed s.store (s.readS ra).toNat)).advance := rfl

/-- The length check reads the register as a number; only the value 256 passes it. -/
theorem toNat_ne_256_iff (len : Scalar) : len.toNat ≠ 256 ↔ len ≠ 256#64 :=
  not_congr (BitVec.toNat_inj (y := 256#64))

/-- Bit `i` of the packed vector says whether byte `32b + i` is not zero (42_packing.md R140, R141). -/
theorem getLsbD_packed_eq_decide (m : Memory) (b i : Nat) (hi : i < 256) :
    (Memory.packed m b).getLsbD i = decide (Memory.byteAt m (32 * b + i) ≠ 0#8) := by
  rw [getLsbD_packed m b i hi, Memory.element, Bool.eq_iff_iff, bne_iff_ne, decide_eq_true_iff]

/-- Settles O31: PACK checks the length, then the region, and the vector it writes gathers the non-zero bytes. -/
theorem packGathersBooleans : Obligations.PackGathersBooleans := by
  intro vd ra rb s
  have answer := exec_pack vd ra rb s
  simp only [toNat_ne_256_iff, not_hasRegion_iff] at answer
  refine ⟨decode_word_pack vd ra rb, fun length inside => ?_, fun length => ?_, fun length outside => ?_⟩
  · rw [if_neg (not_not_intro length), if_neg (Nat.not_lt.2 inside)] at answer
    exact ⟨_, _, answer, wroteVector_advance s vd _, getLsbD_packed_eq_decide s.store _⟩
  · rw [if_pos length] at answer
    exact ⟨_, answer, tookFault_raise .sizeContract (s.readS rb) s⟩
  · rw [if_neg (not_not_intro length), if_pos outside] at answer
    exact ⟨_, answer, tookFault_raise .storeRange (s.readS ra) s⟩

/-! ### UNPACK (42_packing.md R142) -/

theorem exec_unpack (ra : SReg) (vb : VReg) (s : State) : exec (.unpack ra vb) s =
    if s.hasRegion (s.readS ra) 8 then
      .next (s.setStore (Memory.unpacked s.store (s.readS ra).toNat (s.readV vb))).advance
    else .next (s.raise .storeRange (s.readS ra)) := rfl

/-- Byte `32b + i` of the unpacked sequence is `0x01` or `0x00` as bit `i` is 1 or 0 (42_packing.md R142). -/
theorem byteAt_unpacked_inside (m : Memory) (b : Nat) (w : Vec) (i : Nat) (hi : i < 256) :
    Memory.byteAt (Memory.unpacked m b w) (32 * b + i) = if w.getLsbD i then 0x01#8 else 0x00#8 := by
  rw [byteAt_unpacked, if_pos (by omega), Nat.add_sub_cancel_left]

/-- Settles O32: UNPACK checks the region, then writes one byte per bit and keeps every byte outside the region. -/
theorem unpackSpreadsBits : Obligations.UnpackSpreadsBits := by
  intro ra vb s
  have answer := exec_unpack ra vb s
  simp only [hasRegion_iff] at answer
  refine ⟨decode_word_unpack ra vb, fun inside => ?_, fun outside => ?_⟩
  · rw [if_pos inside] at answer
    exact ⟨_, answer, wroteStore_advance _ s _ (byteAt_unpacked_other s.store _ _),
      byteAt_unpacked_inside s.store _ _⟩
  · rw [if_neg (Nat.not_le.2 outside)] at answer
    exact ⟨_, answer, tookFault_raise .storeRange (s.readS ra) s⟩

end Sys2Proof.Proofs
end

section
/-! The lane arithmetic commands POPC16, MOD4, XORM and ANYNZ (43_lane_arithmetic.md): their words decode
(30_encoding.md R87), each completes exactly when its checks hold, and what it then computes. -/

namespace Sys2Proof.Proofs

open Sys2Proof.Machine Sys2Proof.Laws

/-! ### Decoding the words of the lane arithmetic commands -/

theorem decode_word_popc16 (vd va : VReg) : decode (wordR 0x28 vd.num va.num 0 0) = .ok (.popc16 vd va) :=
  decode_word_of_two_fields (op := 0x28#8) (fun a b => .popc16 ⟨a⟩ ⟨b⟩) rfl rfl vd.num va.num

theorem decode_word_mod4 (vd va vb vc : VReg) :
    decode (wordR 0x2A vd.num va.num vb.num vc.num) = .ok (.mod4 vd va vb vc) :=
  decode_wordR (op := 0x2A#8) rfl (by simp only [and_encodeR, BitVec.reduceExtractLsb', BitVec.and_zero]; rfl)
    (by simp [fieldA, fieldB, fieldC, fieldD])

theorem decode_word_xorm (ra rb rc : SReg) :
    decode (wordR 0x30 ra.num rb.num rc.num 0) = .ok (.xorm ra rb rc) :=
  decode_word_of_three_fields (op := 0x30#8) (fun a b c => .xorm ⟨a⟩ ⟨b⟩ ⟨c⟩) rfl rfl ra.num rb.num rc.num

theorem decode_word_anynz (rd ra rb : SReg) :
    decode (wordR 0x31 rd.num ra.num rb.num 0) = .ok (.anynz rd ra rb) :=
  decode_word_of_three_fields (op := 0x31#8) (fun a b c => .anynz ⟨a⟩ ⟨b⟩ ⟨c⟩) rfl rfl rd.num ra.num rb.num

/-! ### POPC16 (43_lane_arithmetic.md R150) -/

theorem exec_popc16 (vd va : VReg) (s : State) :
    exec (.popc16 vd va) s = .next (s.writeV vd (popcount16 (s.readV va))).advance := rfl

/-- A lane's set bits are the vector's set bits at the lane's positions (10_state.md R22). -/
theorem popcount_lane (w : Nat) (x : Vec) (j : Nat) :
    popcount (lane w x j) = ((List.range w).filter fun i => x.getLsbD (w * j + i)).length := by
  have sameBits : ∀ i ∈ List.range w, (lane w x j).getLsbD i = x.getLsbD (w * j + i) := fun i hi => by
    rw [getLsbD_lane, decide_eq_true (List.mem_range.1 hi), Bool.true_and]
  rw [popcount, List.filter_congr sameBits]

/-- A count of at most 16 fits the lane that holds it. -/
theorem toNat_lane_popcount16 (x : Vec) (j : Nat) (hj : j < 16) :
    (lane 16 (popcount16 x) j).toNat = popcount (lane 16 x j) := by
  have fits : popcount (lane 16 x j) < 2 ^ 16 := Nat.lt_of_le_of_lt (popcount_le _) (by decide)
  rw [lane_popcount16 x j hj, BitVec.toNat_ofNat, Nat.mod_eq_of_lt fits]

/-- Settles O34: each lane of the vector that POPC16 writes is the count of the operand's lane. -/
theorem lanePopulationCounts : Obligations.LanePopulationCounts := fun vd va s =>
  ⟨decode_word_popc16 vd va, _, _, exec_popc16 vd va s, wroteVector_advance s vd _,
    fun j hj => (toNat_lane_popcount16 (s.readV va) j hj).trans (popcount_lane 16 (s.readV va) j)⟩

/-! ### MOD4 (43_lane_arithmetic.md R152) -/

theorem exec_mod4 (vd va vb vc : VReg) (s : State) : exec (.mod4 vd va vb vc) s =
    .next (s.writeV vd (mod4Combine (s.readV va) (s.readV vb) (s.readV vc))).advance := rfl

/-- Arithmetic of 2-bit values is arithmetic of integers modulo 4. -/
theorem toNat_add_sub_eq_emod_four (a b c : BitVec 2) :
    ((a + b - c).toNat : Int) = ((a.toNat : Int) + (b.toNat : Int) - (c.toNat : Int)) % 4 := by
  have wraps : (a + b - c).toNat = (4 - c.toNat + (a.toNat + b.toNat) % 4) % 4 := by
    rw [BitVec.toNat_sub, BitVec.toNat_add]
  omega

/-- Settles O36: each lane of the vector that MOD4 writes is the 2-bit sum and difference of the operands' lanes. -/
theorem moduloFourLanes : Obligations.ModuloFourLanes := fun vd va vb vc s =>
  ⟨decode_word_mod4 vd va vb vc, _, _, exec_mod4 vd va vb vc s, wroteVector_advance s vd _, fun j hj =>
    (congrArg (fun x : BitVec 2 => (x.toNat : Int)) (lane_mod4Combine _ _ _ j hj)).trans
      (toNat_add_sub_eq_emod_four _ _ _)⟩

/-! ### XORM (43_lane_arithmetic.md R154) -/

theorem exec_xorm (ra rb rc : SReg) (s : State) : exec (.xorm ra rb rc) s =
    if !s.hasRegion (s.readS ra) (s.readS rc).toNat then .next (s.raise .storeRange (s.readS ra))
    else if !s.hasRegion (s.readS rb) (s.readS rc).toNat then .next (s.raise .storeRange (s.readS rb))
    else if partlyOverlap (s.readS ra).toNat (s.readS rb).toNat (s.readS rc).toNat then
      .next (s.raise .overlap (s.readS rb))
    else .next (s.setStore
      (Memory.xorRegion s.store (s.readS ra).toNat (s.readS rb).toNat (s.readS rc).toNat)).advance := rfl

theorem partlyOverlap_iff (d e c : Nat) :
    partlyOverlap d e c = true ↔ 0 < c ∧ d ≠ e ∧ d < e + c ∧ e < d + c :=
  decide_eq_true_iff

/-- Vector `i` of the destination takes the exclusive or of the old vectors `d + i` and `e + i`. -/
theorem vec_xorRegion_inside (m : Memory) (d e c i : Nat) (hi : i < c) :
    Memory.vec (Memory.xorRegion m d e c) (d + i) = Memory.vec m (d + i) ^^^ Memory.vec m (e + i) := by
  rw [vec_xorRegion, if_pos ⟨Nat.le_add_right d i, Nat.add_lt_add_left hi d⟩, Nat.add_sub_cancel_left]

/-- Settles O38: XORM checks the destination, the source, then partial overlap, and its loop over the listed bytes is
the exclusive or vector by vector. -/
theorem xormCombinesRegions : Obligations.XormCombinesRegions := by
  intro ra rb rc s
  have answer := exec_xorm ra rb rc s
  simp only [not_hasRegion_iff, partlyOverlap_iff] at answer
  refine ⟨decode_word_xorm ra rb rc, fun destinationOutside => ?_, fun destinationFits =>
    ⟨fun sourceOutside => ?_, fun sourceFits => ⟨fun overlap => ?_, fun separate => ?_⟩⟩⟩
  · rw [if_pos destinationOutside] at answer
    exact ⟨_, answer, tookFault_raise .storeRange (s.readS ra) s⟩
  · rw [if_neg (Nat.not_lt.2 destinationFits), if_pos sourceOutside] at answer
    exact ⟨_, answer, tookFault_raise .storeRange (s.readS rb) s⟩
  · rw [if_neg (Nat.not_lt.2 destinationFits), if_neg (Nat.not_lt.2 sourceFits), if_pos overlap] at answer
    exact ⟨_, answer, tookFault_raise .overlap (s.readS rb) s⟩
  · rw [if_neg (Nat.not_lt.2 destinationFits), if_neg (Nat.not_lt.2 sourceFits), if_neg (by omega)] at answer
    exact ⟨_, answer, wroteStore_advance _ s _ (byteAt_xorRegion_other s.store _ _ _),
      vec_xorRegion_inside s.store _ _ _⟩

/-! ### ANYNZ (43_lane_arithmetic.md R155) -/

theorem exec_anynz (rd ra rb : SReg) (s : State) : exec (.anynz rd ra rb) s =
    if s.hasRegion (s.readS ra) (s.readS rb).toNat then
      .next (s.writeS rd (boolResult (Memory.regionNonzero s.store (s.readS ra).toNat (s.readS rb).toNat))).advance
    else .next (s.raise .storeRange (s.readS ra)) := rfl

/-- Settles O40: ANYNZ checks the whole region, then answers whether some listed byte of it is not zero. -/
theorem anynzReducesARegion : Obligations.AnynzReducesARegion := by
  intro rd ra rb s
  have answer := exec_anynz rd ra rb s
  simp only [hasRegion_iff] at answer
  refine ⟨decode_word_anynz rd ra rb, fun inside => ?_, fun outside => ?_⟩
  · rw [if_pos inside] at answer
    exact ⟨_, _, answer, wroteScalar_advance s rd _, boolResult_one_or_zero _,
      (boolResult_eq_one_iff _).trans (regionNonzero_iff s.store _ _)⟩
  · rw [if_neg (Nat.not_le.2 outside)] at answer
    exact ⟨_, answer, tookFault_raise .storeRange (s.readS ra) s⟩

end Sys2Proof.Proofs
end

section
/-! The address-bit permutation primitives SWAPK and SWAPS (44_address_permutation.md): their words decode
(30_encoding.md R87), each completes exactly when its checks hold, which bit then goes where, the single-bit contract,
and the eight levels as the block transpose. -/

namespace Sys2Proof.Proofs

open Sys2Proof.Machine Sys2Proof.Laws

/-! ### Decoding the words of the permutation primitives -/

/-- A level as the number in field `D` is the level below a zero bit 11 (30_encoding.md R84). -/
theorem ofNat_toNat_eq_levelField (k : BitVec 3) : BitVec.ofNat 4 k.toNat = levelField k := by
  revert k; decide

/-- The mask of a row with a level looks at bit 11 of the field `D` alone. -/
theorem levelField_and_eight (k : BitVec 3) : levelField k &&& 8#4 = 0#4 := by
  revert k; decide

theorem decode_word_swapk (ra : SReg) (k : BitVec 3) :
    decode (wordR 0x40 ra.num 0 0 (BitVec.ofNat 4 k.toNat)) = .ok (.swapk ra k) := by
  rw [ofNat_toNat_eq_levelField]
  exact decode_wordR (op := 0x40#8) rfl
    (by simp only [and_encodeR, BitVec.reduceExtractLsb', BitVec.and_zero, levelField_and_eight]; rfl)
    (by simp [fieldA, fieldK])

theorem decode_word_swaps (ra rb : SReg) (k : BitVec 3) :
    decode (wordR 0x41 ra.num rb.num 0 (BitVec.ofNat 4 k.toNat)) = .ok (.swaps ra rb k) := by
  rw [ofNat_toNat_eq_levelField]
  exact decode_wordR (op := 0x41#8) rfl
    (by simp only [and_encodeR, BitVec.reduceExtractLsb', BitVec.and_zero, levelField_and_eight]; rfl)
    (by simp [fieldA, fieldB, fieldK])

/-! ### The level-`k` map of positions (44_address_permutation.md R172) -/

theorem testBit_two_pow_add_two_pow (k j : Nat) :
    (2 ^ k + 2 ^ (8 + k)).testBit j = decide (k = j ∨ 8 + k = j) := by
  have disjoint : 2 ^ k + 2 ^ (8 + k) = 2 ^ (8 + k) ||| 2 ^ k := by
    have lower : 2 ^ k < 2 ^ (8 + k) := Nat.pow_lt_pow_right (by decide) (by omega)
    simpa [Nat.add_comm] using Nat.two_pow_add_eq_or_of_lt lower 1
  rw [disjoint, Nat.testBit_or, Nat.testBit_two_pow, Nat.testBit_two_pow, ← Bool.decide_or]
  exact decide_eq_decide.2 or_comm

/-- The closed form reads each index bit where the transposition of `k` and `8 + k` takes it: where those two bits agree
there is nothing to exchange, and where they differ flipping both exchanges them. -/
theorem testBit_levelExchange (k p j : Nat) : (levelExchange k p).testBit j = p.testBit (levelSwap k j) := by
  have place : j = k ∨ j = 8 + k ∨ (j ≠ k ∧ j ≠ 8 + k) := by omega
  unfold levelExchange levelSwap
  by_cases agree : p.testBit k = p.testBit (8 + k)
  · rw [if_pos agree]
    obtain rfl | rfl | ⟨notLow, notHigh⟩ := place
    · simp [agree]
    · simp [agree]
    · simp [notLow, notHigh]
  · have differ : p.testBit (8 + k) = !p.testBit k := Bool.eq_not.2 (Ne.symm agree)
    rw [if_neg agree, Nat.testBit_xor, testBit_two_pow_add_two_pow]
    obtain rfl | rfl | ⟨notLow, notHigh⟩ := place
    · simp [differ]
    · simp [differ]
    · simp [notLow, notHigh, notLow.symm, notHigh.symm]

theorem levelExchange_lt (k : BitVec 3) (p : Nat) (hp : p < 65536) : levelExchange k.toNat p < 65536 := by
  apply Nat.lt_pow_two_of_testBit (n := 16)
  intro j hj
  have hk := k.isLt
  rw [testBit_levelExchange, levelSwap, if_neg (by omega), if_neg (by omega), testBit_high p hp j hj]

theorem levelExchange_involutive (k : Nat) : Function.Involutive (levelExchange k) := fun p =>
  Nat.eq_of_testBit_eq fun j => by rw [testBit_levelExchange, testBit_levelExchange, levelSwap_involutive]

/-- Transpositions of disjoint pairs of index bits commute. -/
theorem levelSwap_comm (j k : BitVec 3) (i : Nat) :
    levelSwap j.toNat (levelSwap k.toNat i) = levelSwap k.toNat (levelSwap j.toNat i) := by
  have hj := j.isLt
  have hk := k.isLt
  unfold levelSwap
  grind

theorem levelExchange_comm (j k : BitVec 3) (p : Nat) :
    levelExchange j.toNat (levelExchange k.toNat p) = levelExchange k.toNat (levelExchange j.toNat p) :=
  Nat.eq_of_testBit_eq fun i => by simp only [testBit_levelExchange, levelSwap_comm]

/-- The closed form is the move of index bits that the commands make. -/
theorem permuted_levelSwap_eq_levelExchange (k : BitVec 3) (p : Nat) (hp : p < 65536) :
    permuted (levelSwap k.toNat) p = levelExchange k.toNat p := by
  apply position_ext _ _ (permuted_levelSwap_lt _ k.isLt p) (levelExchange_lt k p hp)
  intro j hj
  rw [testBit_permuted_involutive _ (levelSwap_lt _ k.isLt) (levelSwap_involutive _) p j hj, testBit_levelExchange]

/-- Where the levels of a list, one after the other, take a position. -/
def levelsExchange (ks : List (BitVec 3)) (p : Nat) : Nat := ks.foldl (fun q k => levelExchange k.toNat q) p

theorem levelsExchange_cons (k : BitVec 3) (ks : List (BitVec 3)) (p : Nat) :
    levelsExchange (k :: ks) p = levelsExchange ks (levelExchange k.toNat p) := rfl

theorem levelsExchange_lt (ks : List (BitVec 3)) (p : Nat) (hp : p < 65536) : levelsExchange ks p < 65536 := by
  induction ks generalizing p with
  | nil => exact hp
  | cons k ks ih => exact ih _ (levelExchange_lt k p hp)

theorem testBit_levelsExchange (ks : List (BitVec 3)) (p j : Nat) :
    (levelsExchange ks p).testBit j = p.testBit (ks.foldr (fun k i => levelSwap k.toNat i) j) := by
  induction ks generalizing p with
  | nil => rfl
  | cons k ks ih => rw [levelsExchange_cons, ih, testBit_levelExchange, List.foldr_cons]

/-- The eight levels, lowest first. -/
def eightLevels : List (BitVec 3) := [0#3, 1#3, 2#3, 3#3, 4#3, 5#3, 6#3, 7#3]

/-- The eight levels exchange the row and the column of a position (44_address_permutation.md R175). -/
theorem levelsExchange_eightLevels (p : Nat) (hp : p < 65536) : levelsExchange eightLevels p = transposed p := by
  have exchanged : ∀ j < 16, eightLevels.foldr (fun k i => levelSwap k.toNat i) j = if j < 8 then 8 + j else j - 8 := by
    decide
  apply position_ext _ _ (levelsExchange_lt _ p hp) (transposed_lt p hp)
  intro j hj
  rw [testBit_levelsExchange, exchanged j hj, testBit_transposed p hp j hj]

/-! ### The positions of a block (44_address_permutation.md R170, R176) -/

/-- The store bit at position `p` of the block at vector `base` with pitch `pitch`: column `p mod 256` of row
`p div 256`. -/
def blockPosition (base pitch p : Nat) : Nat := 256 * (base + p / 256 * pitch) + p % 256

theorem blockPosition_contiguous (base p : Nat) : blockPosition base 1 p = 256 * base + p := by
  unfold blockPosition; omega

theorem getLsbD_vec_of_position (m : Memory) (base pitch p : Nat) :
    (Memory.vec m (base + p / 256 * pitch)).getLsbD (p % 256) = Memory.bitAt m (blockPosition base pitch p) := by
  rw [getLsbD_vec, decide_eq_true (Nat.mod_lt p (by decide)), Bool.true_and, blockPosition]

theorem getLsbD_vec_of_row_column (m : Memory) (base pitch r c : Nat) (hc : c < 256) :
    (Memory.vec m (base + r * pitch)).getLsbD c = Memory.bitAt m (blockPosition base pitch (256 * r + c)) := by
  rw [← getLsbD_vec_of_position, show (256 * r + c) / 256 = r by omega, show (256 * r + c) % 256 = c by omega]

section BlockMoves

variable {base pitch : Nat} (positive : 0 < pitch)
include positive

theorem blockMove_blockPosition (f : Nat → Nat) (p : Nat) (hp : p < 65536) :
    blockMove base pitch f (blockPosition base pitch p) = blockPosition base pitch (f p) := by
  rw [blockPosition, blockMove_inside base pitch positive f _ _ (by omega) (Nat.mod_lt _ (by decide)), Nat.div_add_mod,
    blockPosition]

/-- A bit of the store is at a position of the block, or no move of the block moves it. -/
theorem blockPosition_or_fixed (x : Nat) :
    (∃ p < 65536, blockPosition base pitch p = x) ∨ ∀ f, blockMove base pitch f x = x := by
  by_cases inside : ∃ r < 256, ∃ c < 256, x = 256 * (base + r * pitch) + c
  · obtain ⟨r, hr, c, hc, rfl⟩ := inside
    refine .inl ⟨256 * r + c, by omega, ?_⟩
    rw [blockPosition, show (256 * r + c) / 256 = r by omega, show (256 * r + c) % 256 = c by omega]
  · exact .inr fun f => blockMove_outside base pitch positive f x inside

/-- Moves that agree on the positions move the block alike. -/
theorem blockMove_congr {f g : Nat → Nat} (agree : ∀ p < 65536, f p = g p) :
    blockMove base pitch f = blockMove base pitch g := by
  funext x
  obtain ⟨p, hp, rfl⟩ | fixed := blockPosition_or_fixed positive (base := base) x
  · rw [blockMove_blockPosition positive f p hp, blockMove_blockPosition positive g p hp, agree p hp]
  · rw [fixed, fixed]

theorem blockMove_comp {f g : Nat → Nat} (stays : ∀ p < 65536, f p < 65536) :
    blockMove base pitch g ∘ blockMove base pitch f = blockMove base pitch (g ∘ f) := by
  funext x
  obtain ⟨p, hp, rfl⟩ | fixed := blockPosition_or_fixed positive (base := base) x
  · rw [Function.comp_apply, blockMove_blockPosition positive f p hp, blockMove_blockPosition positive g _ (stays p hp),
      blockMove_blockPosition positive _ p hp, Function.comp_apply]
  · rw [Function.comp_apply, fixed, fixed, fixed]

end BlockMoves

/-- The store after the level-`k` exchange on the block at vector `base` with pitch `pitch`. -/
def levelled (base pitch : Nat) (m : Memory) (k : BitVec 3) : Memory :=
  Memory.relocate (blockMove base pitch (levelExchange k.toNat)) m

section Levels

variable {base pitch : Nat} (positive : 0 < pitch)
include positive

/-- Each bit of the block comes from its place under `π_k*`, which is its own inverse. -/
theorem bitAt_levelled (m : Memory) (k : BitVec 3) (p : Nat) (hp : p < 65536) :
    Memory.bitAt (levelled base pitch m k) (blockPosition base pitch p) =
      Memory.bitAt m (blockPosition base pitch (levelExchange k.toNat p)) := by
  rw [levelled, bitAt_relocate_involutive _ (blockMove_involutive base pitch positive _ (levelExchange_lt k)
    fun q _ => levelExchange_involutive _ q), blockMove_blockPosition positive _ p hp]

/-- Each bit of the block goes to its place under `π_k*`. -/
theorem bitAt_levelled_levelExchange (m : Memory) (k : BitVec 3) (p : Nat) (hp : p < 65536) :
    Memory.bitAt (levelled base pitch m k) (blockPosition base pitch (levelExchange k.toNat p)) =
      Memory.bitAt m (blockPosition base pitch p) := by
  rw [bitAt_levelled positive m k _ (levelExchange_lt k p hp), levelExchange_involutive]

theorem byteAt_levelled_other (m : Memory) (k : BitVec 3) (a : Nat) (outside : ¬ BlockBytes base pitch a) :
    Memory.byteAt (levelled base pitch m k) a = Memory.byteAt m a :=
  byteAt_blockMove_other base pitch positive _ (levelExchange_lt k) (fun q _ => levelExchange_involutive _ q) m a outside

theorem levelled_comm (m : Memory) (j k : BitVec 3) :
    levelled base pitch (levelled base pitch m j) k = levelled base pitch (levelled base pitch m k) j := by
  have commute : levelExchange k.toNat ∘ levelExchange j.toNat = levelExchange j.toNat ∘ levelExchange k.toNat :=
    funext (levelExchange_comm k j)
  simp only [levelled, relocate_relocate, blockMove_comp positive (levelExchange_lt _), commute]

/-- Levels after a move of the block are one move of the block. -/
theorem foldl_levelled_relocate (m : Memory) (ks : List (BitVec 3)) {f : Nat → Nat} (stays : ∀ p < 65536, f p < 65536) :
    ks.foldl (levelled base pitch) (Memory.relocate (blockMove base pitch f) m) =
      Memory.relocate (blockMove base pitch (levelsExchange ks ∘ f)) m := by
  induction ks generalizing f with
  | nil => rfl
  | cons k ks ih =>
    rw [List.foldl_cons, levelled, relocate_relocate, blockMove_comp positive stays]
    exact ih fun p hp => levelExchange_lt k _ (stays p hp)

/-- One level or more, one after the other, are one move of the block. -/
theorem foldl_levelled_cons (m : Memory) (k : BitVec 3) (ks : List (BitVec 3)) :
    (k :: ks).foldl (levelled base pitch) m = Memory.relocate (blockMove base pitch (levelsExchange (k :: ks))) m :=
  foldl_levelled_relocate positive m ks (levelExchange_lt k)

/-- The eight levels in any order are the transpose of the block (44_address_permutation.md R175). -/
theorem foldl_levelled_of_perm (m : Memory) {ks : List (BitVec 3)} (perm : ks.Perm eightLevels) :
    ks.foldl (levelled base pitch) m = Memory.relocate (blockMove base pitch transposed) m := by
  calc ks.foldl (levelled base pitch) m
      = eightLevels.foldl (levelled base pitch) m :=
        perm.foldl_eq' (fun j _ k _ m => levelled_comm positive m j k) m
    _ = Memory.relocate (blockMove base pitch (levelsExchange eightLevels)) m :=
        foldl_levelled_cons positive m _ _
    _ = Memory.relocate (blockMove base pitch transposed) m := by
        rw [blockMove_congr positive levelsExchange_eightLevels]

end Levels

/-! ### What SWAPK and SWAPS answer -/

theorem exec_swapk (ra : SReg) (k : BitVec 3) (s : State) : exec (.swapk ra k) s =
    if s.hasRegion (s.readS ra) 256 then
      .next (s.setStore (levelled (s.readS ra).toNat 1 s.store k)).advance
    else .next (s.raise .storeRange (s.readS ra)) := by
  rw [levelled, ← blockMove_congr Nat.one_pos (permuted_levelSwap_eq_levelExchange k)]
  rfl

theorem toNat_pos_of_ne_zero {pitch : Scalar} (nonzero : pitch ≠ 0#64) : 0 < pitch.toNat :=
  Nat.pos_of_ne_zero (BitVec.toNat_ne.1 nonzero)

theorem not_hasBlock_iff (s : State) (base pitch : Scalar) :
    (!s.hasBlock base pitch) = true ↔ s.cap.toNat / 256 < base.toNat + 255 * pitch.toNat + 1 := by
  rw [Bool.not_eq_true', Bool.eq_false_iff, Ne, hasBlock_iff, Nat.not_le]

theorem exec_swaps_of_zero {ra rb : SReg} {s : State} (zero : s.readS rb = 0#64) (k : BitVec 3) :
    exec (.swaps ra rb k) s = .next (s.raise .sizeContract 0#64) := if_pos zero

theorem exec_swaps_of_nonzero {ra rb : SReg} {s : State} (nonzero : s.readS rb ≠ 0#64) (k : BitVec 3) :
    exec (.swaps ra rb k) s =
      if !s.hasBlock (s.readS ra) (s.readS rb) then .next (s.raise .storeRange (s.readS ra))
      else .next (s.setStore (levelled (s.readS ra).toNat (s.readS rb).toNat s.store k)).advance := by
  rw [levelled, ← blockMove_congr (toNat_pos_of_ne_zero nonzero) (permuted_levelSwap_eq_levelExchange k)]
  exact if_neg nonzero

theorem exec_swapk_of_inside {ra : SReg} {s : State} (inside : (s.readS ra).toNat + 256 ≤ s.cap.toNat / 256)
    (k : BitVec 3) :
    exec (.swapk ra k) s = .next (s.setStore (levelled (s.readS ra).toNat 1 s.store k)).advance := by
  rw [exec_swapk, if_pos ((hasRegion_iff s _ _).2 inside)]

theorem exec_swaps_of_inside {ra rb : SReg} {s : State} (nonzero : s.readS rb ≠ 0#64)
    (inside : (s.readS ra).toNat + 255 * (s.readS rb).toNat + 1 ≤ s.cap.toNat / 256) (k : BitVec 3) :
    exec (.swaps ra rb k) s =
      .next (s.setStore (levelled (s.readS ra).toNat (s.readS rb).toNat s.store k)).advance := by
  rw [exec_swaps_of_nonzero nonzero, if_neg (mt (not_hasBlock_iff s _ _).1 (Nat.not_lt.2 inside))]

/-- Settles O42: SWAPK checks its 256 vectors, then moves each bit of the block to its place under the closed form. -/
theorem swapkExchangesOneLevel : Obligations.SwapkExchangesOneLevel := by
  intro ra k s
  refine ⟨decode_word_swapk ra k, fun inside => ?_, fun outside => ?_⟩
  · refine ⟨_, exec_swapk_of_inside inside k, wroteStore_advance _ s _ fun a other => ?_, fun p hp => ?_⟩
    · exact byteAt_levelled_other Nat.one_pos s.store k a (mt (blockBytes_one _ a).1 other)
    · rw [← blockPosition_contiguous, ← blockPosition_contiguous]
      exact bitAt_levelled_levelExchange Nat.one_pos s.store k p hp
  · refine ⟨_, ?_, tookFault_raise .storeRange (s.readS ra) s⟩
    rw [exec_swapk, if_neg (mt (hasRegion_iff s _ _).1 (Nat.not_le.2 outside))]

/-- Settles O43: SWAPS checks the stride, then its rows, then makes the same exchange on them. -/
theorem swapsExchangesOneLevelAtStride : Obligations.SwapsExchangesOneLevelAtStride := by
  intro ra rb k s
  refine ⟨decode_word_swaps ra rb k, fun nonzero inside => ?_, fun zero => ?_, fun nonzero outside => ?_⟩
  · have positive := toNat_pos_of_ne_zero nonzero
    refine ⟨_, exec_swaps_of_inside nonzero inside k, wroteStore_advance _ s _ fun a other => ?_, fun r hr c hc => ?_⟩
    · exact byteAt_levelled_other positive s.store k a other
    · rw [getLsbD_vec_of_position, getLsbD_vec_of_row_column _ _ _ r c hc]
      exact bitAt_levelled_levelExchange positive s.store k _ (by omega)
  · exact ⟨_, exec_swaps_of_zero zero k, tookFault_raise .sizeContract 0#64 s⟩
  · refine ⟨_, ?_, tookFault_raise .storeRange (s.readS ra) s⟩
    rw [exec_swaps_of_nonzero nonzero, if_pos ((not_hasBlock_iff s _ _).2 outside)]

/-! ### The single-bit contract (44_address_permutation.md R174) -/

/-- The exchange takes a block with exactly the bit at `p` set to one with exactly the bit at the image of `p` set. -/
theorem bitAt_levelled_of_single {base pitch p : Nat} (positive : 0 < pitch) (m : Memory) (k : BitVec 3)
    (single : ∀ q < 65536, Memory.bitAt m (blockPosition base pitch q) = decide (q = p)) (q : Nat) (hq : q < 65536) :
    Memory.bitAt (levelled base pitch m k) (blockPosition base pitch q) = decide (q = levelExchange k.toNat p) := by
  rw [bitAt_levelled positive m k q hq, single _ (levelExchange_lt k q hq)]
  exact decide_eq_decide.2 (levelExchange_involutive _).eq_iff

/-- Settles O44: the level-`k` map undoes itself, so it is a bijection, and both commands move bits by it whatever they
hold. -/
theorem singleBitContract : Obligations.SingleBitContract := by
  intro ra rb k s p hp
  have involutive := levelExchange_involutive k.toNat
  have image := levelExchange_lt k p hp
  refine ⟨⟨image, fun q _ same => involutive.injective same, _, image, involutive p⟩, fun inside single => ?_,
    fun nonzero inside single => ?_⟩
  · refine ⟨_, exec_swapk_of_inside inside k, ?_⟩
    simp only [← blockPosition_contiguous] at single ⊢
    exact bitAt_levelled_of_single Nat.one_pos s.store k single
  · refine ⟨_, exec_swaps_of_inside nonzero inside k, fun r hr c hc => ?_⟩
    rw [getLsbD_vec_of_row_column _ _ _ r c hc]
    refine bitAt_levelled_of_single (toNat_pos_of_ne_zero nonzero) s.store k (fun q hq => ?_) _ (by omega)
    rw [← getLsbD_vec_of_position, single _ (by omega) _ (by omega), Nat.div_add_mod]

/-! ### The levels together (44_address_permutation.md R175) -/

theorem exec_tblk_of_inside {ra : SReg} {s : State} (inside : (s.readS ra).toNat + 256 ≤ s.cap.toNat / 256) :
    exec (.tblk ra) s =
      .next (s.setStore (Memory.relocate (blockMove (s.readS ra).toNat 1 transposed) s.store)).advance :=
  if_pos ((hasRegion_iff s _ _).2 inside)

theorem exec_tblks_of_inside {ra rb : SReg} {s : State} (nonzero : s.readS rb ≠ 0#64)
    (inside : (s.readS ra).toNat + 255 * (s.readS rb).toNat + 1 ≤ s.cap.toNat / 256) :
    exec (.tblks ra rb) s = .next (s.setStore
      (Memory.relocate (blockMove (s.readS ra).toNat (s.readS rb).toNat transposed) s.store)).advance :=
  (if_neg nonzero).trans (if_neg (mt (not_hasBlock_iff s _ _).1 (Nat.not_lt.2 inside)))

/-- In every state with the scalar registers and the capacity of `s`, the command of each level completes with the
exchange on the block at `base` with pitch `pitch`. -/
def RunsLevels (command : BitVec 3 → Instr) (base pitch : Nat) (s : State) : Prop :=
  ∀ k t, SameScalars s t → t.cap = s.cap → exec (command k) t = .next (t.setStore (levelled base pitch t.store k)).advance

theorem runsLevels_swapk {ra : SReg} {s : State} (inside : (s.readS ra).toNat + 256 ≤ s.cap.toNat / 256) :
    RunsLevels (.swapk ra) (s.readS ra).toNat 1 s := by
  intro k t scalars cap
  rw [← scalars ra, ← cap] at inside
  rw [exec_swapk_of_inside inside, scalars]

theorem runsLevels_swaps {ra rb : SReg} {s : State} (nonzero : s.readS rb ≠ 0#64)
    (inside : (s.readS ra).toNat + 255 * (s.readS rb).toNat + 1 ≤ s.cap.toNat / 256) :
    RunsLevels (.swaps ra rb) (s.readS ra).toNat (s.readS rb).toNat s := by
  intro k t scalars cap
  rw [← scalars ra, ← scalars rb, ← cap] at inside
  rw [← scalars rb] at nonzero
  rw [exec_swaps_of_inside nonzero inside, scalars, scalars]

/-- The commands of a list of levels make the exchanges in the order of the list. -/
theorem execAll_levels {command : BitVec 3 → Instr} {base pitch : Nat} {s : State}
    (runs : RunsLevels command base pitch s) (ks : List (BitVec 3)) :
    ∃ t, execAll (ks.map command) s = .next t ∧ t.store = ks.foldl (levelled base pitch) s.store := by
  induction ks generalizing s with
  | nil => exact ⟨s, rfl, rfl⟩
  | cons k ks ih =>
    have first : exec (command k) s = .next (s.setStore (levelled base pitch s.store k)).advance :=
      runs k s (fun _ => rfl) rfl
    rw [List.map_cons, execAll, first]
    exact ih runs

theorem levels_commute {command : BitVec 3 → Instr} {base pitch : Nat} {s : State} (positive : 0 < pitch)
    (runs : RunsLevels command base pitch s) (j k : BitVec 3) :
    ∃ t u, execAll [command j, command k] s = .next t ∧ execAll [command k, command j] s = .next u ∧
      u.store = t.store := by
  obtain ⟨t, runT, storeT⟩ := execAll_levels runs [j, k]
  obtain ⟨u, runU, storeU⟩ := execAll_levels runs [k, j]
  exact ⟨t, u, runT, runU, by rw [storeT, storeU]; exact levelled_comm positive s.store k j⟩

theorem eight_levels_transpose {command : BitVec 3 → Instr} {base pitch : Nat} {s : State} (positive : 0 < pitch)
    (runs : RunsLevels command base pitch s) {ks : List (BitVec 3)} (perm : ks.Perm eightLevels) :
    ∃ u, execAll (ks.map command) s = .next u ∧ u.store = Memory.relocate (blockMove base pitch transposed) s.store := by
  obtain ⟨u, run, store⟩ := execAll_levels runs ks
  exact ⟨u, run, by rw [store, foldl_levelled_of_perm positive s.store perm]⟩

/-- Settles O46: levels commute as moves of positions, so any order of the eight is the order lowest first, which takes
each position to the transposed one. -/
theorem blockTransposeIsEightLevels : Obligations.BlockTransposeIsEightLevels := by
  intro ra rb ks j k s perm
  refine ⟨fun inside => ?_, fun nonzero inside => ?_⟩
  · have runs := runsLevels_swapk inside
    obtain ⟨u, run, store⟩ := eight_levels_transpose Nat.one_pos runs perm
    exact ⟨levels_commute Nat.one_pos runs j k, _, u, exec_tblk_of_inside inside, run, store⟩
  · have positive := toNat_pos_of_ne_zero nonzero
    have runs := runsLevels_swaps nonzero inside
    obtain ⟨u, run, store⟩ := eight_levels_transpose positive runs perm
    exact ⟨levels_commute positive runs j k, _, u, exec_tblks_of_inside nonzero inside, run, store⟩

end Sys2Proof.Proofs
end

section
/-! The transpose commands TBLK, TBLKS, RBLK and TMAT (45_transpose.md): their words decode (30_encoding.md R87), each
completes exactly when its checks hold, which bit then goes where, and TMAT twice as no change. -/

namespace Sys2Proof.Proofs

open Sys2Proof.Machine Sys2Proof.Laws

/-! ### Decoding the words of the transpose commands -/

theorem decode_word_tblk (ra : SReg) : decode (wordR 0x48 ra.num 0 0 0) = .ok (.tblk ra) :=
  decode_wordR (op := 0x48#8) rfl (by simp only [and_encodeR, BitVec.reduceExtractLsb', BitVec.and_zero]; rfl)
    (by simp [fieldA])

theorem decode_word_tblks (ra rb : SReg) : decode (wordR 0x49 ra.num rb.num 0 0) = .ok (.tblks ra rb) :=
  decode_word_of_two_fields (op := 0x49#8) (fun a b => .tblks ⟨a⟩ ⟨b⟩) rfl rfl ra.num rb.num

theorem decode_word_rblk (ra rb : SReg) : decode (wordR 0x4A ra.num rb.num 0 0) = .ok (.rblk ra rb) :=
  decode_word_of_two_fields (op := 0x4A#8) (fun a b => .rblk ⟨a⟩ ⟨b⟩) rfl rfl ra.num rb.num

theorem decode_word_tmat (ra rb : SReg) : decode (wordR 0x4B ra.num rb.num 0 0) = .ok (.tmat ra rb) :=
  decode_word_of_two_fields (op := 0x4B#8) (fun a b => .tmat ⟨a⟩ ⟨b⟩) rfl rfl ra.num rb.num

/-! ### TBLK and TBLKS (45_transpose.md R190, R191) -/

theorem transposed_row_column (i j : Nat) (hj : j < 256) : transposed (256 * i + j) = 256 * j + i := by
  unfold transposed; omega

/-- Bit `j` of row `i` of the transposed block is the old bit `i` of row `j`. -/
theorem getLsbD_vec_blockMove_transposed {base pitch : Nat} (positive : 0 < pitch) (m : Memory) (i : Nat) (hi : i < 256)
    (j : Nat) (hj : j < 256) :
    (Memory.vec (Memory.relocate (blockMove base pitch transposed) m) (base + i * pitch)).getLsbD j =
      (Memory.vec m (base + j * pitch)).getLsbD i := by
  have involutive := blockMove_involutive base pitch positive transposed transposed_lt transposed_involutive
  rw [getLsbD_vec_of_row_column _ _ _ i j hj, getLsbD_vec_of_row_column _ _ _ j i hi,
    bitAt_relocate_involutive _ involutive, blockMove_blockPosition positive _ _ (by omega),
    transposed_row_column i j hj]

theorem wroteStore_blockMove_transposed {base pitch : Nat} (positive : 0 < pitch) (s : State) :
    WroteStore (BlockBytes base pitch) s
      (s.setStore (Memory.relocate (blockMove base pitch transposed) s.store)).advance :=
  wroteStore_advance _ s _
    (byteAt_blockMove_other base pitch positive transposed transposed_lt transposed_involutive s.store)

theorem exec_tblk_of_outside {ra : SReg} {s : State} (outside : s.cap.toNat / 256 < (s.readS ra).toNat + 256) :
    exec (.tblk ra) s = .next (s.raise .storeRange (s.readS ra)) :=
  if_neg (mt (hasRegion_iff s _ _).1 (Nat.not_le.2 outside))

/-- Settles O47: TBLK is the transpose of the block at pitch 1, whose rows are 256 consecutive vectors. -/
theorem tblkTransposesABlock : Obligations.TblkTransposesABlock := by
  intro ra s
  refine ⟨decode_word_tblk ra, fun inside => ?_, fun outside => ?_⟩
  · have rows : BlockBytes (s.readS ra).toNat 1 = RegionBytes (s.readS ra).toNat 256 :=
      funext fun a => propext (blockBytes_one _ a)
    refine ⟨_, exec_tblk_of_inside inside, rows ▸ wroteStore_blockMove_transposed Nat.one_pos s, fun i hi j hj => ?_⟩
    have element := getLsbD_vec_blockMove_transposed Nat.one_pos (base := (s.readS ra).toNat) s.store i hi j hj
    rwa [Nat.mul_one, Nat.mul_one] at element
  · exact ⟨_, exec_tblk_of_outside outside, tookFault_raise .storeRange (s.readS ra) s⟩

theorem exec_tblks_of_zero {ra rb : SReg} {s : State} (zero : s.readS rb = 0#64) :
    exec (.tblks ra rb) s = .next (s.raise .sizeContract 0#64) := if_pos zero

theorem exec_tblks_of_outside {ra rb : SReg} {s : State} (nonzero : s.readS rb ≠ 0#64)
    (outside : s.cap.toNat / 256 < (s.readS ra).toNat + 255 * (s.readS rb).toNat + 1) :
    exec (.tblks ra rb) s = .next (s.raise .storeRange (s.readS ra)) :=
  (if_neg nonzero).trans (if_pos ((not_hasBlock_iff s _ _).2 outside))

/-- Settles O48: TBLKS checks the pitch, then its rows, then transposes the block. -/
theorem tblksTransposesAStridedBlock : Obligations.TblksTransposesAStridedBlock := by
  intro ra rb s
  refine ⟨decode_word_tblks ra rb, fun nonzero inside => ?_, fun zero => ?_, fun nonzero outside => ?_⟩
  · have positive := toNat_pos_of_ne_zero nonzero
    exact ⟨_, exec_tblks_of_inside nonzero inside, wroteStore_blockMove_transposed positive s,
      getLsbD_vec_blockMove_transposed positive s.store⟩
  · exact ⟨_, exec_tblks_of_zero zero, tookFault_raise .sizeContract 0#64 s⟩
  · exact ⟨_, exec_tblks_of_outside nonzero outside, tookFault_raise .storeRange (s.readS ra) s⟩

/-! ### RBLK (45_transpose.md R192) -/

/-- Row `i` of block `(br, bc)` after the exchange is the old row `i` of block `(bc, br)`. -/
theorem vec_blockExchange (base side : Nat) (m : Memory) (br : Nat) (hbr : br < side) (bc : Nat) (hbc : bc < side)
    (i : Nat) (hi : i < 256) :
    Memory.vec (Memory.relocate (blockExchange base side) m) (base + (256 * br + i) * side + bc) =
      Memory.vec m (base + (256 * bc + i) * side + br) := by
  rw [vec_eq_iff]
  intro t ht
  rw [bitAt_relocate_involutive _ (blockExchange_involutive base side), Nat.add_assoc base, Nat.add_assoc base,
    blockExchange_inside base side bc br i t hbc hbr hi ht]

theorem matrixSide_of_square {area : Scalar} {side : Nat} (square : 256 * side * (256 * side) = area.toNat) :
    matrixSide area.toNat = some (256 * side) :=
  (matrixSide_eq_some _ _ area.isLt).2 ⟨square, Nat.mul_mod_right 256 side⟩

theorem matrixSide_of_not_square {area : Scalar} (notSquare : ∀ side, 256 * side * (256 * side) ≠ area.toNat) :
    matrixSide area.toNat = none := by
  rw [matrixSide_eq_none _ area.isLt]
  rintro ⟨n, square, multiple⟩
  obtain ⟨side, rfl⟩ := Nat.dvd_of_mod_eq_zero multiple
  exact notSquare side square

/-- For an area that is the square of `256 * side`, RBLK checks the `256 * side * side` vectors of the matrix, then
exchanges its `side` by `side` blocks. -/
theorem exec_rblk_of_square {ra rb : SReg} {s : State} {side : Nat}
    (square : 256 * side * (256 * side) = (s.readS rb).toNat) :
    exec (.rblk ra rb) s =
      if s.hasRegion (s.readS ra) (256 * side * side) then
        .next (s.setStore (Memory.relocate (blockExchange (s.readS ra).toNat side) s.store)).advance
      else .next (s.raise .storeRange (s.readS ra)) := by
  have vectors : (s.readS rb).toNat / 256 = 256 * side * side := by
    rw [← square, Nat.mul_assoc 256 side, Nat.mul_div_cancel_left _ (by decide), Nat.mul_left_comm, Nat.mul_assoc]
  have blocks : 256 * side / 256 = side := Nat.mul_div_cancel_left side (by decide)
  simp only [exec, execRblk, matrixSide_of_square square, vectors, blocks]

theorem exec_rblk_of_not_square {ra rb : SReg} {s : State}
    (notSquare : ∀ side, 256 * side * (256 * side) ≠ (s.readS rb).toNat) :
    exec (.rblk ra rb) s = .next (s.raise .sizeContract (s.readS rb)) := by
  simp only [exec, execRblk, matrixSide_of_not_square notSquare]

/-- Settles O49: RBLK checks the area, then the range, then exchanges the blocks of the matrix row by row. -/
theorem rblkExchangesBlocks : Obligations.RblkExchangesBlocks := by
  intro ra rb s
  refine ⟨decode_word_rblk ra rb, fun side square => ?_, fun notSquare => ?_⟩
  · have answer := exec_rblk_of_square (ra := ra) square
    simp only [hasRegion_iff] at answer
    refine ⟨fun inside => ?_, fun outside => ?_⟩
    · rw [if_pos inside] at answer
      exact ⟨_, answer, wroteStore_advance _ s _ (byteAt_exchange_other _ side s.store),
        vec_blockExchange _ side s.store⟩
    · rw [if_neg (Nat.not_le.2 outside)] at answer
      exact ⟨_, answer, tookFault_raise .storeRange (s.readS ra) s⟩
  · exact ⟨_, exec_rblk_of_not_square notSquare, tookFault_raise .sizeContract (s.readS rb) s⟩

/-! ### TMAT (45_transpose.md R193) -/

/-- Element `(i, j)` of the transposed matrix is the old element `(j, i)`. -/
theorem bitAt_matrixMove (base n : Nat) (m : Memory) (i : Nat) (hi : i < n) (j : Nat) (hj : j < n) :
    Memory.bitAt (Memory.relocate (matrixMove base n) m) (256 * base + i * n + j) =
      Memory.bitAt m (256 * base + j * n + i) := by
  rw [bitAt_relocate_involutive _ (matrixMove_involutive base n), Nat.add_assoc, matrixMove_inside base n j i hj hi,
    Nat.add_assoc]

theorem exec_tmat_of_side_not_multiple {ra rb : SReg} {s : State} (side : (s.readS rb).toNat % 256 ≠ 0) :
    exec (.tmat ra rb) s = .next (s.raise .sizeContract (s.readS rb)) := if_pos side

section SideMultiple

variable {ra rb : SReg} {s : State} (side : (s.readS rb).toNat % 256 = 0)
include side

theorem exec_tmat_of_inside
    (inside : (s.readS ra).toNat + (s.readS rb).toNat * (s.readS rb).toNat / 256 ≤ s.cap.toNat / 256) :
    exec (.tmat ra rb) s = .next (s.setStore
      (Memory.relocate (matrixMove (s.readS ra).toNat (s.readS rb).toNat) s.store)).advance :=
  (if_neg (not_not_intro side)).trans (if_neg (mt (not_hasRegion_iff s _ _).1 (Nat.not_lt.2 inside)))

theorem exec_tmat_of_outside
    (outside : s.cap.toNat / 256 < (s.readS ra).toNat + (s.readS rb).toNat * (s.readS rb).toNat / 256) :
    exec (.tmat ra rb) s = .next (s.raise .storeRange (s.readS ra)) :=
  (if_neg (not_not_intro side)).trans (if_pos ((not_hasRegion_iff s _ _).2 outside))

end SideMultiple

/-- Settles O50: TMAT checks the side, then the range, then exchanges the elements of the matrix across its diagonal. -/
theorem tmatTransposesAMatrix : Obligations.TmatTransposesAMatrix := by
  intro ra rb s
  refine ⟨decode_word_tmat ra rb, fun side inside => ?_, fun side => ?_, fun side outside => ?_⟩
  · exact ⟨_, exec_tmat_of_inside side inside, wroteStore_advance _ s _ (byteAt_matrixMove_other _ _ side s.store),
      bitAt_matrixMove _ _ s.store⟩
  · exact ⟨_, exec_tmat_of_side_not_multiple side, tookFault_raise .sizeContract (s.readS rb) s⟩
  · exact ⟨_, exec_tmat_of_outside side outside, tookFault_raise .storeRange (s.readS ra) s⟩

/-! ### TMAT twice (45_transpose.md R195) -/

/-- A relocation by a move that undoes itself, made twice, keeps every byte. -/
theorem byteAt_relocate_twice {move : Nat → Nat} (involutive : Function.Involutive move) (m : Memory) (a : Nat) :
    Memory.byteAt (Memory.relocate move (Memory.relocate move m)) a = Memory.byteAt m a := by
  rw [relocate_relocate, involutive.comp_self]
  exact byteAt_relocate_fixed id (fun _ => rfl) m a fun _ _ => rfl

/-- Settles O51: the first TMAT keeps the operands and the capacity, so the second makes the same move, which undoes
itself; a canonical store comes back as the same data. -/
theorem tmatIsAnInvolution : Obligations.TmatIsAnInvolution := by
  intro ra rb s side inside
  have restored := byteAt_relocate_twice (matrixMove_involutive (s.readS ra).toNat (s.readS rb).toNat) s.store
  exact ⟨_, _, exec_tmat_of_inside side inside, exec_tmat_of_inside (s := (s.setStore _).advance) side inside,
    bitAt_matrixMove _ _ s.store, restored,
    fun canonical => memory_ext _ _ (wf_relocate _ _) canonical restored⟩

end Sys2Proof.Proofs
end

section
/-! Faults (60_exceptions.md): a step that enters FAULTED from RUNNING is fault entry, `State.raise` (R212), and the fetch
past the end of the command memory is the fault FetchRange (R218). -/

namespace Sys2Proof.Proofs

open Sys2Proof.Machine Sys2Proof.Laws

/-- Of the six ends of a command only fault entry leads from RUNNING to FAULTED. -/
theorem eq_raise_of_did_faulted {i : Instr} {s t : State} (running : s.runState = .running) (did : Did i s t)
    (faulted : t.runState = .faulted) : ∃ c info, c ∈ causesOf i ∧ t = s.raise c info := by
  cases did with
  | fault c info _ hc => exact ⟨c, info, hc, rfl⟩
  | halted | scalar | vector | store | built => simp [running] at faulted

/-- Fetch, decode and execution enter FAULTED in one way. -/
theorem eq_raise_of_step_faulted {s t : State} (running : s.runState = .running) (stepped : step s = .next t)
    (faulted : t.runState = .faulted) : ∃ c info, c ≠ .none ∧ t = s.raise c info := by
  obtain ⟨t', stepped', ends⟩ := step_cases s
  obtain rfl : t = t' := Host.Outcome.next.inj (stepped.symm.trans stepped')
  obtain ⟨resting, -⟩ | ⟨-, -, fetch⟩ | ⟨-, w, -, ⟨-, illegal⟩ | ⟨i, -, did⟩⟩ := ends
  · exact absurd running resting
  · exact ⟨.fetchRange, _, by decide, fetch⟩
  · exact ⟨.illegalCommand, _, by decide, illegal⟩
  · obtain ⟨c, info, hc, raised⟩ := eq_raise_of_did_faulted running did faulted
    exact ⟨c, info, ne_of_mem_of_not_mem hc (none_notMem_causesOf i), raised⟩

/-- Settles O13: a step from RUNNING that faults is `State.raise`, with a cause of fetch, of decode or of the command. -/
theorem faultEntryIsPrecise : Obligations.FaultEntryIsPrecise := by
  intro s t running stepped faulted
  obtain ⟨c, info, hc, rfl⟩ := eq_raise_of_step_faulted running stepped faulted
  exact ⟨tookFault_raise c info s, hc⟩

theorem step_of_fetch_past_end {s : State} (running : s.runState = .running)
    (past : s.program.length ≤ s.pc.toNat) : step s = .next s.raiseFetchRange := by
  simp only [step, running, State.fetch, List.getElem?_eq_none past]

/-- Settles O8: a fetch past the end is fault entry with `pc` zero-extended as the recorded value. -/
theorem fetchPastTheEndFaults : Obligations.FetchPastTheEndFaults := by
  intro s running past
  refine ⟨_, step_of_fetch_past_end running past, ?_⟩
  rw [BitVec.ofNat_toNat]
  exact tookFault_raise .fetchRange (s.pc.setWidth 64) s

end Sys2Proof.Proofs
end

section
/-! The decoder and the encoder undo each other, and the opcode map is unambiguous (30_encoding.md R81, R82, R86, R87). -/

namespace Sys2Proof.Proofs

open Sys2Proof.Machine Sys2Proof.Laws

/-! ### Decoding the encoding of a command -/

theorem decode_word_srand (rd ra : SReg) : decode (wordR 0x11 rd.num ra.num 0 0) = .ok (.srand rd ra) :=
  decode_word_of_two_fields (op := 0x11#8) (fun a b => .srand ⟨a⟩ ⟨b⟩) rfl rfl rd.num ra.num

theorem decode_word_popsum (rd : SReg) (va : VReg) : decode (wordR 0x29 rd.num va.num 0 0) = .ok (.popsum rd va) :=
  decode_word_of_two_fields (op := 0x29#8) (fun a b => .popsum ⟨a⟩ ⟨b⟩) rfl rfl rd.num va.num

/-- What the numeric form of a word of format R decodes to, the encoder's form decodes to. -/
theorem decode_encodeR {op : BitVec 8} {a b c d : BitVec 4} {i : Instr}
    (decoded : decode (wordR op.toNat a b c d) = .ok i) : decode (encodeR op a b c d) = .ok i :=
  wordR_eq_encodeR op a b c d ▸ decoded

/-- What the numeric form of a word of format I decodes to, the encoder's form decodes to. -/
theorem decode_encodeI {op : BitVec 8} {a : BitVec 4} {q : BitVec 2} {imm16 : BitVec 16} {i : Instr}
    (decoded : decode (wordI op.toNat a q imm16) = .ok i) : decode (encodeI op a q imm16) = .ok i :=
  wordI_eq_encodeI op a q imm16 ▸ decoded

/-- Settles O1: the encoder's word of each command is the word of its row, which decodes to the command. -/
theorem decodeOfEncode : Obligations.DecodeOfEncode := by
  intro i
  cases i with
  | halt => exact decode_encodeR decode_word_halt
  | li rd q imm16 => exact decode_encodeI (decode_word_li rd q imm16)
  | lik rd q imm16 => exact decode_encodeI (decode_word_lik rd q imm16)
  | ceil256 rd ra => exact decode_encodeR (decode_word_ceil256 rd ra)
  | sinit rd ra => exact decode_encodeR (decode_word_sinit rd ra)
  | srand rd ra => exact decode_encodeR (decode_word_srand rd ra)
  | getb rd ra => exact decode_encodeR (decode_word_getb rd ra)
  | setb ra rb => exact decode_encodeR (decode_word_setb ra rb)
  | getw rd ra => exact decode_encodeR (decode_word_getw rd ra)
  | setw ra rb => exact decode_encodeR (decode_word_setw ra rb)
  | vld vd ra => exact decode_encodeR (decode_word_vld vd ra)
  | vst ra vb => exact decode_encodeR (decode_word_vst ra vb)
  | seq rd ra rb rc => exact decode_encodeR (decode_word_seq rd ra rb rc)
  | pack vd ra rb => exact decode_encodeR (decode_word_pack vd ra rb)
  | unpack ra vb => exact decode_encodeR (decode_word_unpack ra vb)
  | popc16 vd va => exact decode_encodeR (decode_word_popc16 vd va)
  | popsum rd va => exact decode_encodeR (decode_word_popsum rd va)
  | mod4 vd va vb vc => exact decode_encodeR (decode_word_mod4 vd va vb vc)
  | xorm ra rb rc => exact decode_encodeR (decode_word_xorm ra rb rc)
  | anynz rd ra rb => exact decode_encodeR (decode_word_anynz rd ra rb)
  | swapk ra k => exact decode_encodeR (ofNat_toNat_eq_levelField k ▸ decode_word_swapk ra k)
  | swaps ra rb k => exact decode_encodeR (ofNat_toNat_eq_levelField k ▸ decode_word_swaps ra rb k)
  | tblk ra => exact decode_encodeR (decode_word_tblk ra)
  | tblks ra rb => exact decode_encodeR (decode_word_tblks ra rb)
  | rblk ra rb => exact decode_encodeR (decode_word_rblk ra rb)
  | tmat ra rb => exact decode_encodeR (decode_word_tmat ra rb)

/-! ### The rows of the opcode map -/

/-- No two rows have one opcode byte. -/
theorem opRows_distinct : opRows.Pairwise fun r r' => opField r.val ≠ opField r'.val := by
  decide

/-- Among rows with distinct opcode bytes, the search for a row's byte finds the row. -/
theorem find?_opField_of_mem {rows : List OpRow} (distinct : rows.Pairwise fun r r' => opField r.val ≠ opField r'.val)
    {r : OpRow} (listed : r ∈ rows) : rows.find? (fun r' => opField r'.val == opField r.val) = some r := by
  induction rows with
  | nil => cases listed
  | cons first rows ih =>
    obtain ⟨differs, distinct⟩ := List.pairwise_cons.1 distinct
    obtain rfl | later := List.mem_cons.1 listed
    · exact List.find?_cons_of_pos (beq_self_eq_true _)
    · rw [List.find?_cons_of_neg (by simpa using differs r later), ih distinct later]

/-- A field that a mask covers whole is the match's in every word that matches. -/
theorem extractLsb'_of_match {w m v : CmdWord} (matching : w &&& m = v) (i n : Nat)
    (covered : m.extractLsb' i n = BitVec.allOnes n) : w.extractLsb' i n = v.extractLsb' i n := by
  rw [← matching, BitVec.extractLsb'_and, covered, BitVec.and_allOnes]

/-- Every mask covers the opcode byte. -/
theorem opField_mask (r : OpRow) (listed : r ∈ opRows) : opField r.mask = BitVec.allOnes 8 := by
  revert r; decide

theorem opField_of_match {r : OpRow} (listed : r ∈ opRows) {w : CmdWord} (matching : w &&& r.mask = r.val) :
    opField w = opField r.val :=
  extractLsb'_of_match matching 24 8 (opField_mask r listed)

theorem decode_of_match {r : OpRow} (listed : r ∈ opRows) {w : CmdWord} (matching : w &&& r.mask = r.val) :
    decode w = .ok (r.build w) := by
  refine decode_of_row w r ?_ matching
  rw [opField_of_match listed matching]
  exact find?_opField_of_mem opRows_distinct listed

/-- A word decodes as the row says that its opcode byte leads to, and only when it matches that row. -/
theorem match_of_decode {w : CmdWord} {i : Instr} (decoded : decode w = .ok i) :
    ∃ r ∈ opRows, w &&& r.mask = r.val ∧ r.build w = i := by
  unfold decode at decoded
  split at decoded
  · cases decoded
  next r found =>
    split at decoded
    next matching => exact ⟨r, List.mem_of_find?_eq_some found, matching, Except.ok.inj decoded⟩
    · cases decoded

/-- Settles O3: the rows differ in the opcode byte, which every mask covers, so a word matches the row of its own byte or
none. -/
theorem opcodeMapUnambiguous : Obligations.OpcodeMapUnambiguous := by
  refine ⟨rfl, ?_, fun r listed w matching => decode_of_match listed matching, fun w unmatched => ?_⟩
  · refine opRows_distinct.imp_of_mem fun listed listed' differ w ⟨matching, matching'⟩ => differ ?_
    rw [← opField_of_match listed matching, ← opField_of_match listed' matching']
  · cases decoded : decode w with
    | error e => exact ⟨e, rfl⟩
    | ok i =>
      obtain ⟨r, listed, matching, -⟩ := match_of_decode decoded
      exact absurd matching (unmatched r listed)

/-! ### Encoding what a word decodes to -/

/-- A word is the join of its fields in format R. -/
theorem encodeR_of_fields {w : CmdWord} {op : BitVec 8} {a b c d : BitVec 4} (hop : w.extractLsb' 24 8 = op)
    (ha : w.extractLsb' 20 4 = a) (hb : w.extractLsb' 16 4 = b) (hc : w.extractLsb' 12 4 = c)
    (hd : w.extractLsb' 8 4 = d) (hz : w.extractLsb' 0 8 = 0#8) : encodeR op a b c d = w := by
  rw [encodeR, ← hop, ← ha, ← hb, ← hc, ← hd, ← hz, ← fieldsR]

/-- A word is the join of its fields in format I. -/
theorem encodeI_of_fields {w : CmdWord} {op : BitVec 8} (hop : w.extractLsb' 24 8 = op) (hy : w.extractLsb' 18 2 = 0#2) :
    encodeI op (fieldA w) (fieldQ w) (fieldImm w) = w := by
  rw [encodeI, ← hop, ← hy, fieldA, fieldQ, fieldImm, ← fieldsI]

/-- The level below a zero bit 11 is the field `D` (30_encoding.md R84). -/
theorem levelField_fieldK {w : CmdWord} (high : w.extractLsb' 11 1 = 0#1) :
    w.extractLsb' 8 4 = levelField (fieldK w) := by
  rw [levelField, fieldK, ← high, BitVec.extractLsb'_append_extractLsb'_eq_extractLsb' (show 11 = 8 + 3 from rfl)]

section Matches

variable {w val : CmdWord} {op : BitVec 8} (opcode : val = encodeR op 0 0 0 0)
include opcode

/-- A word whose command uses the fields A and B alone is the join of the opcode byte and these fields. -/
theorem encodeR_of_match_two_fields (matching : w &&& 0xFF00FFFF#32 = val) :
    encodeR op (fieldA w) (fieldB w) 0 0 = w := by
  subst opcode
  have field := extractLsb'_of_match matching
  exact encodeR_of_fields ((field 24 8 rfl).trans (op_encodeR ..)) rfl rfl ((field 12 4 rfl).trans (fieldC_encodeR ..))
    ((field 8 4 rfl).trans (fieldD_encodeR ..)) ((field 0 8 rfl).trans (fieldZ_encodeR ..))

/-- A word whose command uses the fields A, B and C alone is the join of the opcode byte and these fields. -/
theorem encodeR_of_match_three_fields (matching : w &&& 0xFF000FFF#32 = val) :
    encodeR op (fieldA w) (fieldB w) (fieldC w) 0 = w := by
  subst opcode
  have field := extractLsb'_of_match matching
  exact encodeR_of_fields ((field 24 8 rfl).trans (op_encodeR ..)) rfl rfl rfl
    ((field 8 4 rfl).trans (fieldD_encodeR ..)) ((field 0 8 rfl).trans (fieldZ_encodeR ..))

/-- A word whose command uses all four fields is the join of the opcode byte and these fields. -/
theorem encodeR_of_match_four_fields (matching : w &&& 0xFF0000FF#32 = val) :
    encodeR op (fieldA w) (fieldB w) (fieldC w) (fieldD w) = w := by
  subst opcode
  have field := extractLsb'_of_match matching
  exact encodeR_of_fields ((field 24 8 rfl).trans (op_encodeR ..)) rfl rfl rfl rfl
    ((field 0 8 rfl).trans (fieldZ_encodeR ..))

end Matches

/-- A word of format I that matches is the join of the opcode byte and its fields. -/
theorem encodeI_of_match {w val : CmdWord} {op : BitVec 8} (opcode : val = encodeI op 0 0 0)
    (matching : w &&& 0xFF0C0000#32 = val) : encodeI op (fieldA w) (fieldQ w) (fieldImm w) = w := by
  subst opcode
  have field := extractLsb'_of_match matching
  exact encodeI_of_fields ((field 24 8 rfl).trans (op_encodeI ..)) ((field 18 2 rfl).trans (fieldY_encodeI ..))

/-- Row by row, the encoder gives a matching word back: the fields that the command does not use are in the mask. -/
theorem encode_build_of_match : ∀ r ∈ opRows, ∀ w : CmdWord, w &&& r.mask = r.val → encode (r.build w) = w := by
  simp only [opRows, storeRows, laneRows, List.cons_append, List.nil_append, List.forall_mem_cons]
  refine ⟨fun w halt => ?_, fun w li => ?_, fun w lik => ?_, fun w ceil256 => ?_, fun w sinit => ?_, fun w srand => ?_,
    fun w getb => ?_, fun w setb => ?_, fun w getw => ?_, fun w setw => ?_, fun w vld => ?_, fun w vst => ?_,
    fun w seq => ?_, fun w pack => ?_, fun w unpack => ?_, fun w popc16 => ?_, fun w popsum => ?_, fun w mod4 => ?_,
    fun w xorm => ?_, fun w anynz => ?_, fun w swapk => ?_, fun w swaps => ?_, fun w tblk => ?_, fun w tblks => ?_,
    fun w rblk => ?_, fun w tmat => ?_, List.forall_mem_nil _⟩
  · exact halt.symm.trans (BitVec.and_allOnes)
  · exact encodeI_of_match rfl li
  · exact encodeI_of_match rfl lik
  · exact encodeR_of_match_two_fields rfl ceil256
  · exact encodeR_of_match_two_fields rfl sinit
  · exact encodeR_of_match_two_fields rfl srand
  · exact encodeR_of_match_two_fields rfl getb
  · exact encodeR_of_match_two_fields rfl setb
  · exact encodeR_of_match_two_fields rfl getw
  · exact encodeR_of_match_two_fields rfl setw
  · exact encodeR_of_match_two_fields rfl vld
  · exact encodeR_of_match_two_fields rfl vst
  · exact encodeR_of_match_four_fields rfl seq
  · exact encodeR_of_match_three_fields rfl pack
  · exact encodeR_of_match_two_fields rfl unpack
  · exact encodeR_of_match_two_fields rfl popc16
  · exact encodeR_of_match_two_fields rfl popsum
  · exact encodeR_of_match_four_fields rfl mod4
  · exact encodeR_of_match_three_fields rfl xorm
  · exact encodeR_of_match_three_fields rfl anynz
  · have field := extractLsb'_of_match swapk
    exact encodeR_of_fields (field 24 8 rfl) rfl (field 16 4 rfl) (field 12 4 rfl) (levelField_fieldK (field 11 1 rfl))
      (field 0 8 rfl)
  · have field := extractLsb'_of_match swaps
    exact encodeR_of_fields (field 24 8 rfl) rfl rfl (field 12 4 rfl) (levelField_fieldK (field 11 1 rfl)) (field 0 8 rfl)
  · have field := extractLsb'_of_match tblk
    exact encodeR_of_fields (field 24 8 rfl) rfl (field 16 4 rfl) (field 12 4 rfl) (field 8 4 rfl) (field 0 8 rfl)
  · exact encodeR_of_match_two_fields rfl tblks
  · exact encodeR_of_match_two_fields rfl rblk
  · exact encodeR_of_match_two_fields rfl tmat

/-- Settles O2: a word that decodes matches a row, whose command has the word as its encoding. -/
theorem encodeOfDecode : Obligations.EncodeOfDecode := by
  intro w i decoded
  obtain ⟨r, listed, matching, rfl⟩ := match_of_decode decoded
  exact encode_build_of_match r listed w matching

/-! ### The worked encodings -/

/-- Settles O5: the decoder evaluated on the fourteen worked words and the seven illegal ones of 30_encoding.md
section 6. -/
theorem workedEncodingsDecode : Obligations.WorkedEncodingsDecode := by
  unfold Obligations.WorkedEncodingsDecode
  decide

end Sys2Proof.Proofs
end

section
/-! The host port (70_reset_and_hazards.md R246): what each operation does in each run state, said once, the table of the
port, the control registers the host reads, and who writes the capacity and the command memory. -/

namespace Sys2Proof.Proofs

open Sys2Proof.Machine Sys2Proof.Laws

/-! ### What each operation answers -/

theorem isRunning_iff (s : State) : s.isRunning = true ↔ s.runState = .running := beq_iff_eq

theorem port_start_of_not_resting {s : State} (busy : s.runState = .running ∨ s.runState = .faulted) :
    port .start s = .next s :=
  if_neg (by obtain h | h := busy <;> simp [h])

theorem port_writeM_beyond {s : State} {j : Nat} (beyond : s.cap.toNat / 256 ≤ j) (w : Vec) :
    port (.writeM j w) s = .refused .hostCannot := if_pos beyond

theorem port_writeCommand_beyond {s : State} {i : Nat} (beyond : s.program.length ≤ i) (w : CmdWord) :
    port (.writeCommand i w) s = .refused .hostCannot := if_pos beyond

section Running

variable {s : State} (running : s.runState = .running)
include running

theorem port_writeS_running (r : SReg) (v : Scalar) : port (.writeS r v) s = .refused .hostMustNot :=
  if_pos ((isRunning_iff s).2 running)

theorem port_writeV_running (r : VReg) (w : Vec) : port (.writeV r w) s = .refused .hostMustNot :=
  if_pos ((isRunning_iff s).2 running)

theorem port_writeM_running (j : Nat) (w : Vec) : ∃ x, port (.writeM j w) s = .refused x := by
  by_cases beyond : s.capV ≤ j
  · exact ⟨_, if_pos beyond⟩
  · exact ⟨_, (if_neg beyond).trans (if_pos ((isRunning_iff s).2 running))⟩

theorem port_writeCommand_running (i : Nat) (w : CmdWord) : ∃ x, port (.writeCommand i w) s = .refused x := by
  by_cases beyond : s.program.length ≤ i
  · exact ⟨_, if_pos beyond⟩
  · exact ⟨_, (if_neg beyond).trans (if_pos ((isRunning_iff s).2 running))⟩

end Running

section NotRunning

variable {s : State} (resting : s.runState ≠ .running)
include resting

theorem port_writeS_resting (r : SReg) (v : Scalar) : port (.writeS r v) s = .next (s.writeS r v) :=
  if_neg (mt (isRunning_iff s).1 resting)

theorem port_writeV_resting (r : VReg) (w : Vec) : port (.writeV r w) s = .next (s.writeV r w) :=
  if_neg (mt (isRunning_iff s).1 resting)

theorem port_writeM_resting {j : Nat} (below : j < s.capV) (w : Vec) :
    port (.writeM j w) s = .next (s.setStore (Memory.setVec s.store j w)) :=
  (if_neg (Nat.not_le.2 below)).trans (if_neg (mt (isRunning_iff s).1 resting))

theorem port_writeCommand_resting {i : Nat} (below : i < s.program.length) (w : CmdWord) :
    port (.writeCommand i w) s = .next { s with program := s.program.set i w } :=
  (if_neg (Nat.not_le.2 below)).trans (if_neg (mt (isRunning_iff s).1 resting))

end NotRunning

/-- What the host's operation `op` can make of state `s`. -/
inductive Acted (s : State) : PortOp → State → Prop where
  | reset : Acted s .reset s.toReset
  | start (h : s.runState = .idle ∨ s.runState = .halted) : Acted s .start s.toRunning
  | startIgnored : Acted s .start s
  | writeS (r : SReg) (v : Scalar) : Acted s (.writeS r v) (s.writeS r v)
  | writeV (r : VReg) (w : Vec) : Acted s (.writeV r w) (s.writeV r w)
  | writeM (j : Nat) (w : Vec) (h : j < s.capV) : Acted s (.writeM j w) (s.setStore (Memory.setVec s.store j w))
  | writeCommand (i : Nat) (w : CmdWord) : Acted s (.writeCommand i w) { s with program := s.program.set i w }

/-- An operation that answers a next state acted in one of the seven ways. -/
theorem acted_of_port {op : PortOp} {s t : State} (answer : port op s = .next t) : Acted s op t := by
  cases op with
  | reset => cases answer; exact .reset
  | start =>
    simp only [port] at answer
    split at answer
    next resting => cases answer; exact .start resting
    · cases answer; exact .startIgnored
  | writeS r v =>
    by_cases running : s.runState = .running
    · rw [port_writeS_running running] at answer; cases answer
    · rw [port_writeS_resting running] at answer; cases answer; exact .writeS r v
  | writeV r w =>
    by_cases running : s.runState = .running
    · rw [port_writeV_running running] at answer; cases answer
    · rw [port_writeV_resting running] at answer; cases answer; exact .writeV r w
  | writeM j w =>
    by_cases beyond : s.capV ≤ j
    · rw [port_writeM_beyond beyond] at answer; cases answer
    by_cases running : s.runState = .running
    · obtain ⟨x, refused⟩ := port_writeM_running running j w
      rw [refused] at answer; cases answer
    · have below := Nat.lt_of_not_le beyond
      rw [port_writeM_resting running below] at answer; cases answer; exact .writeM j w below
  | writeCommand i w =>
    by_cases beyond : s.program.length ≤ i
    · rw [port_writeCommand_beyond beyond] at answer; cases answer
    by_cases running : s.runState = .running
    · obtain ⟨x, refused⟩ := port_writeCommand_running running i w
      rw [refused] at answer; cases answer
    · rw [port_writeCommand_resting running (Nat.lt_of_not_le beyond)] at answer; cases answer; exact .writeCommand i w
  | writeCsr n v => cases answer

/-! ### FAULTED is left by reset only (60_exceptions.md R220, R235) -/

/-- Settles O9: the step of a resting engine is the state itself. -/
theorem engineRestsOutsideRunning : Obligations.EngineRestsOutsideRunning := by
  intro s resting
  unfold step
  obtain idle | halted | faulted := resting
  · rw [idle]
  · rw [halted]
  · rw [faulted]

/-- Settles O14: of the host's operations only reset and a start that acts write the run state or a fault register, and
in FAULTED start does not act. -/
theorem faultsAreSticky : Obligations.FaultsAreSticky := by
  intro s faulted
  refine ⟨engineRestsOutsideRunning s (.inr (.inr faulted)), port_start_of_not_resting (.inr faulted), ?_,
    ⟨_, port_reset s, toReset_runState s, toReset_cause s⟩⟩
  intro op t notReset answer
  cases acted_of_port answer with
  | reset => exact absurd rfl notReset
  | start resting => simp [faulted] at resting
  | startIgnored | writeS | writeV | writeM | writeCommand => exact ⟨faulted, rfl, rfl, rfl, rfl⟩

/-! ### The table of the port -/

theorem portReadM_beyond {s : State} {j : Nat} (beyond : s.cap.toNat / 256 ≤ j) : portReadM s j = none :=
  if_pos (.inr beyond)

theorem portReadCommand_beyond {s : State} {i : Nat} (beyond : s.program.length ≤ i) : portReadCommand s i = none := by
  rw [portReadCommand, List.getElem?_eq_none beyond, ite_self]

section ReadsRunning

variable {s : State} (running : s.runState = .running)
include running

theorem portReadS_running (r : SReg) : portReadS s r = none := if_pos ((isRunning_iff s).2 running)

theorem portReadV_running (r : VReg) : portReadV s r = none := if_pos ((isRunning_iff s).2 running)

theorem portReadM_running (j : Nat) : portReadM s j = none := if_pos (.inl ((isRunning_iff s).2 running))

theorem portReadCommand_running (i : Nat) : portReadCommand s i = none := if_pos ((isRunning_iff s).2 running)

theorem portReadCsr_running {n : Nat} (other : n ≠ 0) : portReadCsr s n = none :=
  if_pos ⟨(isRunning_iff s).2 running, other⟩

end ReadsRunning

section ReadsNotRunning

variable {s : State} (resting : s.runState ≠ .running)
include resting

theorem portReadS_resting (r : SReg) : portReadS s r = some (s.readS r) := if_neg (mt (isRunning_iff s).1 resting)

theorem portReadV_resting (r : VReg) : portReadV s r = some (s.readV r) := if_neg (mt (isRunning_iff s).1 resting)

theorem portReadM_resting {j : Nat} (below : j < s.capV) : portReadM s j = some (Memory.vec s.store j) :=
  if_neg (not_or.2 ⟨mt (isRunning_iff s).1 resting, Nat.not_le.2 below⟩)

theorem portReadCommand_resting (i : Nat) : portReadCommand s i = s.program[i]? :=
  if_neg (mt (isRunning_iff s).1 resting)

theorem portReadCsr_resting (n : Nat) : portReadCsr s n = s.csr n :=
  if_neg fun h => resting ((isRunning_iff s).1 h.1)

end ReadsNotRunning

/-- A write of one vector of the store keeps the others. -/
theorem vec_setVec_other (m : Memory) {j x : Nat} (other : x ≠ j) (w : Vec) :
    Memory.vec (Memory.setVec m j w) x = Memory.vec m x :=
  (vec_eq_iff _ _ _ _).2 fun t ht => by rw [bitAt_setVec, if_neg (by omega)]

/-- Settles O57: the table of the port, operation by operation. -/
theorem hostPortFollowsItsTable : Obligations.HostPortFollowsItsTable := by
  intro s
  refine ⟨fun resting => ?start, port_start_of_not_resting, fun running => ?running, fun resting => ?resting,
    fun j w beyond => ⟨port_writeM_beyond beyond w, portReadM_beyond beyond⟩,
    fun i w beyond => ⟨port_writeCommand_beyond beyond w, portReadCommand_beyond beyond⟩, fun n v => rfl⟩
  case start =>
    exact ⟨_, port_start_of_resting resting, rfl, rfl, fun _ => rfl, fun _ => rfl, fun _ => rfl, rfl, rfl, rfl, rfl, rfl,
      rfl, rfl⟩
  case running =>
    exact ⟨fun r v => ⟨port_writeS_running running r v, portReadS_running running r⟩,
      fun r w => ⟨port_writeV_running running r w, portReadV_running running r⟩,
      fun j w => ⟨port_writeM_running running j w, portReadM_running running j⟩,
      fun i w => ⟨port_writeCommand_running running i w, portReadCommand_running running i⟩⟩
  case resting =>
    refine ⟨fun r v => ⟨portReadS_resting resting r, _, port_writeS_resting resting r v, ?_⟩,
      fun r w => ⟨portReadV_resting resting r, _, port_writeV_resting resting r w, ?_⟩,
      fun j w below => ⟨portReadM_resting resting below, _, port_writeM_resting resting below w, ?_⟩,
      fun i w below => ⟨portReadCommand_resting resting i, _, port_writeCommand_resting resting below w, ?_⟩⟩
    · exact ⟨by simp, fun x other => by simp [other], fun _ => rfl, fun _ => rfl, rfl,
        ⟨rfl, rfl, rfl, rfl, rfl, rfl, rfl, rfl⟩⟩
    · exact ⟨by simp, fun x other => by simp [other], fun _ => rfl, fun _ => rfl, rfl,
        ⟨rfl, rfl, rfl, rfl, rfl, rfl, rfl, rfl⟩⟩
    · exact ⟨vec_setVec_same s.store j w, fun x other => vec_setVec_other s.store other w, fun _ => rfl, fun _ => rfl,
        rfl, ⟨rfl, rfl, rfl, rfl, rfl, rfl, rfl, rfl⟩⟩
    · exact ⟨List.getElem?_set_self below, fun x other => List.getElem?_set_ne other.symm, fun _ => rfl, fun _ => rfl,
        fun _ => rfl, rfl, rfl, rfl, rfl, rfl, rfl, rfl, rfl⟩

/-! ### The control registers (10_state.md R25) -/

/-- CSR 0 answers the code of `STATE` in every run state (10_state.md R26). -/
theorem portReadCsr_state (s : State) : portReadCsr s 0 = some (s.runState.code.setWidth 64) :=
  if_neg fun h => h.2 rfl

/-- Settles O56: in RUNNING the host reads `STATE` alone, elsewhere each register by its number, zero-extended. -/
theorem hostReadsControlRegisters : Obligations.HostReadsControlRegisters := by
  intro s
  refine ⟨fun n running other => portReadCsr_running running other, ?_, fun resting => ?_⟩
  · rw [portReadCsr_state]
    cases s.runState <;> rfl
  · have cause : s.csr 2 = some (s.cause.code.setWidth 64) := rfl
    simp only [portReadCsr_resting resting, cause]
    refine ⟨?_, ?_, rfl, ?_, rfl, rfl, csr_idr s⟩
    · rw [BitVec.ofNat_toNat]; rfl
    · cases s.cause <;> rfl
    · rw [BitVec.ofNat_toNat]; rfl

/-! ### Who writes `CAP`, `CAPMAX` and the command memory (10_state.md R30, R31, R34) -/

/-- Settles O16: of the ends of a command only that of SINIT and SRAND writes `CAP`, of the host's operations only reset
does, and only a write of a command word changes the command memory. -/
theorem capacityWritersAreFew : Obligations.CapacityWritersAreFew := by
  refine ⟨fun i s t answer => ?_, fun op s t answer => ?_⟩
  · cases did_of_exec answer with
    | built rd c n m made =>
      obtain ⟨ra, ⟨sinit, -⟩ | srand⟩ := made
      · exact ⟨rfl, rfl, fun _ => ⟨rd, ra, .inl sinit⟩⟩
      · exact ⟨rfl, rfl, fun _ => ⟨rd, ra, .inr srand⟩⟩
    | halted | scalar | vector | store | fault => exact ⟨rfl, rfl, fun changed => absurd rfl changed⟩
  · cases acted_of_port answer with
    | reset => exact ⟨rfl, rfl, fun _ => rfl, fun changed => absurd rfl changed⟩
    | writeCommand i w => exact ⟨rfl, List.length_set, fun changed => absurd rfl changed, fun _ => ⟨i, w, rfl⟩⟩
    | start | startIgnored | writeS | writeV | writeM =>
      exact ⟨rfl, rfl, fun changed => absurd rfl changed, fun changed => absurd rfl changed⟩

end Sys2Proof.Proofs
end

section
/-! The invariant (10_state.md sections 3, 5 and 6): what each end of a command, each fault and each operation of the
host keeps of it, and so every reachable state. -/

namespace Sys2Proof.Proofs

open Sys2Proof.Machine Sys2Proof.Laws

/-! ### The invariant at power-on (10_state.md R37) -/

theorem inv_powerOn {capMax : BitVec 64} {program : List CmdWord} (aligned : capMax.toNat % 256 = 0)
    (short : program.length < 2 ^ 32) : (State.powerOn capMax program).Inv where
  storeWf := wf_nil
  storeInside _ listed := nomatch listed
  capAligned := rfl
  capBounded := Nat.zero_le _
  capMaxAligned := aligned
  programShort := short
  pcBounded := Nat.zero_le _
  causeIffFaulted := ⟨fun recorded => absurd rfl recorded, fun faulted => nomatch faulted⟩
  fpcInFault faulted := nomatch faulted
  noFaultZero _ := ⟨rfl, rfl⟩

/-- A number whose low byte is zero is a multiple of 256 (00_scope.md R5). -/
theorem toNat_append_zero_byte (c : BitVec 56) : (c ++ 0#8).toNat % 256 = 0 := by
  rw [toNat_append_add, BitVec.toNat_zero, Nat.add_zero]
  exact Nat.mul_mod_left c.toNat (2 ^ 8)

theorem inv_reset : State.reset.Inv := inv_powerOn (toNat_append_zero_byte Config.capMaxVectors) (by decide)

/-- Settles O58: at power-on the store is empty, no fault is recorded and `pc` is 0. -/
theorem resetMeetsTheInvariant : Obligations.ResetMeetsTheInvariant :=
  ⟨inv_reset, fun c _ short => inv_powerOn (toNat_append_zero_byte c) short⟩

/-- Settles O55: reset makes every field but `CAPMAX`, the command memory and the count of draws what power-on made it,
and after power-on the count is 0. -/
theorem powerOnState : Obligations.PowerOnState :=
  ⟨fun capMax p => ⟨_, port_reset (State.powerOn capMax p), rfl, rfl, rfl, rfl, rfl⟩, rfl,
    toNat_append_zero_byte Config.capMaxVectors, inv_reset⟩

/-! ### The invariant under the operations of the state -/

/-- No byte of a canonical store stands beyond the bits that may be one. -/
theorem inside_of_bits_beyond {m : Memory} (canonical : Memory.wf m) {c : Nat}
    (beyond : ∀ k, c ≤ k → Memory.bitAt m k = false) : ∀ x ∈ m, 8 * x.1 < c := by
  intro x listed
  by_contra outside
  have zero : Memory.byteAt m x.1 = Memory.byteAt [] x.1 :=
    byteAt_eq_of_bits m [] x.1 fun i _ => by rw [beyond _ (by omega), bitAt_nil]
  rw [byteAt_of_mem m canonical x listed] at zero
  exact canonical.2 x listed zero

/-- The host's write of a vector below `CAPV` stays inside the capacity (70_reset_and_hazards.md R246). -/
theorem follows_setVec {s : State} {j : Nat} (below : j < s.capV) (w : Vec) :
    Follows s (Memory.setVec s.store j w) where
  wf := wf_setVec _ j w
  beyond a outside := byteAt_setVec_other _ j w a (by unfold State.capV at below; omega)

section Operations

variable {s : State} (inv : s.Inv)
include inv

theorem inv_writeS (r : SReg) (v : Scalar) : (s.writeS r v).Inv := { inv with }

theorem inv_writeV (r : VReg) (w : Vec) : (s.writeV r w).Inv := { inv with }

theorem inv_drew (n : Nat) : (s.drew n).Inv := { inv with }

theorem inv_setStore {m : Memory} (follows : Follows s m) : (s.setStore m).Inv :=
  { inv with
    storeWf := follows.wf inv.storeWf
    storeInside := follows.inside inv.storeWf inv.storeInside }

theorem inv_newStore {c : Nat} {m : Memory} (bounded : c ≤ s.capMax.toNat) (aligned : c % 256 = 0)
    (canonical : Memory.wf m) (beyond : ∀ k, c ≤ k → Memory.bitAt m k = false) : (s.newStore c m).Inv := by
  have cap : (s.newStore c m).cap.toNat = c := Nat.mod_eq_of_lt (Nat.lt_of_le_of_lt bounded s.capMax.isLt)
  exact { inv with
    storeWf := canonical
    storeInside := cap.symm ▸ inside_of_bits_beyond canonical beyond
    capAligned := cap.symm ▸ aligned
    capBounded := cap.symm ▸ bounded }

/-- `pc` passes the command it stands on and stays in 32 bits (10_state.md R23). -/
theorem inv_advance (running : s.runState = .running) (below : s.pc.toNat < s.program.length) : s.advance.Inv :=
  { inv with
    pcBounded := by
      have short := inv.programShort
      rw [advance_pc, BitVec.toNat_add, BitVec.toNat_ofNat, advance_program]
      omega
    fpcInFault := fun faulted => nomatch running.symm.trans faulted }

theorem inv_raise {c : Cause} (recorded : c ≠ .none) (info : BitVec 64) : (s.raise c info).Inv :=
  { inv with
    causeIffFaulted := ⟨fun _ => rfl, fun _ => recorded⟩
    fpcInFault := fun _ => rfl
    noFaultZero := fun notFaulted => absurd rfl notFaulted }

/-- A change between the run states other than FAULTED keeps what the fault registers say. -/
theorem inv_runState (notFaulted : s.runState ≠ .faulted) {r : RunState} (notFaulted' : r ≠ .faulted) :
    State.Inv { s with runState := r } :=
  { inv with
    causeIffFaulted :=
      ⟨fun recorded => absurd (inv.causeIffFaulted.1 recorded) notFaulted, fun faulted => absurd faulted notFaulted'⟩
    fpcInFault := fun faulted => absurd faulted notFaulted'
    noFaultZero := fun _ => inv.noFaultZero notFaulted }

theorem inv_toReset : s.toReset.Inv := { inv_powerOn inv.capMaxAligned inv.programShort with }

theorem inv_toRunning (resting : s.runState = .idle ∨ s.runState = .halted) : s.toRunning.Inv := by
  have notFaulted : s.runState ≠ .faulted := by
    obtain h | h := resting <;> simp [h]
  exact { inv_runState inv notFaulted (r := .running) (by decide) with
    pcBounded := Nat.zero_le _
    fpcInFault := fun faulted => nomatch faulted }

theorem inv_setCommand (i : Nat) (w : CmdWord) : State.Inv { s with program := s.program.set i w } :=
  { inv with
    programShort := by rw [List.length_set]; exact inv.programShort
    pcBounded := by rw [List.length_set]; exact inv.pcBounded }

/-! ### The invariant under a step and under the host's operations -/

theorem inv_did (running : s.runState = .running) (below : s.pc.toNat < s.program.length) {i : Instr} {t : State}
    (did : Did i s t) : t.Inv := by
  cases did with
  | halted => exact inv_runState inv (by simp [running]) (by decide)
  | scalar rd v => exact inv_advance (inv_writeS inv rd v) running below
  | vector vd w => exact inv_advance (inv_writeV inv vd w) running below
  | store m _ follows => exact inv_advance (inv_setStore inv follows) running below
  | built rd c n m _ bounded aligned canonical beyond =>
    exact inv_advance (inv_writeS (inv_drew (inv_newStore inv bounded aligned canonical beyond) n) rd _) running below
  | fault c info _ listed => exact inv_raise inv (ne_of_mem_of_not_mem listed (none_notMem_causesOf i)) info

theorem inv_step {t : State} (stepped : step s = .next t) : t.Inv := by
  obtain ⟨t', stepped', ends⟩ := step_cases s
  obtain rfl : t = t' := Host.Outcome.next.inj (stepped.symm.trans stepped')
  obtain ⟨-, rfl⟩ | ⟨-, -, rfl⟩ | ⟨running, w, fetched, ⟨-, rfl⟩ | ⟨i, -, did⟩⟩ := ends
  · exact inv
  · exact inv_raise inv (by decide) _
  · exact inv_raise inv (by decide) _
  · exact inv_did inv running (List.getElem?_eq_some_iff.1 fetched).1 did

theorem inv_port {op : PortOp} {t : State} (answer : port op s = .next t) : t.Inv := by
  cases acted_of_port answer with
  | reset => exact inv_toReset inv
  | start resting => exact inv_toRunning inv resting
  | startIgnored => exact inv
  | writeS r v => exact inv_writeS inv r v
  | writeV r w => exact inv_writeV inv r w
  | writeM j w below => exact inv_setStore inv (follows_setVec below w)
  | writeCommand i w => exact inv_setCommand inv i w

end Operations

/-- Settles O59: from a state that meets the invariant, each end of a command, each fault of fetch and decode and each
operation of the host leads to one that meets it. -/
theorem stepKeepsTheInvariant : Obligations.StepKeepsTheInvariant := fun _ _ inv =>
  ⟨inv_step inv, fun _ => inv_port inv⟩

/-- Settles O60: the invariant holds at power-on and every move keeps it; a step always answers a next state. -/
theorem reachableStatesMeetTheInvariant : Obligations.ReachableStatesMeetTheInvariant := by
  intro s reachable
  have inv : s.Inv := by
    induction reachable with
    | powerOn c program short => exact inv_powerOn (toNat_append_zero_byte c) short
    | step _ stepped ih => exact inv_step ih stepped
    | port _ _ acted ih => exact inv_port ih acted
  obtain ⟨t, stepped, -⟩ := step_cases s
  exact ⟨inv, t, stepped⟩

end Sys2Proof.Proofs
end

section
/-! Steps and runs: a step runs the decoded command, how `pc` and `STATE` move (10_state.md R23, R26), every run ends, and
a run of legal words with a HALT never fails to fetch (40_control_scalar.md R114, 70_reset_and_hazards.md R242). -/

namespace Sys2Proof.Proofs

open Sys2Proof.Machine Sys2Proof.Laws

/-! ### One step -/

/-- Settles O7: in RUNNING the step is fetch, decode and execution. -/
theorem stepRunsTheDecodedCommand : Obligations.StepRunsTheDecodedCommand := by
  intro s w i running fetched decoded
  simp only [step, running, State.fetch, fetched, decoded]

/-- HALT makes no store. -/
theorem ne_halt_of_made {i : Instr} {rd : SReg} {n : Nat}
    (made : ∃ ra, (i = .sinit rd ra ∧ n = 0) ∨ i = .srand rd ra) : i ≠ .halt := by
  obtain ⟨ra, ⟨rfl, -⟩ | rfl⟩ := made
  · exact Instr.noConfusion
  · exact Instr.noConfusion

/-- Settles O10: each of the six ends of a command advances `pc`, or is that of HALT, or is fault entry. -/
theorem pcAdvancesByOne : Obligations.PcAdvancesByOne := by
  intro i s
  obtain ⟨t, answer, did⟩ := exec_did i s
  refine ⟨t, answer, ?_⟩
  cases did with
  | halted isHalt => exact .inr (.inl ⟨isHalt, rfl, rfl, rfl⟩)
  | fault c info notHalt listed => exact .inr (.inr ⟨notHalt, rfl, listed, rfl⟩)
  | built rd c n m made =>
    exact .inl ⟨ne_halt_of_made made, rfl, rfl, rfl⟩
  | scalar _ _ notHalt | vector _ _ notHalt | store _ notHalt => exact .inl ⟨notHalt, rfl, rfl, rfl⟩

/-- A command that did not complete ended the run; one that completed left the command memory as it was. -/
theorem did_ended_or_advanced {i : Instr} {s t : State} (did : Did i s t) :
    t.ended ∨ (t.runState = s.runState ∧ t.pc = s.pc + 1#32 ∧ t.program = s.program) := by
  cases did with
  | halted => exact .inl (.inl rfl)
  | fault => exact .inl (.inr rfl)
  | scalar | vector | store | built => exact .inr ⟨rfl, rfl, rfl⟩

/-- `pc` of a command inside a command memory of legal size advances without a wrap (00_scope.md R5). -/
theorem toNat_pc_succ {s : State} (short : s.program.length < 2 ^ 32) (below : s.pc.toNat < s.program.length) :
    (s.pc + 1#32).toNat = s.pc.toNat + 1 := by
  rw [BitVec.toNat_add, BitVec.toNat_ofNat]
  omega

/-! ### Every run ends (40_control_scalar.md R114) -/

theorem not_running_of_ended {s : State} (ended : s.ended) : s.runState ≠ .running := by
  intro running
  obtain halted | faulted := ended
  · exact nomatch running.symm.trans halted
  · exact nomatch running.symm.trans faulted

/-- One step from RUNNING ends the run, or is a command below `PLEN` that advanced. -/
theorem step_ended_or_advanced {s : State} (running : s.runState = .running) : ∃ t, step s = .next t ∧
    (t.ended ∨ (s.pc.toNat < s.program.length ∧ t.runState = .running ∧ t.pc = s.pc + 1#32 ∧ t.program = s.program)) := by
  obtain ⟨t, stepped, ends⟩ := step_cases s
  refine ⟨t, stepped, ?_⟩
  obtain ⟨resting, -⟩ | ⟨-, -, rfl⟩ | ⟨-, w, fetched, ⟨-, rfl⟩ | ⟨i, -, did⟩⟩ := ends
  · exact absurd running resting
  · exact .inl (.inr rfl)
  · exact .inl (.inr rfl)
  · refine (did_ended_or_advanced did).imp_right fun ⟨runState, pc, program⟩ => ?_
    exact ⟨(List.getElem?_eq_some_iff.1 fetched).1, runState.trans running, pc, program⟩

/-- A run from `n` commands or fewer before `PLEN` ends in `n + 1` steps: `pc` only advances, and at `PLEN` the fetch
faults. -/
theorem run_ends {n : Nat} {s : State} (running : s.runState = .running) (short : s.program.length < 2 ^ 32)
    (near : s.program.length ≤ s.pc.toNat + n) : ∃ t, Host.Core.run core (n + 1) s = .next t ∧ t.ended := by
  induction n generalizing s with
  | zero =>
    obtain ⟨t, stepped, ended | ⟨below, -⟩⟩ := step_ended_or_advanced running
    · exact ⟨t, run_next core 0 s t stepped, ended⟩
    · omega
  | succ n ih =>
    obtain ⟨t, stepped, ended | ⟨below, running', pc, program⟩⟩ := step_ended_or_advanced running
    · exact ⟨t, (run_next core (n + 1) s t stepped).trans (run_rest (n + 1) t (not_running_of_ended ended)), ended⟩
    · have advanced := toNat_pc_succ short below
      obtain ⟨u, run, ended⟩ := ih running' (program ▸ short) (by rw [program, pc, advanced]; omega)
      exact ⟨u, (run_next core (n + 1) s t stepped).trans run, ended⟩

/-- Settles O11: wherever `pc` stands, it is at most `PLEN` commands before the end. -/
theorem everyRunEnds : Obligations.EveryRunEnds := fun _ running short =>
  run_ends running short (Nat.le_add_left _ _)

/-! ### Legal words with a HALT fetch safely (30_encoding.md R88, 60_exceptions.md R218) -/

/-- What every step keeps, every run keeps. -/
theorem run_keeps {P : State → Prop} (kept : ∀ s, P s → ∃ t, step s = .next t ∧ P t) (n : Nat) {s : State} (holds : P s) :
    ∃ t, Host.Core.run core n s = .next t ∧ P t := by
  induction n generalizing s with
  | zero => exact ⟨s, rfl, holds⟩
  | succ n ih =>
    obtain ⟨t, stepped, holds'⟩ := kept s holds
    obtain ⟨u, run, holds''⟩ := ih holds'
    exact ⟨u, (run_next core n s t stepped).trans run, holds''⟩

/-- The run has failed neither to fetch nor to decode, and while it goes on it is in a command memory of legal words and
has not passed the HALT at index `last`. -/
structure FetchesSafely (last : Nat) (s : State) : Prop where
  notIllegal : s.cause ≠ .illegalCommand
  notPastEnd : s.cause ≠ .fetchRange
  before : s.runState = .running →
    s.pc.toNat ≤ last ∧ s.program[last]? = some WellFormed.haltWord ∧ s.program.length < 2 ^ 32 ∧
      ∀ w ∈ s.program, WellFormed.word w = true

theorem decode_haltWord : decode WellFormed.haltWord = .ok .halt := by decide

/-- A command that is HALT exactly at the last HALT, if not before it, keeps the run from passing it. -/
theorem fetchesSafely_did {last : Nat} {i : Instr} {s t : State} (safe : FetchesSafely last s)
    (running : s.runState = .running) (atLast : s.pc.toNat = last → i = .halt) (did : Did i s t) :
    FetchesSafely last t := by
  obtain ⟨notIllegal, notPastEnd, before⟩ := safe
  obtain ⟨le, halt, short, legal⟩ := before running
  have below : s.pc.toNat < s.program.length := Nat.lt_of_le_of_lt le (List.getElem?_eq_some_iff.1 halt).1
  have advanced : i ≠ .halt → (s.pc + 1#32).toNat ≤ last := fun notHalt => by
    rw [toNat_pc_succ short below]
    have := mt atLast notHalt
    omega
  cases did with
  | halted => exact ⟨notIllegal, notPastEnd, fun running' => nomatch running'⟩
  | fault c info _ listed =>
    obtain ⟨illegal, pastEnd⟩ := fetch_notMem_causesOf i
    exact ⟨ne_of_mem_of_not_mem listed illegal, ne_of_mem_of_not_mem listed pastEnd, fun running' => nomatch running'⟩
  | scalar _ _ notHalt | vector _ _ notHalt | store _ notHalt =>
    exact ⟨notIllegal, notPastEnd, fun _ => ⟨advanced notHalt, halt, short, legal⟩⟩
  | built rd c n m made =>
    exact ⟨notIllegal, notPastEnd, fun _ => ⟨advanced (ne_halt_of_made made), halt, short, legal⟩⟩

theorem fetchesSafely_step {last : Nat} (s : State) (safe : FetchesSafely last s) :
    ∃ t, step s = .next t ∧ FetchesSafely last t := by
  obtain ⟨t, stepped, ends⟩ := step_cases s
  refine ⟨t, stepped, ?_⟩
  obtain ⟨-, rfl⟩ | ⟨running, past, -⟩ | ⟨running, w, fetched, illegal | ⟨i, decoded, did⟩⟩ := ends
  · exact safe
  · obtain ⟨le, halt, -⟩ := safe.before running
    exact absurd (List.getElem?_eq_some_iff.1 halt).1 (Nat.not_lt.2 (Nat.le_trans past le))
  · obtain ⟨⟨e, rejected⟩, -⟩ := illegal
    obtain ⟨-, -, -, legal⟩ := safe.before running
    obtain ⟨i, decoded⟩ := (decode_ok_iff_word w).2 (legal w (List.mem_of_getElem? fetched))
    exact nomatch rejected.symm.trans decoded
  · refine fetchesSafely_did safe running (fun atLast => ?_) did
    obtain ⟨-, halt, -⟩ := safe.before running
    obtain rfl : w = WellFormed.haltWord := Option.some.inj (fetched.symm.trans (atLast ▸ halt))
    exact Except.ok.inj (decoded.symm.trans decode_haltWord)

/-- Settles O12: the run cannot pass the HALT without running it, and every word it fetches is legal. -/
theorem wellFormedProgramsFetchSafely : Obligations.WellFormedProgramsFetchSafely := by
  intro s n _ atZero noCause wellFormed
  simp only [WellFormed.program, Bool.and_eq_true, decide_eq_true_eq, List.all_eq_true, List.contains_iff_mem]
    at wellFormed
  obtain ⟨⟨short, legal⟩, halts⟩ := wellFormed
  obtain ⟨last, halt⟩ := List.mem_iff_getElem?.1 halts
  have safe : FetchesSafely last s :=
    ⟨by rw [noCause]; decide, by rw [noCause]; decide, fun _ => ⟨by simp [atZero], halt, short, legal⟩⟩
  obtain ⟨t, run, notIllegal, notPastEnd, -⟩ := run_keeps fetchesSafely_step n safe
  exact ⟨t, run, notIllegal, notPastEnd⟩

end Sys2Proof.Proofs
end

section
/-! What a command depends on: no fault depends on the store, the vector registers or the draws (60_exceptions.md R210),
and only SRAND depends on the draws (00_scope.md R9). Two runs of a command pass the same checks, so they end alike. -/

namespace Sys2Proof.Proofs

open Sys2Proof.Machine Sys2Proof.Laws

/-! ### Two runs of one command -/

/-- Both runs answer a next state, and the two states are related. -/
def EndRelated (R : State → State → Prop) (o o' : Host.Outcome State Fault Refusal) : Prop :=
  ∃ t t', o = .next t ∧ o' = .next t' ∧ R t t'

theorem EndRelated.next {R : State → State → Prop} {t t' : State} (related : R t t') :
    EndRelated R (.next t) (.next t') :=
  ⟨t, t', rfl, rfl, related⟩

/-- A check that both runs make alike leads them to related ends when both its branches do. -/
theorem EndRelated.check {R : State → State → Prop} {c : Prop} [Decidable c] {a a' b b' : Host.Outcome State Fault Refusal}
    (holds : EndRelated R a a') (fails : EndRelated R b b') :
    EndRelated R (if c then a else b) (if c then a' else b') := by
  split
  · exact holds
  · exact fails

/-! ### Faults (60_exceptions.md R210) -/

/-- The state with other contents of the store and of the vector registers and another count of draws. -/
def withContents (s : State) (m : Memory) (v : Vector Vec 16) (d : Nat) : State :=
  { s with store := m, vreg := v, draws := d }

/-- `STATE`, the fault registers and `pc` are the same. -/
def SameEnd (t t' : State) : Prop :=
  t'.runState = t.runState ∧ t'.cause = t.cause ∧ t'.finfo = t.finfo ∧ t'.fpc = t.fpc ∧ t'.pc = t.pc

section Ends

variable {s : State} {m : Memory} {v : Vector Vec 16} {d : Nat}

theorem sameEnd_halt : EndRelated SameEnd (.next s.halt) (.next (withContents s m v d).halt) :=
  .next ⟨rfl, rfl, rfl, rfl, rfl⟩

theorem sameEnd_scalar {rd : SReg} {x x' : Scalar} :
    EndRelated SameEnd (.next (s.writeS rd x).advance) (.next ((withContents s m v d).writeS rd x').advance) :=
  .next ⟨rfl, rfl, rfl, rfl, rfl⟩

theorem sameEnd_vector {vd : VReg} {w w' : Vec} :
    EndRelated SameEnd (.next (s.writeV vd w).advance) (.next ((withContents s m v d).writeV vd w').advance) :=
  .next ⟨rfl, rfl, rfl, rfl, rfl⟩

theorem sameEnd_store {x x' : Memory} :
    EndRelated SameEnd (.next (s.setStore x).advance) (.next ((withContents s m v d).setStore x').advance) :=
  .next ⟨rfl, rfl, rfl, rfl, rfl⟩

theorem sameEnd_built {c n : Nat} {x x' : Memory} {rd : SReg} {y : Scalar} :
    EndRelated SameEnd (.next (((s.newStore c x).drew n).writeS rd y).advance)
      (.next ((((withContents s m v d).newStore c x').drew n).writeS rd y).advance) :=
  .next ⟨rfl, rfl, rfl, rfl, rfl⟩

theorem sameEnd_fault {c : Cause} {info : BitVec 64} :
    EndRelated SameEnd (.next (s.raise c info)) (.next ((withContents s m v d).raise c info)) :=
  .next ⟨rfl, rfl, rfl, rfl, rfl⟩

end Ends

/-- The checks of a command read scalar registers, `CAP` and `CAPMAX` alone. -/
theorem exec_sameEnd (i : Instr) (s : State) (m : Memory) (v : Vector Vec 16) (d : Nat) :
    EndRelated SameEnd (exec i s) (exec i (withContents s m v d)) := by
  cases i with
  | halt => exact sameEnd_halt
  | li | lik | popsum => exact sameEnd_scalar
  | popc16 | mod4 => exact sameEnd_vector
  | ceil256 => exact .check sameEnd_fault sameEnd_scalar
  | sinit => exact .check sameEnd_fault (.next ⟨rfl, rfl, rfl, rfl, rfl⟩)
  | srand => exact .check sameEnd_fault sameEnd_built
  | getb | getw | anynz => exact .check sameEnd_scalar sameEnd_fault
  | vld => exact .check sameEnd_vector sameEnd_fault
  | setb | setw | vst | unpack | swapk | tblk => exact .check sameEnd_store sameEnd_fault
  | seq => exact .check sameEnd_fault (.check sameEnd_fault sameEnd_scalar)
  | pack => exact .check sameEnd_fault (.check sameEnd_fault sameEnd_vector)
  | swaps | tblks | tmat => exact .check sameEnd_fault (.check sameEnd_fault sameEnd_store)
  | xorm => exact .check sameEnd_fault (.check sameEnd_fault (.check sameEnd_fault sameEnd_store))
  | rblk ra rb =>
    have side : (withContents s m v d).readS rb = s.readS rb := rfl
    simp only [exec, execRblk, side]
    split
    · exact sameEnd_fault
    · exact .check sameEnd_store sameEnd_fault

/-- Settles O15: the two runs pass the same checks, so they complete, halt or fault alike. -/
theorem faultsIgnoreStoreAndVectors : Obligations.FaultsIgnoreStoreAndVectors := by
  intro i s t m v d answer
  obtain ⟨u, u', answer', answer'', same⟩ := exec_sameEnd i s m v d
  obtain rfl : t = u := Host.Outcome.next.inj (answer.symm.trans answer')
  exact ⟨u', answer'', same⟩

/-! ### Draws (00_scope.md R9) -/

/-- Where the RNG port stands decides nothing but where it stands afterwards. -/
theorem exec_withDraws (i : Instr) (s : State) (d : Nat) (notSrand : ∀ rd ra, i ≠ .srand rd ra) :
    EndRelated (fun t t' => t' = { t with draws := d }) (exec i s) (exec i { s with draws := d }) := by
  cases i with
  | srand rd ra => exact absurd rfl (notSrand rd ra)
  | halt | li | lik | popc16 | popsum | mod4 => exact .next rfl
  | ceil256 | sinit | getb | setb | getw | setw | vld | vst | unpack | anynz | swapk | tblk =>
    exact .check (.next rfl) (.next rfl)
  | seq | pack | swaps | tblks | tmat => exact .check (.next rfl) (.check (.next rfl) (.next rfl))
  | xorm => exact .check (.next rfl) (.check (.next rfl) (.check (.next rfl) (.next rfl)))
  | rblk ra rb =>
    have side : State.readS { s with draws := d } rb = s.readS rb := rfl
    simp only [exec, execRblk, side]
    split
    · exact .next rfl
    · exact .check (.next rfl) (.next rfl)

/-- Of the ends of a command only that of SRAND draws. -/
theorem draws_of_did {i : Instr} {s t : State} (notSrand : ∀ rd ra, i ≠ .srand rd ra) (did : Did i s t) :
    t.draws = s.draws := by
  cases did with
  | built rd c n m made =>
    obtain ⟨ra, ⟨-, rfl⟩ | srand⟩ := made
    · rfl
    · exact absurd srand (notSrand rd ra)
  | halted | scalar | vector | store | fault => rfl

/-- Settles O17: a command other than SRAND draws no word, and its checks and results do not look at the count. -/
theorem onlySrandDraws : Obligations.OnlySrandDraws := by
  intro i s t d notSrand answer
  obtain ⟨u, u', answer', answer'', rfl⟩ := exec_withDraws i s d notSrand
  obtain rfl : t = u := Host.Outcome.next.inj (answer.symm.trans answer')
  exact ⟨draws_of_did notSrand (did_of_exec answer), answer''⟩

end Sys2Proof.Proofs
end

section
/-! SRAND fills a new store from the RNG port (41_bitstore.md R121), and PACK and UNPACK undo each other (42_packing.md
R143). -/

namespace Sys2Proof.Proofs

open Sys2Proof.Machine Sys2Proof.Laws

/-! ### SRAND (41_bitstore.md R121) -/

theorem exec_srand (rd ra : SReg) (s : State) : exec (.srand rd ra) s =
    if s.capMax.toNat < ceil256 (s.readS ra).toNat then .next (s.raise .capacity (s.readS ra))
    else .next (((s.newStore (ceil256 (s.readS ra).toNat)
      (Memory.ofDraws s.draws (ceil256 (s.readS ra).toNat / 64))).drew (ceil256 (s.readS ra).toNat / 64)).writeS rd
      (BitVec.ofNat 64 (ceil256 (s.readS ra).toNat))).advance := rfl

/-- No bit beyond the granules drawn is one. -/
theorem bitAt_ofDraws_beyond (first n k : Nat) (beyond : 64 * n ≤ k) :
    Memory.bitAt (Memory.ofDraws first n) k = false := by
  rw [bitAt_ofDraws, decide_eq_false (Nat.not_lt.2 beyond), Bool.false_and]

/-- Settles O22: a capacity that `CAPMAX` admits fits 64 bits and is a whole number of granules, one word drawn for
each. -/
theorem srandFillsFromThePort : Obligations.SrandFillsFromThePort := by
  intro rd ra s
  have answer := exec_srand rd ra s
  refine ⟨decode_word_srand rd ra, fun (admitted : ceil256 (s.readS ra).toNat ≤ s.capMax.toNat) => ?_,
    fun (tooLarge : s.capMax.toNat < ceil256 (s.readS ra).toNat) => ?_⟩
  · have fits : ceil256 (s.readS ra).toNat < 2 ^ 64 := Nat.lt_of_le_of_lt admitted s.capMax.isLt
    have aligned := (ceil256_spec (s.readS ra).toNat).1
    rw [if_neg (Nat.not_lt.2 admitted)] at answer
    refine ⟨_, answer, builtStore_advance s rd _ _ _ fits
      fun k (beyond : ceil256 (s.readS ra).toNat ≤ k) => ?_,
      fun g (inside : 64 * g < ceil256 (s.readS ra).toNat) => ?_, rfl⟩
    · exact bitAt_ofDraws_beyond _ _ k (by omega)
    · exact granule_ofDraws s.draws _ g (by omega)
  · rw [if_pos tooLarge] at answer
    exact ⟨_, answer, tookFault_raise .capacity (s.readS ra) s⟩

/-! ### PACK and UNPACK together (42_packing.md R143) -/

theorem exec_pack_of_inside {vd : VReg} {ra rb : SReg} {s : State} (length : s.readS rb = 256#64)
    (inside : (s.readS ra).toNat + 8 ≤ s.cap.toNat / 256) :
    exec (.pack vd ra rb) s = .next (s.writeV vd (Memory.packed s.store (s.readS ra).toNat)).advance := by
  rw [exec_pack, if_neg (by simp [length]), if_neg (mt (not_hasRegion_iff s _ _).1 (Nat.not_lt.2 inside))]

theorem exec_unpack_of_inside {ra : SReg} {vb : VReg} {s : State}
    (inside : (s.readS ra).toNat + 8 ≤ s.cap.toNat / 256) :
    exec (.unpack ra vb) s = .next (s.setStore (Memory.unpacked s.store (s.readS ra).toNat (s.readV vb))).advance := by
  rw [exec_unpack, if_pos ((hasRegion_iff s _ _).2 inside)]

/-- Two commands that complete, one after the other. -/
theorem execAll_pair {i j : Instr} {s t u : State} (first : exec i s = .next t) (second : exec j t = .next u) :
    execAll [i, j] s = .next u := by
  simp only [execAll, first, second]

/-- Byte `i` of the unpacked sequence of a packed vector is the old byte made `0x00` or `0x01`. -/
theorem byteAt_unpacked_packed (m : Memory) (b c i : Nat) (hi : i < 256) :
    Memory.byteAt (Memory.unpacked m c (Memory.packed m b)) (32 * c + i) =
      if Memory.byteAt m (32 * b + i) ≠ 0#8 then 0x01#8 else 0x00#8 := by
  rw [byteAt_unpacked_inside _ _ _ _ hi, getLsbD_packed_eq_decide _ _ _ hi]
  simp only [decide_eq_true_eq]

theorem packed_unpacked (m : Memory) (b : Nat) (w : Vec) : Memory.packed (Memory.unpacked m b w) b = w :=
  BitVec.eq_of_getLsbD_eq fun i hi => by rw [getLsbD_packed _ _ _ hi, element_unpacked _ _ _ _ hi]

theorem execAll_pack_unpack {vd : VReg} {ra rb rc : SReg} {s : State} (length : s.readS rb = 256#64)
    (inside : (s.readS ra).toNat + 8 ≤ s.cap.toNat / 256) (inside' : (s.readS rc).toNat + 8 ≤ s.cap.toNat / 256) :
    execAll [.pack vd ra rb, .unpack rc vd] s =
      .next ((s.writeV vd (Memory.packed s.store (s.readS ra).toNat)).advance.setStore
        (Memory.unpacked s.store (s.readS rc).toNat (Memory.packed s.store (s.readS ra).toNat))).advance := by
  rw [execAll_pair (exec_pack_of_inside length inside) (exec_unpack_of_inside inside'), advance_readV, writeV_readV,
    if_pos rfl]
  rfl

theorem execAll_unpack_pack {vb vd : VReg} {ra rb : SReg} {s : State} (length : s.readS rb = 256#64)
    (inside : (s.readS ra).toNat + 8 ≤ s.cap.toNat / 256) :
    execAll [.unpack ra vb, .pack vd ra rb] s =
      .next ((s.setStore (Memory.unpacked s.store (s.readS ra).toNat (s.readV vb))).advance.writeV vd
        (s.readV vb)).advance := by
  have kept := packed_unpacked s.store (s.readS ra).toNat (s.readV vb)
  rw [execAll_pair (exec_unpack_of_inside inside) (exec_pack_of_inside length inside)]
  simp only [advance_store, setStore_store, advance_readS, setStore_readS, kept]

/-- Settles O33: both round trips go through a vector that holds one bit for each element. -/
theorem packUnpackRoundTrip : Obligations.PackUnpackRoundTrip := by
  refine ⟨fun vd ra rb rc s length inside inside' => ⟨_, execAll_pack_unpack length inside inside', fun i hi => ?_⟩,
    fun vb vd ra rb s length inside => ⟨_, execAll_unpack_pack length inside, by simp⟩⟩
  rw [advance_store, setStore_store, byteAt_unpacked_packed _ _ _ i hi]
  refine ⟨?_, ?_⟩
  · split
    next nonzero => exact ⟨fun _ => nonzero, fun _ => by decide⟩
    next zero => exact ⟨fun h => absurd rfl h, fun h => absurd h zero⟩
  · rintro (zero | one)
    · rw [zero, if_neg (not_not_intro rfl)]
    · rw [one, if_pos (by decide)]

end Sys2Proof.Proofs
end

section
/-! POPSUM as the sum of POPC16's lanes (43_lane_arithmetic.md R151), MOD4 on bit-planes (R153), and the laws of XORM
(R154). -/

namespace Sys2Proof.Proofs

open Sys2Proof.Machine Sys2Proof.Laws

/-! ### POPSUM (43_lane_arithmetic.md R151) -/

theorem exec_popsum (rd : SReg) (va : VReg) (s : State) :
    exec (.popsum rd va) s = .next (s.writeS rd (BitVec.ofNat 64 (popcount (s.readV va)))).advance := rfl

/-- Counting below `w * n` is counting in each of the `n` runs of `w`. -/
theorem length_filter_range_mul (p : Nat → Bool) (w n : Nat) : ((List.range (w * n)).filter p).length =
    ((List.range n).map fun j => ((List.range w).filter fun i => p (w * j + i)).length).sum := by
  induction n with
  | zero => rfl
  | succ n ih =>
    rw [Nat.mul_succ, List.range_add, List.filter_append, List.length_append, ih, List.range_succ, List.map_append,
      List.sum_append, List.filter_map, List.length_map, List.map_singleton, List.sum_singleton]
    rfl

/-- The set bits of a vector are those of its sixteen lanes, which POPC16 counts one by one. -/
theorem popcount_eq_sum_lanes (x : Vec) :
    popcount x = ((List.range 16).map fun j => (lane 16 (popcount16 x) j).toNat).sum := by
  have lanes : ∀ j ∈ List.range 16, ((List.range 16).filter fun i => x.getLsbD (16 * j + i)).length =
      (lane 16 (popcount16 x) j).toNat := fun j listed => by
    rw [toNat_lane_popcount16 x j (List.mem_range.1 listed), popcount_lane]
  calc popcount x
      = ((List.range 16).map fun j => ((List.range 16).filter fun i => x.getLsbD (16 * j + i)).length).sum :=
        length_filter_range_mul x.getLsbD 16 16
    _ = ((List.range 16).map fun j => (lane 16 (popcount16 x) j).toNat).sum := by rw [List.map_congr_left lanes]

/-- Settles O35: a count of at most 256 fits the register, and a vector's bits are its lanes' bits. -/
theorem totalPopulationCount : Obligations.TotalPopulationCount := by
  intro rd va s
  have fits : (BitVec.ofNat 64 (popcount (s.readV va))).toNat = popcount (s.readV va) :=
    Nat.mod_eq_of_lt (Nat.lt_of_le_of_lt (popcount_le _) (by decide))
  refine ⟨decode_word_popsum rd va, _, _, exec_popsum rd va s, wroteScalar_advance s rd _, fits, fun vd u answer => ?_⟩
  rw [exec_popc16] at answer
  cases answer
  rw [fits, popcount_eq_sum_lanes, advance_readV, writeV_readV, if_pos rfl]
  rfl

/-! ### MOD4 on bit-planes (43_lane_arithmetic.md R153) -/

/-- The low bits of the 128 lanes. -/
def lowPlane : Vec := 0x5555555555555555555555555555555555555555555555555555555555555555#256

/-- The low bits of the results: `d0` of 43_lane_arithmetic.md R153, where `low` has the low bits of the lanes. -/
def lowDigits {w : Nat} (low a b c : BitVec w) : BitVec w := (a &&& low) ^^^ (b &&& low) ^^^ (c &&& low)

/-- The high bits of the results, each at its lane's low bit: `d1` of 43_lane_arithmetic.md R153. -/
def highDigits {w : Nat} (low a b c : BitVec w) : BitVec w :=
  ((a >>> 1 &&& low) ^^^ (b >>> 1 &&& low) ^^^ ((a &&& low) &&& (b &&& low))) ^^^ (c >>> 1 &&& low) ^^^
    (~~~((a &&& low) ^^^ (b &&& low)) &&& low &&& (c &&& low))

theorem mod4Planes_eq (a b c : Vec) :
    mod4Planes a b c = lowDigits lowPlane a b c ||| highDigits lowPlane a b c <<< 1 := rfl

/-- In one lane the bit-planes compute the sum and difference of 2-bit values. -/
theorem digits_eq_add_sub (a b c : BitVec 2) : lowDigits 1#2 a b c ||| highDigits 1#2 a b c <<< 1 = a + b - c := by
  revert a b c; decide

theorem highDigits_high (a b c : BitVec 2) : (highDigits 1#2 a b c).getLsbD 1 = false := by
  revert a b c; decide

theorem lane_lowPlane (j : Nat) (hj : j < 128) : lane 2 lowPlane j = 1#2 := by
  revert j; decide

theorem lane_and (x y : Vec) (j : Nat) : lane 2 (x &&& y) j = lane 2 x j &&& lane 2 y j := BitVec.extractLsb'_and

theorem lane_xor (x y : Vec) (j : Nat) : lane 2 (x ^^^ y) j = lane 2 x j ^^^ lane 2 y j := BitVec.extractLsb'_xor

theorem lane_or (x y : Vec) (j : Nat) : lane 2 (x ||| y) j = lane 2 x j ||| lane 2 y j := BitVec.extractLsb'_or

theorem lane_not (x : Vec) (j : Nat) (hj : j < 128) : lane 2 (~~~x) j = ~~~(lane 2 x j) := by
  apply BitVec.eq_of_getLsbD_eq
  intro t ht
  have inside : 2 * j + t < 256 := by omega
  rw [BitVec.getLsbD_not, getLsbD_lane, getLsbD_lane, BitVec.getLsbD_not]
  simp [ht, inside]

/-- A lane of a plane of high bits holds the lane's high bit at its low bit. -/
theorem lane_highPlane (x : Vec) (j : Nat) (hj : j < 128) :
    lane 2 (x >>> 1 &&& lowPlane) j = lane 2 x j >>> 1 &&& 1#2 := by
  rw [lane_and, lane_lowPlane j hj]
  apply BitVec.eq_of_getLsbD_eq
  intro t ht
  obtain rfl | rfl : t = 0 ∨ t = 1 := by omega
  · simp only [BitVec.getLsbD_and, BitVec.getLsbD_ushiftRight, getLsbD_lane]
    simp [Nat.add_comm]
  · simp

/-- A shift by one keeps to the lanes when no lane has its high bit set. -/
theorem lane_shiftLeft_one (x : Vec) (high : ∀ i < 128, (lane 2 x i).getLsbD 1 = false) (j : Nat) (hj : j < 128) :
    lane 2 (x <<< 1) j = lane 2 x j <<< 1 := by
  apply BitVec.eq_of_getLsbD_eq
  intro t ht
  obtain rfl | rfl : t = 0 ∨ t = 1 := by omega
  · rw [getLsbD_lane, BitVec.getLsbD_shiftLeft, BitVec.getLsbD_shiftLeft]
    obtain rfl | positive := Nat.eq_zero_or_pos j
    · simp
    · have below := high (j - 1) (by omega)
      rw [getLsbD_lane, show 2 * (j - 1) + 1 = 2 * j + 0 - 1 by omega] at below
      simpa using fun _ _ => below
  · have inside : 2 * j + 1 < 256 := by omega
    rw [getLsbD_lane, BitVec.getLsbD_shiftLeft, BitVec.getLsbD_shiftLeft, getLsbD_lane]
    simp [inside]

section Planes

variable (a b c : Vec) (j : Nat) (hj : j < 128)
include hj

theorem lane_lowDigits :
    lane 2 (lowDigits lowPlane a b c) j = lowDigits 1#2 (lane 2 a j) (lane 2 b j) (lane 2 c j) := by
  simp only [lowDigits, lane_xor, lane_and, lane_lowPlane j hj]

theorem lane_highDigits :
    lane 2 (highDigits lowPlane a b c) j = highDigits 1#2 (lane 2 a j) (lane 2 b j) (lane 2 c j) := by
  simp only [highDigits, lane_xor, lane_highPlane _ j hj, lane_and, lane_not _ j hj, lane_lowPlane j hj]

theorem lane_mod4Planes : lane 2 (mod4Planes a b c) j = lane 2 a j + lane 2 b j - lane 2 c j := by
  have high : ∀ i < 128, (lane 2 (highDigits lowPlane a b c) i).getLsbD 1 = false := fun i hi => by
    rw [lane_highDigits a b c i hi, highDigits_high]
  rw [mod4Planes_eq, lane_or, lane_shiftLeft_one _ high j hj, lane_lowDigits a b c j hj, lane_highDigits a b c j hj,
    digits_eq_add_sub]

end Planes

/-- MOD4 and the bit-planes agree lane by lane. -/
theorem mod4Combine_eq_mod4Planes (a b c : Vec) : mod4Combine a b c = mod4Planes a b c :=
  vec_eq_of_lanes (w := 2) 128 (by decide) rfl _ _ fun j hj => by rw [lane_mod4Combine a b c j hj, lane_mod4Planes a b c j hj]

/-- Settles O37: in each lane the bit-planes are the 2-bit sum and difference, and no shift crosses a lane. -/
theorem moduloFourByBitPlanes : Obligations.ModuloFourByBitPlanes := fun vd va vb vc s =>
  ⟨_, exec_mod4 vd va vb vc s, by rw [advance_readV, writeV_readV, if_pos rfl, mod4Combine_eq_mod4Planes]⟩

/-! ### The laws of XORM (43_lane_arithmetic.md R154) -/

section Xorm

variable {ra rb rc : SReg} {s : State}

theorem exec_xorm_of_inside (destination : (s.readS ra).toNat + (s.readS rc).toNat ≤ s.cap.toNat / 256)
    (source : (s.readS rb).toNat + (s.readS rc).toNat ≤ s.cap.toNat / 256)
    (whole : ¬ partlyOverlap (s.readS ra).toNat (s.readS rb).toNat (s.readS rc).toNat = true) :
    exec (.xorm ra rb rc) s = .next (s.setStore
      (Memory.xorRegion s.store (s.readS ra).toNat (s.readS rb).toNat (s.readS rc).toNat)).advance := by
  rw [exec_xorm, if_neg (mt (not_hasRegion_iff s _ _).1 (Nat.not_lt.2 destination)),
    if_neg (mt (not_hasRegion_iff s _ _).1 (Nat.not_lt.2 source)), if_neg whole]

end Xorm

/-- Regions that share no vector do not overlap in part. -/
theorem not_partlyOverlap_of_separate {d e c : Nat} (separate : e + c ≤ d ∨ d + c ≤ e) :
    ¬ partlyOverlap d e c = true := by
  rw [partlyOverlap_iff]; omega

/-- A region and itself do not overlap in part. -/
theorem not_partlyOverlap_self (d c : Nat) : ¬ partlyOverlap d d c = true := by
  rw [partlyOverlap_iff]; omega

/-- The exclusive or with a separate region, made twice, cancels: the first leaves the source as it was. -/
theorem byteAt_xorRegion_twice (m : Memory) {d e c : Nat} (separate : e + c ≤ d ∨ d + c ≤ e) (a : Nat) :
    Memory.byteAt (Memory.xorRegion (Memory.xorRegion m d e c) d e c) a = Memory.byteAt m a := by
  by_cases inside : 32 * d ≤ a ∧ a < 32 * (d + c)
  · have source : ¬ (32 * d ≤ 32 * e + (a - 32 * d) ∧ 32 * e + (a - 32 * d) < 32 * (d + c)) := by omega
    rw [byteAt_xorRegion, if_pos inside, byteAt_xorRegion, if_pos inside, byteAt_xorRegion, if_neg source,
      BitVec.xor_assoc, BitVec.xor_self, BitVec.xor_zero]
  · rw [byteAt_xorRegion, if_neg inside, byteAt_xorRegion, if_neg inside]

/-- The exclusive or with a zero region changes nothing. -/
theorem byteAt_xorRegion_of_zero (m : Memory) {d e c : Nat} (zero : ∀ i < c, Memory.vec m (e + i) = 0#256) (a : Nat) :
    Memory.byteAt (Memory.xorRegion m d e c) a = Memory.byteAt m a := by
  rw [byteAt_xorRegion]
  split
  next inside =>
    have vector := zero (a / 32 - d) (by omega)
    rw [← vec_nil 0, vec_eq_iff_bytes] at vector
    have byte := vector (a % 32) (Nat.mod_lt a (by decide))
    rw [show 32 * (e + (a / 32 - d)) + a % 32 = 32 * e + (a - 32 * d) by omega] at byte
    rw [byte]
    exact BitVec.xor_zero
  · rfl

/-- Settles O39: separate regions and equal ones pass the check of partial overlap, and an exclusive or with the same
value cancels. -/
theorem xormLaws : Obligations.XormLaws := by
  intro ra rb rc s destination source
  refine ⟨fun separate => ?_, fun separate zero => ?_, fun same => ?_⟩
  · have whole := not_partlyOverlap_of_separate separate
    exact ⟨_, execAll_pair (exec_xorm_of_inside destination source whole)
      (exec_xorm_of_inside (s := (s.setStore _).advance) destination source whole), byteAt_xorRegion_twice s.store separate⟩
  · exact ⟨_, exec_xorm_of_inside destination source (not_partlyOverlap_of_separate separate),
      byteAt_xorRegion_of_zero s.store zero⟩
  · have whole : ¬ partlyOverlap (s.readS ra).toNat (s.readS rb).toNat (s.readS rc).toNat = true := by
      rw [← same]
      exact not_partlyOverlap_self _ _
    refine ⟨_, exec_xorm_of_inside destination source whole, fun i hi => ?_⟩
    rw [advance_store, setStore_store, ← same, vec_xorRegion_inside _ _ _ _ _ hi, BitVec.xor_self]

end Sys2Proof.Proofs
end

section
/-! The level-`k` permutation read by rows and columns (44_address_permutation.md R172), and SWAPS as masked shifts of pairs
of rows (R177). -/

namespace Sys2Proof.Proofs

open Sys2Proof.Machine Sys2Proof.Laws

/-! ### Rows and columns of the level-`k` permutation (44_address_permutation.md R172) -/

theorem testBit_row (p i : Nat) : (p / 256).testBit i = p.testBit (8 + i) := by
  rw [show (256 : Nat) = 2 ^ 8 from rfl, Nat.testBit_div_two_pow, Nat.add_comm]

theorem testBit_column (p i : Nat) (hi : i < 8) : (p % 256).testBit i = p.testBit i := by
  rw [show (256 : Nat) = 2 ^ 8 from rfl, Nat.testBit_mod_two_pow, decide_eq_true hi, Bool.true_and]

/-- The new row is the old row with bit `k` replaced by the column's. -/
theorem testBit_row_levelExchange (k : BitVec 3) (p i : Nat) : (levelExchange k.toNat p / 256).testBit i =
    (if i = k.toNat then p % 256 else p / 256).testBit i := by
  have hk := k.isLt
  rw [testBit_row, testBit_levelExchange, levelSwap, if_neg (by omega)]
  by_cases here : i = k.toNat
  · rw [if_pos (by omega), if_pos here, here, testBit_column p _ (by omega)]
  · rw [if_neg (by omega), if_neg here, testBit_row]

/-- The new column is the old column with bit `k` replaced by the row's. -/
theorem testBit_column_levelExchange (k : BitVec 3) (p i : Nat) (hi : i < 8) :
    (levelExchange k.toNat p % 256).testBit i = (if i = k.toNat then p / 256 else p % 256).testBit i := by
  rw [testBit_column _ i hi, testBit_levelExchange, levelSwap]
  by_cases here : i = k.toNat
  · rw [if_pos here, if_pos here, here, testBit_row]
  · rw [if_neg here, if_neg (by omega), if_neg here, testBit_column p i hi]

/-- Settles O41: the move of index bits is the closed form, which undoes itself and exchanges bit `k` of row and column. -/
theorem levelPermutationForm : Obligations.LevelPermutationForm := by
  intro level small p hp
  obtain ⟨k, rfl⟩ : ∃ k : BitVec 3, k.toNat = level := ⟨BitVec.ofNat 3 level, Nat.mod_eq_of_lt small⟩
  have form := permuted_levelSwap_eq_levelExchange k p hp
  refine ⟨form, permuted_levelSwap_lt _ small p, permuted_levelSwap_involutive _ small p hp, fun i hi => ?_⟩
  rw [form]
  exact ⟨testBit_row_levelExchange k p i, testBit_column_levelExchange k p i hi⟩

/-! ### Setting one bit of a row or column -/

section SetBit

variable {x k : Nat} (clear : x.testBit k = false)
include clear

/-- Adding `2^k` to a number whose bit `k` is zero sets that bit alone. -/
theorem testBit_add_two_pow (j : Nat) : (x + 2 ^ k).testBit j = (decide (j = k) || x.testBit j) := by
  obtain ⟨a, even⟩ : ∃ a, x / 2 ^ k = 2 * a := by
    rw [Nat.testBit_eq_decide_div_mod_eq, decide_eq_false_iff_not] at clear
    exact ⟨x / 2 ^ k / 2, by omega⟩
  have low : x % 2 ^ k < 2 ^ k := Nat.mod_lt _ (Nat.two_pow_pos k)
  have old : x = 2 ^ k * (2 * a) + x % 2 ^ k := by rw [← even, Nat.div_add_mod]
  have new : x + 2 ^ k = 2 ^ k * (2 * a + 1) + x % 2 ^ k := by rw [Nat.mul_add_one]; omega
  rw [new, Nat.testBit_two_pow_mul_add _ low]
  conv => rhs; rw [old, Nat.testBit_two_pow_mul_add _ low]
  by_cases below : j < k
  · simp [below, Nat.ne_of_lt below]
  · rw [if_neg below, if_neg below]
    obtain ⟨d, rfl⟩ := Nat.exists_eq_add_of_le (Nat.le_of_not_lt below)
    rw [Nat.add_sub_cancel_left]
    cases d with
    | zero => simp
    | succ d =>
      have half : (2 * a + 1) / 2 = 2 * a / 2 := by omega
      rw [Nat.testBit_add_one, half, ← Nat.testBit_add_one]
      simp

theorem add_two_pow_lt (hk : k < 8) (hx : x < 256) : x + 2 ^ k < 256 := by
  apply Nat.lt_pow_two_of_testBit (n := 8)
  intro j hj
  have high : x.testBit j = false := Nat.testBit_lt_two_pow (Nat.lt_of_lt_of_le hx (Nat.pow_le_pow_right (n := 2) (by decide) hj))
  rw [testBit_add_two_pow clear, high, decide_eq_false (by omega), Bool.false_or]

end SetBit

/-- A number whose bit `k` is one is `2^k` more than one whose bit `k` is zero. -/
theorem exists_eq_add_two_pow {x k : Nat} (set : x.testBit k = true) : ∃ y, x = y + 2 ^ k ∧ y.testBit k = false := by
  obtain ⟨y, rfl⟩ := Nat.exists_eq_add_of_le (Nat.ge_two_pow_of_testBit set)
  rw [Nat.testBit_two_pow_add_eq, Bool.not_eq_true'] at set
  exact ⟨y, Nat.add_comm _ _, set⟩

/-! ### SWAPS as masked shifts (44_address_permutation.md R177) -/

theorem getLsbD_levelMask (k c : Nat) (hc : c < 256) : (levelMask k).getLsbD c = c.testBit k := by
  rw [levelMask, getLsbD_ofParts (by omega) _ 256 256 c rfl]
  simp [hc, Nat.mod_one]

/-- The bits of a position are its column's, then its row's. -/
theorem testBit_position (r : Nat) {c : Nat} (hc : c < 256) (j : Nat) :
    (256 * r + c).testBit j = if j < 8 then c.testBit j else r.testBit (j - 8) :=
  Nat.testBit_two_pow_mul_add (i := 8) r hc j

section Pairs

variable {r c : Nat} (k : BitVec 3) (hc : c < 256)
include hc

/-- A bit whose row and column agree at bit `k` stays. -/
theorem levelExchange_fixed (agree : r.testBit k.toNat = c.testBit k.toNat) :
    levelExchange k.toNat (256 * r + c) = 256 * r + c := by
  have hk : k.toNat < 8 := k.isLt
  refine if_pos ?_
  rw [testBit_position r hc, testBit_position r hc, if_pos hk, if_neg (by omega), Nat.add_sub_cancel_left, agree]

variable (row : r.testBit k.toNat = false) (column : c.testBit k.toNat = false)
include row column

/-- A bit of the upper row whose column has bit `k` set goes to the lower row, `2^k` columns down. -/
theorem levelExchange_upper :
    levelExchange k.toNat (256 * r + (c + 2 ^ k.toNat)) = 256 * (r + 2 ^ k.toNat) + c := by
  have hk : k.toNat < 8 := k.isLt
  apply Nat.eq_of_testBit_eq
  intro j
  rw [testBit_levelExchange, testBit_position r (add_two_pow_lt column hk hc), testBit_position _ hc,
    testBit_add_two_pow row, testBit_add_two_pow column, levelSwap]
  by_cases low : j = k.toNat
  · simp [low, hk, row, column]
  by_cases high : j = 8 + k.toNat
  · simp [high, hk]
  · have otherRow : ¬ j < 8 → j - 8 ≠ k.toNat := by omega
    rw [if_neg low, if_neg high]
    by_cases inColumn : j < 8
    · simp [inColumn, low]
    · simp [inColumn, otherRow inColumn]

/-- A bit of the lower row whose column has bit `k` clear goes to the upper row, `2^k` columns up. -/
theorem levelExchange_lower :
    levelExchange k.toNat (256 * (r + 2 ^ k.toNat) + c) = 256 * r + (c + 2 ^ k.toNat) := by
  rw [← levelExchange_upper k hc row column, levelExchange_involutive]

end Pairs

section Rows

variable {base pitch r : Nat} (positive : 0 < pitch) (m : Memory) (k : BitVec 3) (hr : r < 256)
  (row : r.testBit k.toNat = false)
include positive hr

/-- A bit of a row after the exchange is the old bit at its place under the exchange. -/
theorem getLsbD_vec_levelled {c : Nat} (hc : c < 256) :
    (Memory.vec (levelled base pitch m k) (base + r * pitch)).getLsbD c =
      Memory.bitAt m (blockPosition base pitch (levelExchange k.toNat (256 * r + c))) := by
  rw [getLsbD_vec_of_row_column _ _ _ r c hc, bitAt_levelled positive m k _ (by omega)]

include row

/-- The upper row of a pair keeps the columns whose bit `k` is 0 and takes the others from the lower row. -/
theorem vec_levelled_upper : Memory.vec (levelled base pitch m k) (base + r * pitch) =
    (Memory.vec m (base + r * pitch) &&& ~~~(levelMask k.toNat)) |||
      ((Memory.vec m (base + (r + 2 ^ k.toNat) * pitch) <<< 2 ^ k.toNat) &&& levelMask k.toNat) := by
  apply BitVec.eq_of_getLsbD_eq
  intro c hc
  rw [getLsbD_vec_levelled positive m k hr hc]
  simp only [BitVec.getLsbD_or, BitVec.getLsbD_and, BitVec.getLsbD_not, BitVec.getLsbD_shiftLeft,
    getLsbD_levelMask _ c hc, hc, decide_true, Bool.true_and]
  cases column : c.testBit k.toNat
  · rw [levelExchange_fixed k hc (row.trans column.symm), ← getLsbD_vec_of_row_column _ _ _ r c hc]
    simp
  · obtain ⟨d, rfl, clear⟩ := exists_eq_add_two_pow column
    have hd : d < 256 := Nat.lt_of_le_of_lt (Nat.le_add_right d _) hc
    rw [levelExchange_upper k hd row clear, ← getLsbD_vec_of_row_column _ _ _ _ d hd]
    simp

/-- The lower row of a pair keeps the columns whose bit `k` is 1 and takes the others from the upper row. -/
theorem vec_levelled_lower : Memory.vec (levelled base pitch m k) (base + (r + 2 ^ k.toNat) * pitch) =
    (Memory.vec m (base + (r + 2 ^ k.toNat) * pitch) &&& levelMask k.toNat) |||
      ((Memory.vec m (base + r * pitch) >>> 2 ^ k.toNat) &&& ~~~(levelMask k.toNat)) := by
  have hr' := add_two_pow_lt row k.isLt hr
  have row' : (r + 2 ^ k.toNat).testBit k.toNat = true := by simp [testBit_add_two_pow row]
  apply BitVec.eq_of_getLsbD_eq
  intro c hc
  rw [getLsbD_vec_levelled positive m k hr' hc]
  simp only [BitVec.getLsbD_or, BitVec.getLsbD_and, BitVec.getLsbD_not, BitVec.getLsbD_ushiftRight,
    getLsbD_levelMask _ c hc, hc, decide_true, Bool.true_and]
  cases column : c.testBit k.toNat
  · rw [levelExchange_lower k hc row column, Nat.add_comm (2 ^ k.toNat) c,
      ← getLsbD_vec_of_row_column _ _ _ r _ (add_two_pow_lt column k.isLt hc)]
    simp
  · rw [levelExchange_fixed k hc (row'.trans column.symm), ← getLsbD_vec_of_row_column _ _ _ _ c hc]
    simp

end Rows

/-- Settles O45: of the four corners that a pair of rows has at bit `k` of the column, two stay and two change places. -/
theorem swapByRegisterOperations : Obligations.SwapByRegisterOperations := by
  intro ra rb k s nonzero inside
  have positive := toNat_pos_of_ne_zero nonzero
  exact ⟨_, exec_swaps_of_inside nonzero inside k, fun r hr row =>
    ⟨vec_levelled_upper positive s.store k hr row, vec_levelled_lower positive s.store k hr row⟩⟩

end Sys2Proof.Proofs
end

section
/-! The two-phase transpose (45_transpose.md R194): where each TBLKS and the RBLK take the bits of a matrix of blocks, the law
with the RBLK first or last, and the counterexample to the law with the RBLK anywhere (log 11). -/

namespace Sys2Proof.Proofs

open Sys2Proof.Machine Sys2Proof.Laws

/-! ### The bits of a matrix of blocks -/

/-- The store bit at row `i`, column `c` of block `(br, bc)` of a matrix of `side` by `side` blocks at vector `base`. -/
def entryAt (base side br bc i c : Nat) : Nat := 256 * (base + ((256 * br + i) * side + bc)) + c

/-- The matrix of `side` by `side` blocks is `256 * side * side` vectors (45_transpose.md R192). -/
theorem vectors_of_side (side : Nat) : 256 * side * (256 * side) = 256 * (256 * side * side) := by ring

/-- Row `i` of block row `br` is row `256 * br + i` of the matrix, and so for the columns (45_transpose.md R193). -/
theorem entryAt_eq_element (base side br bc i c : Nat) :
    entryAt base side br bc i c = 256 * base + ((256 * br + i) * (256 * side) + (256 * bc + c)) := by
  unfold entryAt; ring

/-- Bit `x` is in the matrix of `side` by `side` blocks at vector `base`. -/
def InMatrix (base side x : Nat) : Prop := base ≤ x / 256 ∧ x / 256 < base + 256 * side * side

theorem exists_entryAt {base side x : Nat} (inside : InMatrix base side x) :
    ∃ br < side, ∃ bc < side, ∃ i < 256, ∃ c < 256, x = entryAt base side br bc i c := by
  obtain ⟨bc, hbc, br, hbr, rest⟩ := exchange_position base side x inside
  exact ⟨br, hbr, bc, hbc, rest⟩

/-- A bit of the matrix is in one block. -/
theorem block_eq_of_entryAt_eq {base side br bc i c br' bc' i' c' : Nat} (hbc : bc < side) (hi : i < 256) (hc : c < 256)
    (hbc' : bc' < side) (hi' : i' < 256) (hc' : c' < 256)
    (same : entryAt base side br bc i c = entryAt base side br' bc' i' c') : br = br' ∧ bc = bc' := by
  have positive : 0 < side := by omega
  have vector : side * (256 * br + i) + bc = side * (256 * br' + i') + bc' := by
    unfold entryAt at same
    rw [Nat.mul_comm side, Nat.mul_comm side]
    omega
  have row := congrArg (· / side) vector
  have block := congrArg (· % side) vector
  simp only [Nat.mul_add_div positive, Nat.mul_add_mod, Nat.div_eq_of_lt hbc, Nat.div_eq_of_lt hbc',
    Nat.mod_eq_of_lt hbc, Nat.mod_eq_of_lt hbc'] at row block
  exact ⟨by omega, block⟩

section Entries

variable {base side br bc i c : Nat} (hbr : br < side) (hbc : bc < side) (hi : i < 256) (hc : c < 256)
include hbr hbc hi hc

theorem inMatrix_entryAt : InMatrix base side (entryAt base side br bc i c) := by
  have last : (256 * br + i + 1) * side ≤ 256 * side * side := Nat.mul_le_mul_right _ (by omega)
  rw [Nat.add_mul _ 1, Nat.one_mul] at last
  unfold InMatrix entryAt
  omega

/-- TMAT exchanges the blocks and, in each, row and column. -/
theorem matrixMove_entryAt :
    matrixMove base (256 * side) (entryAt base side br bc i c) = entryAt base side bc br c i := by
  rw [entryAt_eq_element, matrixMove_inside _ _ _ _ (by omega) (by omega), ← entryAt_eq_element]

end Entries

theorem matrixMove_of_not_inMatrix {base side x : Nat} (outside : ¬ InMatrix base side x) :
    matrixMove base (256 * side) x = x := by
  refine matrixMove_outside _ _ _ fun h => outside ?_
  rw [vectors_of_side] at h
  unfold InMatrix
  omega

/-! ### Where the phases take a bit -/

/-- Where a phase takes bit `x` of the store. -/
def phaseMove (base side : Nat) : Phase → Nat → Nat
  | .block br bc => blockMove (base + 256 * br * side + bc) side transposed
  | .exchange => blockExchange base side

/-- Where the phases of a list, one after the other, take bit `x` of the store. -/
def phasesMove (base side : Nat) (ps : List Phase) (x : Nat) : Nat := ps.foldl (fun y p => phaseMove base side p y) x

theorem phasesMove_cons (base side : Nat) (p : Phase) (ps : List Phase) (x : Nat) :
    phasesMove base side (p :: ps) x = phasesMove base side ps (phaseMove base side p x) := rfl

theorem phasesMove_append (base side : Nat) (ps qs : List Phase) (x : Nat) :
    phasesMove base side (ps ++ qs) x = phasesMove base side qs (phasesMove base side ps x) := List.foldl_append

theorem mem_blockPhases {side : Nat} {p : Phase} :
    p ∈ blockPhases side ↔ ∃ br < side, ∃ bc < side, p = .block br bc := by
  simp [blockPhases, eq_comm]

theorem nodup_blockPhases (side : Nat) : (blockPhases side).Nodup := by
  have product : blockPhases side = (List.range side ×ˢ List.range side).map fun b => Phase.block b.1 b.2 := by
    simp [blockPhases, SProd.sprod, List.product, List.map_flatMap, Function.comp_def]
  rw [product]
  refine List.Nodup.map (fun b b' same => ?_) (List.nodup_range.product List.nodup_range)
  obtain ⟨row, column⟩ := Phase.block.inj same
  exact Prod.ext row column

/-- A phase of a matrix of `side` by `side` blocks. -/
def IsPhase (side : Nat) (p : Phase) : Prop := p ∈ blockPhases side ∨ p = .exchange

/-- The bit at row `r`, column `c` of the block that a TBLKS is given. -/
theorem blockPhase_position (base side br bc r c : Nat) :
    256 * (base + 256 * br * side + bc + r * side) + c = entryAt base side br bc r c := by
  unfold entryAt; ring

/-- No phase moves a bit outside the matrix. -/
theorem phaseMove_of_not_inMatrix {base side x : Nat} (outside : ¬ InMatrix base side x) {p : Phase}
    (phase : IsPhase side p) : phaseMove base side p x = x := by
  obtain listed | rfl := phase
  · obtain ⟨br, hbr, bc, hbc, rfl⟩ := mem_blockPhases.1 listed
    refine blockMove_outside _ side (by omega) _ x ?_
    rintro ⟨r, hr, c, hc, rfl⟩
    rw [blockPhase_position] at outside
    exact outside (inMatrix_entryAt hbr hbc hr hc)
  · exact blockExchange_outside base side x outside

theorem phasesMove_of_not_inMatrix {base side x : Nat} (outside : ¬ InMatrix base side x) {ps : List Phase}
    (phases : ∀ p ∈ ps, IsPhase side p) : phasesMove base side ps x = x := by
  induction ps with
  | nil => rfl
  | cons p ps ih =>
    obtain ⟨phase, phases⟩ := List.forall_mem_cons.1 phases
    rw [phasesMove_cons, phaseMove_of_not_inMatrix outside phase, ih phases]

/-- The RBLK takes the bit to its place in the mirrored block. -/
theorem phaseMove_exchange {base side br bc i c : Nat} (hbr : br < side) (hbc : bc < side) (hi : i < 256) (hc : c < 256) :
    phaseMove base side .exchange (entryAt base side br bc i c) = entryAt base side bc br i c :=
  blockExchange_inside base side bc br i c hbc hbr hi hc

section EntryMoves

variable {base side br bc i c : Nat} (hbc : bc < side) (hi : i < 256) (hc : c < 256)
include hbc hi hc

/-- The TBLKS of a bit's own block exchanges the bit's row and column. -/
theorem phaseMove_own_block :
    phaseMove base side (.block br bc) (entryAt base side br bc i c) = entryAt base side br bc c i := by
  rw [← blockPhase_position, ← blockPhase_position, phaseMove, blockMove_inside _ _ (by omega) _ _ _ hi hc,
    transposed_row_column i c hc, show (256 * c + i) / 256 = c by omega, show (256 * c + i) % 256 = i by omega]

/-- The TBLKS of another block does not move the bit. -/
theorem phaseMove_other_block {br' bc' : Nat} (hbc' : bc' < side) (other : Phase.block br' bc' ≠ .block br bc) :
    phaseMove base side (.block br' bc') (entryAt base side br bc i c) = entryAt base side br bc i c := by
  refine blockMove_outside _ side (by omega) _ _ ?_
  rintro ⟨r, hr, c', hc', same⟩
  rw [blockPhase_position] at same
  obtain ⟨rfl, rfl⟩ := block_eq_of_entryAt_eq hbc hi hc hbc' hr hc' same
  exact other rfl

/-- Of the TBLKS of distinct blocks, in any order, the one of the bit's own block moves it. -/
theorem phasesMove_blocks {ps : List Phase} (blocks : ∀ p ∈ ps, p ∈ blockPhases side) (distinct : ps.Nodup) :
    phasesMove base side ps (entryAt base side br bc i c) =
      if .block br bc ∈ ps then entryAt base side br bc c i else entryAt base side br bc i c := by
  induction ps generalizing i c with
  | nil => rfl
  | cons p ps ih =>
    obtain ⟨block, later⟩ := List.forall_mem_cons.1 blocks
    obtain ⟨absent, distinctLater⟩ := List.nodup_cons.1 distinct
    obtain ⟨br', -, bc', hbc', rfl⟩ := mem_blockPhases.1 block
    rw [phasesMove_cons]
    by_cases own : Phase.block br' bc' = .block br bc
    · rw [own] at absent ⊢
      rw [phaseMove_own_block hbc hi hc, ih hc hi later distinctLater, if_neg absent, if_pos List.mem_cons_self]
    · rw [phaseMove_other_block hbc hi hc hbc' own, ih hi hc later distinctLater]
      simp only [List.mem_cons, Ne.symm own, false_or]

end EntryMoves

/-- The TBLKS of every block, in any order, exchange row and column of every bit in its block. -/
theorem phasesMove_order {base side br bc i c : Nat} (hbr : br < side) (hbc : bc < side) (hi : i < 256) (hc : c < 256)
    {order : List Phase} (perm : order.Perm (blockPhases side)) :
    phasesMove base side order (entryAt base side br bc i c) = entryAt base side br bc c i := by
  have listed : Phase.block br bc ∈ order := perm.mem_iff.2 (mem_blockPhases.2 ⟨br, hbr, bc, hbc, rfl⟩)
  rw [phasesMove_blocks hbc hi hc (fun p => perm.mem_iff.1) (perm.nodup_iff.2 (nodup_blockPhases side)), if_pos listed]

section Order

variable {side : Nat} {order : List Phase} (perm : order.Perm (blockPhases side)) (base : Nat)
include perm

theorem isPhase_of_mem_order : ∀ p ∈ order, IsPhase side p := fun _ listed => .inl (perm.mem_iff.1 listed)

/-- The block transposes, then the exchange of blocks, are the transpose of the matrix. -/
theorem phasesMove_exchange_last : phasesMove base side (order ++ [.exchange]) = matrixMove base (256 * side) := by
  funext x
  rw [phasesMove_append, phasesMove_cons]
  by_cases inside : InMatrix base side x
  · obtain ⟨br, hbr, bc, hbc, i, hi, c, hc, rfl⟩ := exists_entryAt inside
    rw [phasesMove_order hbr hbc hi hc perm, phaseMove_exchange hbr hbc hc hi, matrixMove_entryAt hbr hbc hi hc]
    rfl
  · rw [phasesMove_of_not_inMatrix inside (isPhase_of_mem_order perm), phaseMove_of_not_inMatrix inside (.inr rfl),
      matrixMove_of_not_inMatrix inside]
    rfl

/-- The exchange of blocks, then the block transposes, are the transpose of the matrix. -/
theorem phasesMove_exchange_first : phasesMove base side (.exchange :: order) = matrixMove base (256 * side) := by
  funext x
  rw [phasesMove_cons]
  by_cases inside : InMatrix base side x
  · obtain ⟨br, hbr, bc, hbc, i, hi, c, hc, rfl⟩ := exists_entryAt inside
    rw [phaseMove_exchange hbr hbc hi hc, phasesMove_order hbc hbr hi hc perm, matrixMove_entryAt hbr hbc hi hc]
  · rw [phaseMove_of_not_inMatrix inside (.inr rfl), phasesMove_of_not_inMatrix inside (isPhase_of_mem_order perm),
      matrixMove_of_not_inMatrix inside]

end Order

/-! ### What the phases and TMAT answer -/

/-- The state in which the operands `a` and `b` are placed in `s0` and `s1`. -/
def placed (s : State) (a b : Nat) : State := (s.writeS ⟨0#4⟩ (BitVec.ofNat 64 a)).writeS ⟨1#4⟩ (BitVec.ofNat 64 b)

theorem placed_first (s : State) {a : Nat} (fits : a < 2 ^ 64) (b : Nat) : ((placed s a b).readS ⟨0#4⟩).toNat = a := by
  simpa [placed] using fits

theorem placed_second (s : State) (a : Nat) {b : Nat} (fits : b < 2 ^ 64) : ((placed s a b).readS ⟨1#4⟩).toNat = b := by
  simpa [placed] using fits

section Answers

variable {s : State} {base side : Nat} (inside : base + 256 * side * side ≤ s.cap.toNat / 256)
include inside

/-- In a matrix inside the store every operand of its commands fits a register. -/
theorem operands_fit : base + 256 * side * side < 2 ^ 64 ∧ side < 2 ^ 56 ∧ 256 * side * (256 * side) < 2 ^ 64 := by
  have capacity := s.cap.isLt
  have square : side ≤ 256 * side * side := by
    have le := Nat.le_mul_self side
    rw [Nat.mul_assoc]
    omega
  rw [vectors_of_side]
  omega

/-- The TBLKS of a block inside the matrix transposes the block. -/
theorem exec_block_phase {br bc : Nat} (hbr : br < side) (hbc : bc < side) :
    execPhase base (256 * side) (.block br bc) s =
      .next ((placed s (base + 256 * br * side + bc) side).setStore
        (Memory.relocate (phaseMove base side (.block br bc)) s.store)).advance := by
  obtain ⟨fits, sideFits, -⟩ := operands_fit inside
  obtain ⟨-, lastRow⟩ := inMatrix_entryAt (base := base) hbr hbc (i := 255) (c := 0) (by decide) (by decide)
  rw [← blockPhase_position] at lastRow
  have first := placed_first s (show base + 256 * br * side + bc < 2 ^ 64 by omega) side
  have second := placed_second s (base + 256 * br * side + bc) (show side < 2 ^ 64 by omega)
  have nonzero : (placed s (base + 256 * br * side + bc) side).readS ⟨1#4⟩ ≠ 0#64 := fun zero => by
    rw [zero] at second
    exact absurd hbr (second ▸ Nat.not_lt_zero br)
  have answer := exec_tblks_of_inside (ra := ⟨0#4⟩) nonzero
    (by rw [first, second]; exact Nat.le_trans (show _ ≤ base + 256 * side * side by omega) inside)
  rw [first, second] at answer
  rw [execPhase, Nat.mul_div_cancel_left side (by decide)]
  exact answer

/-- The RBLK of the matrix exchanges its blocks. -/
theorem exec_exchange_phase : execPhase base (256 * side) .exchange s =
    .next ((placed s base (256 * side * (256 * side))).setStore
      (Memory.relocate (phaseMove base side .exchange) s.store)).advance := by
  obtain ⟨fits, -, areaFits⟩ := operands_fit inside
  have first := placed_first s (show base < 2 ^ 64 by omega) (256 * side * (256 * side))
  have answer := exec_rblk_of_square (ra := ⟨0#4⟩) (placed_second s base areaFits).symm
  rw [if_pos ((hasRegion_iff _ _ _).2 (by rw [first]; exact inside)), first] at answer
  exact answer

/-- Each phase completes, keeps the capacity, and moves the bits of the store. -/
theorem exec_phase {p : Phase} (phase : IsPhase side p) : ∃ t, execPhase base (256 * side) p s = .next t ∧ t.cap = s.cap ∧
    t.store = Memory.relocate (phaseMove base side p) s.store := by
  obtain listed | rfl := phase
  · obtain ⟨br, hbr, bc, hbc, rfl⟩ := mem_blockPhases.1 listed
    exact ⟨_, exec_block_phase inside hbr hbc, rfl, rfl⟩
  · exact ⟨_, exec_exchange_phase inside, rfl, rfl⟩

theorem exec_phases {ps : List Phase} (phases : ∀ p ∈ ps, IsPhase side p) :
    ∃ t, execPhases base (256 * side) ps s = .next t ∧
      t.store = ps.foldl (fun m p => Memory.relocate (phaseMove base side p) m) s.store := by
  induction ps generalizing s with
  | nil => exact ⟨s, rfl, rfl⟩
  | cons p ps ih =>
    obtain ⟨phase, later⟩ := List.forall_mem_cons.1 phases
    obtain ⟨t, first, cap, store⟩ := exec_phase inside phase
    obtain ⟨u, rest, store'⟩ := ih (cap.symm ▸ inside) later
    refine ⟨u, ?_, by rw [store', store, List.foldl_cons]⟩
    simp only [execPhases, first, rest]

/-- TMAT transposes the matrix. -/
theorem exec_tmat_at : execTmatAt base (256 * side) s =
    .next ((placed s base (256 * side)).setStore (Memory.relocate (matrixMove base (256 * side)) s.store)).advance := by
  obtain ⟨fits, sideFits, -⟩ := operands_fit inside
  have first := placed_first s (show base < 2 ^ 64 by omega) (256 * side)
  have second := placed_second s base (show 256 * side < 2 ^ 64 by omega)
  have answer := exec_tmat_of_inside (ra := ⟨0#4⟩) (rb := ⟨1#4⟩) (s := placed s base (256 * side))
    (by rw [second]; exact Nat.mul_mod_right 256 side)
    (by rw [first, second, vectors_of_side, Nat.mul_div_cancel_left _ (by decide)]; exact inside)
  rw [first, second] at answer
  exact answer

end Answers

/-- Phases after a relocation are one relocation. -/
theorem foldl_phases_relocate (base side : Nat) (ps : List Phase) (f : Nat → Nat) (m : Memory) :
    ps.foldl (fun m p => Memory.relocate (phaseMove base side p) m) (Memory.relocate f m) =
      Memory.relocate (phasesMove base side ps ∘ f) m := by
  induction ps generalizing f with
  | nil => rfl
  | cons p ps ih =>
    rw [List.foldl_cons, relocate_relocate, ih]
    rfl

/-- One phase or more, one after the other, are one relocation. -/
theorem foldl_phases_of_ne_nil (base side : Nat) {ps : List Phase} (nonempty : ps ≠ []) (m : Memory) :
    ps.foldl (fun m p => Memory.relocate (phaseMove base side p) m) m = Memory.relocate (phasesMove base side ps) m := by
  cases ps with
  | nil => exact absurd rfl nonempty
  | cons p ps => exact foldl_phases_relocate base side ps (phaseMove base side p) m

/-- Settles O52: each phase is a move of the bits of the matrix, and the blocks' transposes with the exchange of blocks,
before or after, are the transpose. -/
theorem twoPhaseTranspose : Obligations.TwoPhaseTranspose := by
  intro s base n order multiple inside perm
  obtain ⟨side, rfl⟩ := Nat.dvd_of_mod_eq_zero multiple
  rw [vectors_of_side, Nat.mul_div_cancel_left _ (by decide)] at inside
  rw [Nat.mul_div_cancel_left side (by decide)] at perm
  have blocks := isPhase_of_mem_order perm
  have exchange : IsPhase side .exchange := .inr rfl
  obtain ⟨u, runLast, storeLast⟩ := exec_phases inside (ps := order ++ [.exchange])
    (List.forall_mem_append.2 ⟨blocks, List.forall_mem_singleton.2 exchange⟩)
  obtain ⟨v, runFirst, storeFirst⟩ := exec_phases inside (ps := .exchange :: order)
    (List.forall_mem_cons.2 ⟨exchange, blocks⟩)
  rw [foldl_phases_of_ne_nil _ _ (by simp), phasesMove_exchange_last perm] at storeLast
  rw [foldl_phases_of_ne_nil _ _ (by simp), phasesMove_exchange_first perm] at storeFirst
  exact ⟨_, u, v, exec_tmat_at inside, runLast, storeLast, runFirst, storeFirst⟩

/-! ### The RBLK anywhere (log 11) -/

/-- An engine whose store is a matrix of 2 by 2 blocks with one bit set: row 0, column 1 of block `(0, 1)`. -/
def oneBitMatrix : State :=
  { State.powerOn 262144#64 [] with cap := 262144#64, store := Memory.setBit [] (entryAt 0 2 0 1 0 1) true }

theorem bitAt_oneBitMatrix (p : Nat) : Memory.bitAt oneBitMatrix.store p = true ↔ p = entryAt 0 2 0 1 0 1 := by
  simp [oneBitMatrix]

/-- The TBLKS of blocks `(0, 0)` and `(0, 1)`. -/
def upperBlocks : List Phase := [.block 0 0, .block 0 1]

/-- The TBLKS of blocks `(1, 0)` and `(1, 1)`. -/
def lowerBlocks : List Phase := [.block 1 0, .block 1 1]

/-- With the RBLK between them the bit is transposed in block `(0, 1)`, moved to block `(1, 0)` and transposed back. -/
theorem phasesMove_exchange_between : phasesMove 0 2 (upperBlocks ++ .exchange :: lowerBlocks) (entryAt 0 2 0 1 0 1) =
    entryAt 0 2 1 0 0 1 := by
  decide

/-- TMAT takes the bit to row 1, column 0 of block `(1, 0)`. -/
theorem matrixMove_oneBit : matrixMove 0 512 (entryAt 0 2 0 1 0 1) = entryAt 0 2 1 0 1 0 :=
  matrixMove_entryAt (side := 2) (by decide) (by decide) (by decide) (by decide)

/-- Refutes O53: in a matrix of 2 by 2 blocks, with the RBLK between the TBLKS of block `(0, 1)` and that of block
`(1, 0)`, the bit at row 0, column 1 of block `(0, 1)` is transposed twice. -/
theorem not_twoPhaseExchangeAnywhere : ¬ Obligations.TwoPhaseExchangeAnywhere := by
  intro law
  have inside : 0 + 256 * 2 * 2 ≤ oneBitMatrix.cap.toNat / 256 := by decide
  obtain ⟨t, u, tmat, run, same⟩ := law oneBitMatrix 0 512 upperBlocks lowerBlocks (by decide) (by decide) (by decide)
  obtain ⟨u', run', store'⟩ := exec_phases inside (ps := upperBlocks ++ .exchange :: lowerBlocks)
    (by unfold IsPhase; decide)
  obtain rfl : u = u' := Host.Outcome.next.inj (run.symm.trans run')
  obtain rfl := Host.Outcome.next.inj (tmat.symm.trans (exec_tmat_at inside))
  rw [foldl_phases_of_ne_nil _ _ (by simp)] at store'
  have moved : Memory.bitAt u.store (entryAt 0 2 1 0 1 0) = true := by
    rw [same, advance_store, setStore_store, bitAt_relocate_iff]
    exact ⟨_, (bitAt_oneBitMatrix _).2 rfl, matrixMove_oneBit⟩
  rw [store', bitAt_relocate_iff] at moved
  obtain ⟨p, set, place⟩ := moved
  rw [(bitAt_oneBitMatrix p).1 set, phasesMove_exchange_between] at place
  exact absurd place (by decide)

end Sys2Proof.Proofs
end
